-- ==== Sys2Proof/Word.lean ====
section
/-! DEFINITION. The word types of the block (spec 00_scope.md R10): `u3`, `u8`, `u16`, the 7-bit device address of
`Xfer` (20_memory.md R52) and the 64-bit command word (30_encoding.md R87). -/

namespace Sys2Proof

/-- `u8`: a register byte, a register address, a selector (R10). -/
abbrev Byte := BitVec 8

/-- `u16`: a channel value, a thermo-hygro code, an integration time (R10). -/
abbrev Half := BitVec 16

/-- `u3`: a gain code or an integration code (R10, R131). -/
abbrev Code3 := BitVec 3

/-- `u7`: a device address as handed to the transport (R51, R52). -/
abbrev DevAddr := BitVec 7

/-- A command word `W` (R87). -/
abbrev CmdWord := BitVec 64

end Sys2Proof
end

