-- ==== Sys2Proof/Config.lean ====
section
/-! DEFINITION. The parameters of the block (spec 00_scope.md R8) that are not inputs: what `KIND` and `NUM` can name, the
number type and the numerics record, `MAXN`, and the free values. `XFER` and the values of `KIND` and `NUM` are in State
(Machine/State.lean). -/

namespace Sys2Proof

/-- The values of the parameter `KIND`: which sensor the block drives (R8, decision D1). -/
inductive Kind where
  /-- the ambient-light sensor, device 0x29 -/
  | als
  /-- the thermo-hygro sensor, device 0x40 -/
  | ths
deriving DecidableEq, Repr

/-- The values of the parameter `NUM` (R8, D5): the numerics of the block. The spec's default is `exact`; R162 and R274
speak of the two IEEE formats; `other` stands for every other numerics record the spec allows (notes/assumptions/2.md,
21.md). -/
inductive Numeric where
  /-- exact rational arithmetic -/
  | exact
  /-- IEEE binary32, rounding to nearest -/
  | binary32
  /-- IEEE binary64, rounding to nearest -/
  | binary64
  /-- a numerics record of which nothing is known but that it meets the limit the spec states for all of them -/
  | other (i : Nat)
deriving DecidableEq, Repr

/-- The three formats the spec names (R8, R162, R274). -/
def Numeric.named : Numeric → Bool
  | .exact | .binary32 | .binary64 => true
  | .other _ => false

namespace Config

/-- `Q`, the type that holds the numbers lux, temperature and humidity under every `NUM` (R10): the rationals. A finite
binary number is a rational, and the numbers of any other record are held as the rationals that stand for them
(notes/assumptions/2.md, DESIGN CHOICE, safe). -/
abbrev Q := Rat

/-- The operations in which one numerics record may differ from another: the arithmetic, the literals and the comparison
(R8, R10, R160). -/
structure Arithmetic (α : Type) where
  /-- the constant `num/den` standing for a decimal literal of the source (R160) -/
  ofDec : (num den : Nat) → α
  add : α → α → α
  sub : α → α → α
  mul : α → α → α
  div : α → α → α
  lt : α → α → Bool
deriving Inhabited

/-- The parameter `NUM` (R8, "a numerics record"): what the formulas of R160, R183, R186 and R207 need of a number
type. The formulas are written once over this record, in the order of operations those rules give. -/
structure Numerics (α : Type) extends Arithmetic α where
  /-- conversion from an unsigned integer, exact (R10, R139 (d)) -/
  ofNat : Nat → α
  /-- rounding toward zero (R11) -/
  trunc : α → Int

/-- `MAXN`, the largest byte count of one `RDN` (R8, D12). -/
def maxN : Nat := 255

/-- FREE VALUE. The parameter `DRAW` (R8, R11, D9): the i-th byte drawn, under no law. Used for the two bytes
converted after a failed thermo-hygro read (R181). Nothing can evaluate it: notes/assumptions/5.md, safe. -/
opaque draw : Nat → Byte

/-- FREE VALUE. The integer part `GET` returns for a value whose truncation does not fit `i32`; R207 gives the pair the
type `(i32, u32)` and R210 says no such value is reachable. notes/assumptions/11.md, safe. -/
opaque wideIntPart : Q → BitVec 32

/-- FREE VALUE. The operations of the numerics that are neither exact nor one of the two IEEE formats: any functions, so
fixed-point numerics, numerics that flush small results to zero and the like are among them. A record that breaks the
limit of R139 (f) is none of the spec's (`limited` in Machine/Numerics.lean; notes/assumptions/2.md and 21.md). -/
opaque otherArithmetic : Nat → Arithmetic Q

end Config
end Sys2Proof
end

