-- ==== Sys2Proof/Syntax.lean ====
section
/-! DEFINITION. The twelve commands (spec 00_scope.md R2, 30_encoding.md R82), one constructor per row of the opcode
table, with the operands of R88 and R90. -/

namespace Sys2Proof

/-- A command with its operand values. Every operand is the unsigned field of the command word (R90). -/
inductive Instr where
  /-- `RDB addr` (R111): read one register byte -/
  | rdb (addr : Byte)
  /-- `RDN addr, n` (R112): read n consecutive bytes -/
  | rdn (addr n : Byte)
  /-- `WRB addr, value` (R113): write one register byte -/
  | wrb (addr value : Byte)
  /-- `CHKND` (R152): is a new light sample ready -/
  | chknd
  /-- `GETIT` (R154): the integration time in ms -/
  | getit
  /-- `GETCH` (R156): the two channel values -/
  | getch
  /-- `GETGN` (R158): the gain multiplier -/
  | getgn
  /-- `CLUX ch0, ch1, gain, itime` (R160): the lux formula on given operands -/
  | clux (ch0 ch1 : Half) (gain : Byte) (itime : Half)
  /-- `GETRH` (R182): the relative humidity -/
  | getrh
  /-- `GETT` (R185): the temperature -/
  | gett
  /-- `FETCH sel` (R202): read the sensor, convert, write the cache -/
  | fetch (sel : Byte)
  /-- `GET sel` (R205): decompose a cached value -/
  | get (sel : Byte)
deriving DecidableEq, Repr

end Sys2Proof
end

