-- ==== Sys2Proof/WellFormed.lean ====
section
/-! DEFINITION. The operand constraints of 30_encoding.md R90: the fourth test of R93. -/

namespace Sys2Proof

/-- The operands meet R90: `1 <= n <= MAXN` for `RDN`, `gain >= 1` and `itime >= 1` for `CLUX`. -/
def Instr.wellFormed : Instr → Bool
  | .rdn _ n => decide (1 ≤ n.toNat ∧ n.toNat ≤ Config.maxN)
  | .clux _ _ gain itime => decide (1 ≤ gain.toNat ∧ 1 ≤ itime.toNat)
  | .rdb _ => true
  | .wrb _ _ => true
  | .chknd => true
  | .getit => true
  | .getch => true
  | .getgn => true
  | .getrh => true
  | .gett => true
  | .fetch _ => true
  | .get _ => true

end Sys2Proof
end

