-- ==== Sys2Proof/Decode.lean ====
section
/-! DEFINITION. Decoding and encoding of command words (spec 30_encoding.md sections 3, 4 and 6). `decode` makes the
tests of R93 that need nothing but the word (opcode, must-be-zero bits) and assembles the operands; the two that need
`KIND` and the operands are `Instr.legalOn`. `decodeFor` is the whole procedure of R97. -/

namespace Sys2Proof

/-- The rows of the opcode map (R89). -/
inductive Op where
  | rdb | rdn | wrb | chknd | getit | getch | getgn | clux | getrh | gett | fetch | get
deriving DecidableEq, Repr

/-- The command formats (R88). -/
inductive Format where
  | n | a | an | av | s | l
deriving DecidableEq, Repr

/-- Why a word is no command: the four tests of R93. All four are answered `IllegalCommand`. -/
inductive DecodeError where
  /-- (1) the opcode is not in the table of R89 -/
  | unknownOpcode
  /-- (2) a must-be-zero bit of the format is 1 -/
  | mustBeZero
  /-- (3) the opcode is not valid on this `KIND` -/
  | wrongKind
  /-- (4) an operand constraint of R90 fails -/
  | badOperand
deriving DecidableEq, Repr

/-- The rows of R89, in the table's order. -/
def Op.all : List Op :=
  [.rdb, .rdn, .wrb, .chknd, .getit, .getch, .getgn, .clux, .getrh, .gett, .fetch, .get]

/-- The opcode column of R89. -/
def Op.code : Op → BitVec 8
  | .rdb => 0x01
  | .rdn => 0x02
  | .wrb => 0x03
  | .chknd => 0x10
  | .getit => 0x11
  | .getch => 0x12
  | .getgn => 0x13
  | .clux => 0x14
  | .getrh => 0x20
  | .gett => 0x21
  | .fetch => 0x30
  | .get => 0x31

/-- The format column of R89. -/
def Op.format : Op → Format
  | .rdb => .a
  | .rdn => .an
  | .wrb => .av
  | .chknd | .getit | .getch | .getgn | .getrh | .gett => .n
  | .clux => .l
  | .fetch | .get => .s

/-- The column "valid on KIND" of R89 (D13). -/
def Op.validOn : Op → Kind → Bool
  | .rdb, _ | .rdn, _ | .wrb, _ | .fetch, _ | .get, _ => true
  | .chknd, k | .getit, k | .getch, k | .getgn, k | .clux, k => k == .als
  | .getrh, k | .gett, k => k == .ths

/-- Look an opcode up in R89. -/
def Op.ofCode (c : BitVec 8) : Option Op :=
  Op.all.find? (fun o => o.code == c)

/-- The bits a format requires to be zero (R88). -/
def Format.zeroBits : Format → CmdWord
  | .n => 0x00FFFFFFFFFFFFFF
  | .a => 0x00FFFFFFFFFFFF00
  | .an => 0x00FFFFFFFFFF0000
  | .av => 0x00FFFFFFFFFF0000
  | .s => 0x00FFFFFFFFFFFF00
  | .l => 0

/-- The operand fields of R88, read straight from the word (R90). -/
def Op.assemble (o : Op) (w : CmdWord) : Instr :=
  match o with
  | .rdb => .rdb (w.extractLsb' 0 8)
  | .rdn => .rdn (w.extractLsb' 0 8) (w.extractLsb' 8 8)
  | .wrb => .wrb (w.extractLsb' 0 8) (w.extractLsb' 8 8)
  | .chknd => .chknd
  | .getit => .getit
  | .getch => .getch
  | .getgn => .getgn
  | .clux => .clux (w.extractLsb' 0 16) (w.extractLsb' 16 16) (w.extractLsb' 32 8) (w.extractLsb' 40 16)
  | .getrh => .getrh
  | .gett => .gett
  | .fetch => .fetch (w.extractLsb' 0 8)
  | .get => .get (w.extractLsb' 0 8)

/-- The row of a command. -/
def Instr.op : Instr → Op
  | .rdb _ => .rdb
  | .rdn _ _ => .rdn
  | .wrb _ _ => .wrb
  | .chknd => .chknd
  | .getit => .getit
  | .getch => .getch
  | .getgn => .getgn
  | .clux _ _ _ _ => .clux
  | .getrh => .getrh
  | .gett => .gett
  | .fetch _ => .fetch
  | .get _ => .get

/-- Tests (1) and (2) of R93, then the operands (R97). Total on all 2^64 words. -/
def decode (w : CmdWord) : Except DecodeError Instr :=
  match Op.ofCode (w.extractLsb' 56 8) with
  | none => .error .unknownOpcode
  | some o => if w &&& o.format.zeroBits = 0 then .ok (o.assemble w) else .error .mustBeZero

/-- Tests (3) and (4) of R93: the command is one this `KIND` accepts and its operands meet R90. -/
def Instr.legalOn (i : Instr) (k : Kind) : Bool :=
  i.op.validOn k && i.wellFormed

/-- The decoding procedure of R97 on a block of the given kind, its tests in the order of R93. -/
def decodeFor (k : Kind) (w : CmdWord) : Except DecodeError Instr :=
  match decode w with
  | .error e => .error e
  | .ok i =>
    if i.op.validOn k = false then .error .wrongKind
    else if i.wellFormed = false then .error .badOperand
    else .ok i

/-- A field at its place in the word: bit `lo` of the word is its least significant bit (R9, R88). -/
def place {n : Nat} (v : BitVec n) (lo : Nat) : CmdWord := v.setWidth 64 <<< lo

/-- The command word of a command, written from the format table R88: opcode in `W[63:56]`, operands at their places,
zeros elsewhere. -/
def encode : Instr → CmdWord
  | .rdb addr => place Op.rdb.code 56 ||| place addr 0
  | .rdn addr n => place Op.rdn.code 56 ||| place n 8 ||| place addr 0
  | .wrb addr value => place Op.wrb.code 56 ||| place value 8 ||| place addr 0
  | .chknd => place Op.chknd.code 56
  | .getit => place Op.getit.code 56
  | .getch => place Op.getch.code 56
  | .getgn => place Op.getgn.code 56
  | .clux ch0 ch1 gain itime =>
    place Op.clux.code 56 ||| place itime 40 ||| place gain 32 ||| place ch1 16 ||| place ch0 0
  | .getrh => place Op.getrh.code 56
  | .gett => place Op.gett.code 56
  | .fetch sel => place Op.fetch.code 56 ||| place sel 0
  | .get sel => place Op.get.code 56 ||| place sel 0

/-- The command word whose low `nbits` bits are `w`, every bit above them zero. -/
def tableWord (nbits w : Nat) : CmdWord :=
  BitVec.ofNat 64 (w % 2 ^ nbits)

/-- What `decode` reads from a word given as a number (bit 0 least significant, one 64-bit word). -/
def decodeTableWord (nbits w : Nat) : Option Instr :=
  match decode (tableWord nbits w) with
  | .ok i => some i
  | .error _ => none

end Sys2Proof
end

