-- ==== Sys2Proof/Machine/State.lean ====
section
/-! DEFINITION. The state of one block as plain data (spec 10_state.md, 70_reset_and_hazards.md R261), the request and
response records (20_memory.md R52, 30_encoding.md R92), the ports as lists of coming inputs, the reasons a step can
stop, and reset. -/

namespace Sys2Proof.Machine

open Sys2Proof.Config (Q)

/-- The sequencer states (R24, decision D29). -/
inductive Seq where
  | idle | notReady | ready | cached | run
deriving DecidableEq, Repr

/-- An entry of the gain table (R136): a multiplier, or the marker `Reserved`, which is no number. -/
inductive GainEntry where
  | valid (m : Byte)
  | reserved
deriving DecidableEq, Repr

/-- The pipeline latches (R21). `none` is "holds no value" (R22). -/
structure Latches where
  /-- `RAW[0]` -/
  raw0 : Option Byte
  /-- `RAW[1]` -/
  raw1 : Option Byte
  /-- `RAW[2]` -/
  raw2 : Option Byte
  /-- `RAW[3]` -/
  raw3 : Option Byte
  /-- `ST`, the status byte -/
  st : Option Byte
  /-- `IC`, the integration code -/
  ic : Option Code3
  /-- `GC`, the gain code -/
  gc : Option Code3
  /-- `CH0` -/
  ch0 : Option Half
  /-- `CH1` -/
  ch1 : Option Half
  /-- `G`, the gain or `Reserved` -/
  g : Option GainEntry
  /-- `IT`, the integration time in ms -/
  it : Option Half
  /-- `CODE`, the thermo-hygro code -/
  code : Option Half
deriving DecidableEq, Repr

/-- Every latch without a value: at reset and between commands (R22, R261). -/
def Latches.empty : Latches :=
  { raw0 := none, raw1 := none, raw2 := none, raw3 := none, st := none, ic := none, gc := none,
    ch0 := none, ch1 := none, g := none, it := none, code := none }

/-- One request to the transport, `Xfer(dev, w, r)` (R52). -/
structure Request where
  /-- the device address -/
  dev : DevAddr
  /-- the bytes of the write phase, in the order sent -/
  w : List Byte
  /-- the number of bytes of the read phase; 0 is no read phase -/
  r : Nat
deriving DecidableEq, Repr

/-- The transport's answer to one request (R52). -/
inductive BusResult where
  | done (bs : List Byte)
  | fail
deriving DecidableEq, Repr

/-- What the transport does next (the oracle XFER, R8, R52, R244): an answer, or no answer in this step.
notes/assumptions/3.md and 4.md, safe. -/
inductive TransportAct where
  | done (bs : List Byte)
  | fail
  /-- the request is not answered in this step -/
  | notYet
deriving DecidableEq, Repr

/-- What the host does in one step (R20, R260). notes/assumptions/6.md. -/
inductive HostAct where
  /-- present a command word on the command port -/
  | command (w : CmdWord)
  /-- assert the reset input -/
  | reset
  /-- present a command word once the response to the command before has come (R20, R266); with `ifOk`, only if that
  response's outcome is `Ok` (R96) -/
  | inTurn (w : CmdWord) (ifOk : Bool)
  /-- present nothing -/
  | idle
deriving DecidableEq, Repr

/-- Which request of which command is in flight: where the suspended sequencer resumes (R55). The second thermo-hygro
stage carries what the pipeline of R188 keeps of its first step. -/
inductive Stage where
  | rdb (addr : Byte)
  | rdn (addr n : Byte)
  | wrb (addr value : Byte)
  | chknd
  | getit
  | getch
  | getgn
  | getrh
  | gett
  /-- step 1 of R164 -/
  | lightStatus
  /-- step 2 of R164 -/
  | lightChannels
  /-- step 3 of R164 -/
  | lightGain
  /-- step 4 of R164 -/
  | lightRate
  /-- step 1 of R188 -/
  | thsHum
  /-- step 2 of R188, with `ok_h` and `code_h` -/
  | thsTemp (okH : Bool) (codeH : Half)
deriving DecidableEq, Repr

/-- The outcomes a command can end with (R230). -/
inductive OutcomeName where
  | ok | retry | unsupported | busError | reservedConfiguration | illegalCommand
deriving DecidableEq, Repr

/-- The payloads of the response (R92). -/
inductive Payload where
  /-- no payload -/
  | none
  /-- `RDB` -/
  | byte (b : Byte)
  /-- `RDN` -/
  | bytes (bs : List Byte)
  /-- `CHKND` -/
  | ready (v : Bool)
  /-- `GETIT` -/
  | ms (t : Half)
  /-- `GETCH` -/
  | channels (ch0 ch1 : Half)
  /-- `GETGN` -/
  | gain (m : Byte)
  /-- `CLUX` -/
  | lux (v : Q)
  /-- `GETRH`, `GETT` -/
  | value (v : Q)
  /-- `GET`: `intPart : i32`, `micros : u32` -/
  | pair (intPart micros : BitVec 32)
deriving DecidableEq, Repr

/-- The response record `(outcome, payload)` (R92). -/
structure Response where
  outcome : OutcomeName
  payload : Payload
deriving DecidableEq, Repr

/-- The state of one block. -/
structure State where
  /-- the parameter `KIND` (R8, R44): fixed for the life of the block -/
  kind : Kind
  /-- the parameter `NUM` (R8, D5): fixed for the life of the block -/
  num : Numeric
  /-- the sequencer state (R24) -/
  seq : Seq
  /-- a command is in progress (R25) -/
  busy : Bool
  /-- the latches (R21) -/
  lat : Latches
  /-- `cache.lux`; `none` is "written flag false, no value" (R27, R28) -/
  lux : Option Q
  /-- `cache.temp` (R27, R28) -/
  temp : Option Q
  /-- `cache.hum` (R27, R28) -/
  hum : Option Q
  /-- the request in flight, if the sequencer is suspended (R55) -/
  pending : Option Stage
  /-- how many bytes of `DRAW` have been drawn (the model's counter of a free value) -/
  drawIndex : Nat
  /-- the response port: the last response given (R92); the host reads it (R96), no rule of the block does -/
  response : Option Response
  /-- the requests put to the transport so far, oldest first (R52, R65); no rule reads it -/
  bus : List Request
  /-- the host's coming actions, one looked at per step (R20, R87) -/
  host : List HostAct
  /-- the transport's coming answers, in the order of the requests (XFER, R52) -/
  transport : List TransportAct
deriving DecidableEq, Repr

/-- What stops the block. Both are safe: nothing can be proved of what follows. -/
inductive Fault where
  /-- `UninitialisedRead` (R242): raised by `GET` on a supported cell whose written flag is false. Safe. -/
  | uninitialisedRead
  /-- A latch is read that holds no value (R22: a model that carries latches must fault). Raised by the shared latch
  read; no state a run reaches raises it. Safe. -/
  | unwrittenLatch
deriving DecidableEq, Repr

/-- Why a step has no meaning. Both are safe. -/
inductive Refusal where
  /-- an instruction without a meaning yet; raised by exec's refused arms only. Safe. -/
  | notModelled (mnemonic : String)
  /-- `ConcurrentCommand` (R243): a legal command presented while another is in progress; raised by the shared
  acceptance of a command. Safe. -/
  | concurrentCommand
deriving DecidableEq, Repr

/-- A step's result. -/
abbrev Out := Host.Outcome State Fault Refusal

/-- The reset state of a block of the given kind and numerics (R261, R45), the numerics by default the spec's default,
exact (R8). The port fields are empty: notes/assumptions/3.md, 5.md, 6.md and 7.md (DESIGN CHOICE). -/
def State.resetOf (k : Kind) (n : Numeric := .exact) : State :=
  { kind := k, num := n, seq := .idle, busy := false, lat := Latches.empty, lux := none, temp := none, hum := none,
    pending := none, drawIndex := 0, response := none, bus := [], host := [], transport := [] }

/-- The state after reset. `KIND` has no default in the spec; ALS is the model's (notes/assumptions/1.md, DESIGN
CHOICE, unsafe). -/
def State.reset : State := State.resetOf .als

end Sys2Proof.Machine
end

