-- ==== Sys2Proof/Machine/Operands.lean ====
section
/-! DEFINITION. Addresses, the request of each pipeline stage, the bit-field decoder, the byte combiners, the two lookup
tables and the channel selectors (spec 10_state.md section 6, 20_memory.md, 30_encoding.md R84 to R86 and R91,
41_decode_combine_tables.md, 44_facade.md R201). -/

namespace Sys2Proof.Machine

/-! ## Device address and register addresses -/

/-- `DEV`: 0x29 on ALS, 0x40 on THS (R11, R51). -/
def dev : Kind → DevAddr
  | .als => 0x29
  | .ths => 0x40

/-- CONTR (R31). -/
def regContr : Byte := 0x80
/-- MEAS_RATE (R32). -/
def regMeasRate : Byte := 0x85
/-- PART_ID (R33); no rule of the block uses it. -/
def regPartId : Byte := 0x86
/-- MANUFAC_ID (R34). -/
def regManufacId : Byte := 0x87
/-- DATA_CH1_0, the start of the 4-byte channel read (R35). -/
def regDataCh1Lo : Byte := 0x88
/-- DATA_CH1_1 (R35). -/
def regDataCh1Hi : Byte := 0x89
/-- DATA_CH0_0 (R35). -/
def regDataCh0Lo : Byte := 0x8A
/-- DATA_CH0_1 (R35). -/
def regDataCh0Hi : Byte := 0x8B
/-- STATUS (R36). -/
def regStatus : Byte := 0x8C
/-- HUMIDITY_MASTER (R38). -/
def cmdHumidityMaster : Byte := 0xE5
/-- TEMP_MASTER (R39). -/
def cmdTempMaster : Byte := 0xE3
/-- HUMIDITY_NO_MASTER (R40); no rule of the block uses it. -/
def cmdHumidityNoMaster : Byte := 0xF5
/-- TEMP_NO_MASTER (R40); no rule of the block uses it. -/
def cmdTempNoMaster : Byte := 0xF3

/-! ## Requests -/

/-- `BusRead(DEV, addr, n) = Xfer(DEV, [addr], n)` (R53, R80). The address is the operand itself (R110) and only the
start address is sent (R64). -/
def readRequest (k : Kind) (addr : Byte) (n : Nat) : Request :=
  { dev := dev k, w := [addr], r := n }

/-- `BusWrite(DEV, addr, v) = Xfer(DEV, [addr, v], 0)` (R54, R81). -/
def writeRequest (k : Kind) (addr value : Byte) : Request :=
  { dev := dev k, w := [addr, value], r := 0 }

/-- The request each stage makes: R111, R112, R113, R152, R154, R156, R158, R182, R185, R164, R188. -/
def Stage.request (k : Kind) : Stage → Request
  | .rdb addr => readRequest k addr 1
  | .rdn addr n => readRequest k addr n.toNat
  | .wrb addr value => writeRequest k addr value
  | .chknd | .lightStatus => readRequest k regStatus 1
  | .getit | .lightRate => readRequest k regMeasRate 1
  | .getch | .lightChannels => readRequest k regDataCh1Lo 4
  | .getgn | .lightGain => readRequest k regContr 1
  | .getrh | .thsHum => readRequest k cmdHumidityMaster 2
  | .gett | .thsTemp _ _ => readRequest k cmdTempMaster 2

/-- The answer to a request for `r` bytes when the transport reports success with the bytes `bs`: `Done` carries exactly
`r` bytes and anything else has failed (R52, D30; notes/assumptions/4.md). -/
def doneResult (r : Nat) (bs : List Byte) : BusResult :=
  if bs.length = r then .done bs else .fail

/-! ## Bit-field decoder -/

/-- `field3(b, mask, shift) = (b & mask) >> shift` (R131). -/
def field3 (b mask : Byte) (shift : Nat) : Code3 :=
  ((b &&& mask) >>> shift).setWidth 3

/-- `gaincode(b) = field3(b, 0x1C, 2)` (R132, R84). -/
def gaincode (b : Byte) : Code3 := field3 b 0x1C 2

/-- `intcode(b) = field3(b, 0x38, 3)` (R133, R84). -/
def intcode (b : Byte) : Code3 := field3 b 0x38 3

/-! ## Byte combiners -/

/-- `comb16le(first, second)`: the first byte received is the low byte (R135, R56). -/
def comb16le (first second : Byte) : Half :=
  (second.setWidth 16 <<< 8) ||| first.setWidth 16

/-- `comb16be(first, second)`: the first byte received is the high byte (R138, R57). -/
def comb16be (first second : Byte) : Half :=
  (first.setWidth 16 <<< 8) ||| second.setWidth 16

/-! ## Lookup tables -/

/-- `GAIN_TABLE`, entry 0 first (R136, R86). -/
def gainEntries : List GainEntry :=
  [.valid 1, .valid 2, .valid 4, .valid 8, .reserved, .reserved, .valid 48, .valid 96]

/-- `GAIN_TABLE[c]` (R136). The table has an entry for each of the eight codes. -/
def gainTable (c : Code3) : GainEntry :=
  gainEntries.getD c.toNat .reserved

/-- `ITIME_TABLE` in milliseconds, entry 0 first (R137, R86). -/
def itimeEntries : List Half :=
  [100, 50, 200, 400, 150, 250, 300, 350]

/-- `ITIME_TABLE[c]` (R137). The table has an entry for each of the eight codes. -/
def itimeTable (c : Code3) : Half :=
  itimeEntries.getD c.toNat 0

/-! ## Channel selectors -/

/-- The selector names (R91); `other` is a value 4 to 255, which no block provides. -/
inductive Selector where
  | light | ambientTemperature | humidity | all | other
deriving DecidableEq, Repr

/-- The value column of R91. -/
def Selector.ofByte (sel : Byte) : Selector :=
  if sel = 0 then .light
  else if sel = 1 then .ambientTemperature
  else if sel = 2 then .humidity
  else if sel = 3 then .all
  else .other

/-- The three cache cells (R27). -/
inductive CellName where
  | lux | temp | hum
deriving DecidableEq, Repr

/-- What `FETCH` runs (R201). -/
inductive FetchPlan where
  | light | ths | unsupported
deriving DecidableEq, Repr

/-- The two FETCH columns of R201. -/
def fetchPlan (k : Kind) (sel : Byte) : FetchPlan :=
  match k, Selector.ofByte sel with
  | .als, .light => .light
  | .als, .all => .light
  | .als, .ambientTemperature => .unsupported
  | .als, .humidity => .unsupported
  | .als, .other => .unsupported
  | .ths, .light => .unsupported
  | .ths, .ambientTemperature => .ths
  | .ths, .humidity => .ths
  | .ths, .all => .ths
  | .ths, .other => .unsupported

/-- The two GET columns of R201; `none` is `Unsupported` (R209). -/
def getCell (k : Kind) (sel : Byte) : Option CellName :=
  match k, Selector.ofByte sel with
  | .als, .light => some .lux
  | .als, .ambientTemperature => none
  | .als, .humidity => none
  | .als, .all => none
  | .als, .other => none
  | .ths, .light => none
  | .ths, .ambientTemperature => some .temp
  | .ths, .humidity => some .hum
  | .ths, .all => none
  | .ths, .other => none

end Sys2Proof.Machine
end

