-- ==== Sys2Proof/Machine/Flags.lean ====
section
/-! DEFINITION. The flags of the block (spec 10_state.md R26): the status-validity test, the written flag of each cache
cell, and the outcome codes. -/

namespace Sys2Proof.Machine

open Sys2Proof.Config (Q)

/-- `status_valid(s)`: bit 2 is set and bit 7 is clear (R134). -/
def statusValid (s : Byte) : Bool :=
  s.getLsbD 2 && !s.getLsbD 7

/-- The content of a cache cell (R27, R28). -/
def State.cell (s : State) : CellName → Option Q
  | .lux => s.lux
  | .temp => s.temp
  | .hum => s.hum

/-- The written flag of a cache cell, `.w` (R28). -/
def State.written (s : State) (c : CellName) : Bool :=
  (s.cell c).isSome

/-- Write a cache cell and set its written flag (R164 step 6, R188 step 3). -/
def State.writeCell (c : CellName) (v : Q) (s : State) : State :=
  match c with
  | .lux => { s with lux := some v }
  | .temp => { s with temp := some v }
  | .hum => { s with hum := some v }

/-- The numeric codes of the outcomes (R92, R230, D3). -/
def OutcomeName.code : OutcomeName → Nat
  | .ok => 0
  | .retry => 1
  | .unsupported => 2
  | .busError => 3
  | .reservedConfiguration => 4
  | .illegalCommand => 5

end Sys2Proof.Machine
end

