-- ==== Sys2Proof/Machine/Numerics.lean ====
section
/-! DEFINITION. The calibration evaluator and the fixed-point decomposition (spec 42_light_sensor.md R160,
43_thermo_hygro.md R183 and R186, 44_facade.md R207), written over a numerics record in the order of operations the
rules give; the limit the spec states for every `NUM`, and the record each value of the parameter names. -/

namespace Sys2Proof.Machine

open Sys2Proof.Config (Q Numerics)

/-- `trunc(q)`: the integer nearest to `q` that is not larger in magnitude (R11). -/
def truncQ (q : Q) : Int := q.num.tdiv q.den

/-! ## The formulas -/

/-- The four bands of the lux formula (R160). -/
inductive Band where
  | band1 | band2 | band3 | band4
deriving DecidableEq, Repr

/-- The sum of the two channels, 17 bits wide, so that it never wraps (R160, R139 (c)). -/
def channelSum (ch0 ch1 : Half) : BitVec 17 := ch0.setWidth 17 + ch1.setWidth 17

/-- The band of a pair of channels with a sum that is not 0: `ratio` against the three edges, the lower edge of a band
belonging to it (R160). -/
def bandWith {α : Type} (N : Numerics α) (ch0 ch1 : Half) : Band :=
  let ratio := N.div (N.ofNat ch1.toNat) (N.ofNat (channelSum ch0 ch1).toNat)
  if N.lt ratio (N.ofDec 45 100) then .band1
  else if N.lt ratio (N.ofDec 64 100) then .band2
  else if N.lt ratio (N.ofDec 85 100) then .band3
  else .band4

/-- The lux formula of R160 over any `NUM`: a zero sum gives 0, then the band decides. -/
def luxWith {α : Type} (N : Numerics α) (ch0 ch1 : Half) (gain : Byte) (itime : Half) : α :=
  if channelSum ch0 ch1 = 0 then N.ofNat 0
  else
    let c0 := N.ofNat ch0.toNat
    let c1 := N.ofNat ch1.toNat
    let denom := N.mul (N.ofNat gain.toNat) (N.div (N.ofNat itime.toNat) (N.ofNat 100))
    match bandWith N ch0 ch1 with
    | .band1 => N.div (N.add (N.mul (N.ofDec 17743 10000) c0) (N.mul (N.ofDec 11059 10000) c1)) denom
    | .band2 => N.div (N.sub (N.mul (N.ofDec 42785 10000) c0) (N.mul (N.ofDec 19548 10000) c1)) denom
    | .band3 => N.div (N.add (N.mul (N.ofDec 5926 10000) c0) (N.mul (N.ofDec 1185 10000) c1)) denom
    | .band4 => N.ofNat 0

/-- `rh_poly(code) = 125 * code / 65536 - 6` over any `NUM` (R183). -/
def rhPolyWith {α : Type} (N : Numerics α) (code : Half) : α :=
  N.sub (N.div (N.mul (N.ofNat 125) (N.ofNat code.toNat)) (N.ofNat 65536)) (N.ofNat 6)

/-- `t_poly(code) = 175.72 * code / 65536 - 46.85` over any `NUM` (R186). -/
def tPolyWith {α : Type} (N : Numerics α) (code : Half) : α :=
  N.sub (N.div (N.mul (N.ofDec 17572 100) (N.ofNat code.toNat)) (N.ofNat 65536)) (N.ofDec 4685 100)

/-- The integer part of `decomp` over any `NUM`, before it is put into `i32` (R207). -/
def intPartWith {α : Type} (N : Numerics α) (v : α) : Int :=
  N.trunc v

/-- The millionths part of `decomp` over any `NUM`: the magnitude is taken before the remainder (R207, C5). -/
def microsWith {α : Type} (N : Numerics α) (v : α) : Nat :=
  (N.trunc (N.mul v (N.ofNat 1000000))).natAbs % 1000000

/-! ## The records -/

/-- The record over the rationals with the given operations. Conversion from an unsigned integer is exact and rounding
toward zero is that of the numbers, whatever the operations (R10, R11, R139 (d)). -/
def overQ (A : Config.Arithmetic Q) : Numerics Q :=
  { toArithmetic := A
    ofNat := fun n => (n : Q)
    trunc := truncQ }

/-- The operations of `NUM = exact`: exact rational arithmetic (R10). -/
def exactArithmetic : Config.Arithmetic Q :=
  { ofDec := fun n d => (n : Q) / (d : Q)
    add := fun a b => a + b
    sub := fun a b => a - b
    mul := fun a b => a * b
    div := fun a b => a / b
    lt := fun a b => decide (a < b) }

/-- The record of `NUM = exact`, the default (R8, D5). -/
def exact : Numerics Q := overQ exactArithmetic

/-! ### The IEEE formats, rounding to nearest (R162, R274; notes/assumptions/20.md) -/

/-- A power of two with an integer exponent. -/
def pow2 (e : Int) : Q :=
  match e with
  | .ofNat n => ((2 ^ n : Nat) : Q)
  | .negSucc n => 1 / ((2 ^ (n + 1) : Nat) : Q)

/-- The exponent `e` with `2^e <= |q| < 2^(e+1)`, for `q` not 0. -/
def binade (q : Q) : Int :=
  let e : Int := (q.num.natAbs.log2 : Int) - (q.den.log2 : Int)
  if pow2 e ≤ |q| then e else e - 1

/-- The integer nearest to `x`, a tie going to the even one. -/
def roundHalfEven (x : Q) : Int :=
  let f := x.floor
  if x - (f : Q) < 1 / 2 then f
  else if 1 / 2 < x - (f : Q) then f + 1
  else if f % 2 = 0 then f else f + 1

/-- The number of `p` significant bits nearest to `q`. -/
def roundBinary (p : Nat) (q : Q) : Q :=
  if q = 0 then 0
  else
    let u := pow2 (binade q - ((p : Int) - 1))
    (roundHalfEven (q / u) : Q) * u

/-- The record `NUM` of a binary format of `p` significant bits: each operation rounds its exact result, each literal is
rounded to the format (R162). The exponent has no bounds: no value the block forms leaves the range of binary32. -/
def binary (p : Nat) : Numerics Q :=
  overQ
    { ofDec := fun n d => roundBinary p ((n : Q) / (d : Q))
      add := fun a b => roundBinary p (a + b)
      sub := fun a b => roundBinary p (a - b)
      mul := fun a b => roundBinary p (a * b)
      div := fun a b => roundBinary p (a / b)
      lt := fun a b => decide (a < b) }

/-! ### Every other record (R8, D5; notes/assumptions/2.md, 21.md) -/

/-- The one limit the spec states for all numerics (R139 (f)): no value `FETCH` can put into the cache has an integer
part larger in magnitude than 351152. -/
@[irreducible] def withinLimit (N : Numerics Q) : Bool :=
  decide (
    (∀ code : Half, (intPartWith N (rhPolyWith N code)).natAbs ≤ 351152) ∧
    (∀ code : Half, (intPartWith N (tPolyWith N code)).natAbs ≤ 351152) ∧
    ∀ (ch0 ch1 : Half) (c d : Code3) (m : Byte), gainTable c = .valid m →
      (intPartWith N (luxWith N ch0 ch1 m (itimeTable d))).natAbs ≤ 351152)

/-- The given operations, as they are, where their record meets the limit of R139 (f). A record that breaks it is none of
the spec's; the exact operations then stand in its place. -/
def limited (A : Config.Arithmetic Q) : Config.Arithmetic Q :=
  if withinLimit (overQ A) then A else exactArithmetic

/-- The record a value of the parameter `NUM` names (R8): 24 and 53 significant bits for the two IEEE formats. -/
def numerics (n : Numeric) : Numerics Q :=
  match n with
  | .exact => exact
  | .binary32 => binary 24
  | .binary64 => binary 53
  | .other i => overQ (limited (Config.otherArithmetic i))

/-! ## The formulas under the block's `NUM` -/

/-- `lux` of R160 under the block's `NUM`. -/
def lux (n : Numeric) (ch0 ch1 : Half) (gain : Byte) (itime : Half) : Q := luxWith (numerics n) ch0 ch1 gain itime

/-- `rh_poly` of R183 under the block's `NUM`. -/
def rhPoly (n : Numeric) (code : Half) : Q := rhPolyWith (numerics n) code

/-- `t_poly` of R186 under the block's `NUM`. -/
def tPoly (n : Numeric) (code : Half) : Q := tPolyWith (numerics n) code

/-- Does the integer fit `i32` (R10)? -/
def fitsI32 (i : Int) : Bool := decide (-2147483648 ≤ i ∧ i ≤ 2147483647)

/-- The `intPart` of `decomp` as an `i32` (R207). Outside `i32`, which no run reaches under any `NUM` (R210, R139 (f)), a
free value: notes/assumptions/11.md. -/
def intPart32 (n : Numeric) (v : Q) : BitVec 32 :=
  let ip := intPartWith (numerics n) v
  if fitsI32 ip then BitVec.ofInt 32 ip else Config.wideIntPart v

/-- The `micros` of `decomp` as a `u32`, always 0 to 999999 (R207). -/
def micros32 (n : Numeric) (v : Q) : BitVec 32 := BitVec.ofNat 32 (microsWith (numerics n) v)

end Sys2Proof.Machine
end

