-- ==== Sys2Proof/Machine/Ops.lean ====
section
/-! DEFINITION. The operations the commands share: accepting a command, ending it with an outcome (the block's
stand-in for taking an exception, spec 60_exceptions.md R239), the latches, putting a request to the transport and
taking its answer (20_memory.md R52 to R55), the decode steps of the light pipeline, and reset (R260). -/

namespace Sys2Proof.Machine

open Sys2Proof.Config (Q)

/-! ## Beginning and ending a command -/

/-- A command is accepted: `busy` is set, `seq` leaves IDLE (R24, R25), no latch holds a value (R22) and no response
has been given. -/
def State.start (q : Seq) (s : State) : State :=
  { s with seq := q, busy := true, lat := Latches.empty, pending := none, response := none }

/-- A command ends: `seq <- IDLE`, `busy <- false`, the latches are dead, the response is given (R24, R25, R22, R239). -/
def State.complete (r : Response) (s : State) : State :=
  { s with seq := .idle, busy := false, lat := Latches.empty, pending := none, response := some r }

/-- A response is given without a command having been accepted: the answer to an illegal word, with no state change
(R93, R235). -/
def State.answer (r : Response) (s : State) : State :=
  { s with response := some r }

/-- `return (Ok, payload)` (R11). -/
def reply (p : Payload) (s : State) : Out :=
  .next (s.complete { outcome := .ok, payload := p })

/-- `raise <Outcome>` (R11, R239): saves nothing, transfers control nowhere, ends the command. State already written
stays written. -/
def raise (o : OutcomeName) (s : State) : Out :=
  .next (s.complete { outcome := o, payload := .none })

/-- Acceptance of a command, the checks in the order of R238: an illegal command is answered `IllegalCommand` (R93,
R235); a legal one presented while `busy` is refused (R243); otherwise `seq <- q` and the command's rule runs. -/
def accept (i : Instr) (q : Seq) (body : State → Out) (s : State) : Out :=
  if i.legalOn s.kind then
    if s.busy then .refused .concurrentCommand else body (s.start q)
  else .next (s.answer { outcome := .illegalCommand, payload := .none })

/-- The sequencer moves on (R24). -/
def State.setSeq (q : Seq) (s : State) : State := { s with seq := q }

/-! ## Latches -/

/-- Read a latch; a latch without a value is the fault of R22. -/
def withLatch {α : Type} (o : Option α) (k : α → Out) : Out :=
  match o with
  | some v => k v
  | none => .fault .unwrittenLatch

/-- The latches take new contents. -/
def State.setLat (l : Latches) (s : State) : State := { s with lat := l }

/-- `RAW[0 .. min(n,4)-1] <- b[0 .. ]` on `Done(b)` (R53); the other entries keep what they hold. -/
def Latches.loadRaw (bs : List Byte) (l : Latches) : Latches :=
  { l with
    raw0 := (bs[0]?).or l.raw0
    raw1 := (bs[1]?).or l.raw1
    raw2 := (bs[2]?).or l.raw2
    raw3 := (bs[3]?).or l.raw3 }

/-- After a failed read the RAW entries hold no defined value (R53). -/
def Latches.clearRaw (l : Latches) : Latches :=
  { l with raw0 := none, raw1 := none, raw2 := none, raw3 := none }

/-- `(RAW[0], RAW[1]) <- draw(2)`: two bytes under no law, drawn afresh (R181, D9). -/
def State.drawRaw (s : State) : State :=
  { s with
    lat := { s.lat with raw0 := some (Config.draw s.drawIndex), raw1 := some (Config.draw (s.drawIndex + 1)) }
    drawIndex := s.drawIndex + 2 }

/-- `ST <- v` (R152). -/
def State.setSt (v : Byte) (s : State) : State := s.setLat { s.lat with st := some v }

/-- `CH0 <- a ; CH1 <- b` (R156). -/
def State.setChannels (a b : Half) (s : State) : State := s.setLat { s.lat with ch0 := some a, ch1 := some b }

/-- `GC <- c` (R158). -/
def State.setGc (c : Code3) (s : State) : State := s.setLat { s.lat with gc := some c }

/-- `G <- e` (R158). -/
def State.setG (e : GainEntry) (s : State) : State := s.setLat { s.lat with g := some e }

/-- `IC <- c` (R154). -/
def State.setIc (c : Code3) (s : State) : State := s.setLat { s.lat with ic := some c }

/-- `IT <- t` (R154). -/
def State.setIt (t : Half) (s : State) : State := s.setLat { s.lat with it := some t }

/-- `CODE <- c` (R181). -/
def State.setCode (c : Half) (s : State) : State := s.setLat { s.lat with code := some c }

/-! ## Requests -/

/-- Put the request of a stage to the transport: it is on the bus and the sequencer is suspended at it (R52, R55). -/
def State.request (st : Stage) (s : State) : State :=
  { s with bus := s.bus ++ [st.request s.kind], pending := some st }

/-- The answer to the request in flight is taken: the transport has one action less and no request is in flight. -/
def State.answered (ts : List TransportAct) (s : State) : State :=
  { s with transport := ts, pending := none }

/-- RAW after the answer to a request for `r` bytes: a read loads or clears it (R53), a write leaves it (R54, R113). -/
def State.afterAnswer (r : Nat) (res : BusResult) (s : State) : State :=
  match res with
  | .done bs => s.setLat (s.lat.loadRaw bs)
  | .fail => if r = 0 then s else s.setLat s.lat.clearRaw

/-- Wait for the answer to the request in flight, the one of stage `st`, and go on with it (R52, R55). An unanswered
request leaves the sequencer suspended, for ever if no answer ever comes (R244). -/
def settle (st : Stage) (k : BusResult → State → Out) (s : State) : Out :=
  match s.transport with
  | [] => .next s
  | .notYet :: ts => .next { s with transport := ts }
  | .done bs :: ts =>
    let res := doneResult (st.request s.kind).r bs
    k res ((s.answered ts).afterAnswer (st.request s.kind).r res)
  | .fail :: ts => k .fail ((s.answered ts).afterAnswer (st.request s.kind).r .fail)

/-- One bus request as one indivisible step of the sequencer: issue it, wait, resume with the answer (R55). -/
def issue (st : Stage) (k : BusResult → State → Out) (s : State) : Out :=
  settle st k (s.request st)

/-! ## Decode steps shared by the light-sensor commands and `FetchLight` -/

/-- `ST <- RAW[0]` (R152, R164 step 1). -/
def decodeStatus (s : State) (k : State → Out) : Out :=
  withLatch s.lat.raw0 fun b => k (s.setSt b)

/-- `CH0 <- comb16le(RAW[0], RAW[1]) ; CH1 <- comb16le(RAW[2], RAW[3])` (R156, R164 step 2). The first pair, the
registers named DATA_CH1_x, is `CH0` (C2, R272). -/
def decodeChannels (s : State) (k : State → Out) : Out :=
  withLatch s.lat.raw0 fun b0 =>
  withLatch s.lat.raw1 fun b1 =>
  withLatch s.lat.raw2 fun b2 =>
  withLatch s.lat.raw3 fun b3 =>
  k (s.setChannels (comb16le b0 b1) (comb16le b2 b3))

/-- `GC <- gaincode(RAW[0]) ; G <- GAIN_TABLE[GC]` (R158, R164 step 3). -/
def decodeGain (s : State) (k : State → Out) : Out :=
  withLatch s.lat.raw0 fun b => k ((s.setGc (gaincode b)).setG (gainTable (gaincode b)))

/-- `IC <- intcode(RAW[0]) ; IT <- ITIME_TABLE[IC]` (R154, R164 step 4). -/
def decodeRate (s : State) (k : State → Out) : Out :=
  withLatch s.lat.raw0 fun b => k ((s.setIc (intcode b)).setIt (itimeTable (intcode b)))

/-! ## The read step of the thermo-hygro commands -/

/-- `ReadCode` after the answer (R181): a failed read goes on with two drawn bytes; `CODE <- comb16be(RAW[0], RAW[1])`;
`ok` is given to the rest of the command. -/
def readCode (res : BusResult) (s : State) (k : Bool → State → Out) : Out :=
  match res with
  | .done _ =>
    withLatch s.lat.raw0 fun b0 =>
    withLatch s.lat.raw1 fun b1 =>
    k true (s.setCode (comb16be b0 b1))
  | .fail =>
    withLatch s.drawRaw.lat.raw0 fun b0 =>
    withLatch s.drawRaw.lat.raw1 fun b1 =>
    k false (s.drawRaw.setCode (comb16be b0 b1))

/-- The outcome of a thermo-hygro command: `Ok`, or `BusError` after a failed read (R182, R185, R188). -/
def thsOutcome (ok : Bool) : OutcomeName := if ok then .ok else .busError

/-! ## Reset -/

/-- The reset input (R260, R261): the block is in its reset state, a command in progress is abandoned without a response,
no request is made. The environment's lists, the record of past requests and the draw counter are not the block's and
stay (notes/assumptions/13.md). -/
def State.applyReset (s : State) : State :=
  { State.resetOf s.kind s.num with drawIndex := s.drawIndex, bus := s.bus, host := s.host, transport := s.transport }

end Sys2Proof.Machine
end

