-- ==== Sys2Proof/Machine/LightSensor.lean ====
section
/-! DEFINITION. Family 3, the light sensor: `CHKND`, `GETIT`, `GETCH`, `GETGN`, `CLUX` and the pipeline `FetchLight`
(spec 42_light_sensor.md). The `…Answer` functions are what a command does with its answer. -/

namespace Sys2Proof.Machine

open Sys2Proof.Config (Q)

/-- R152 after the answer. -/
def chkndAnswer (res : BusResult) (s : State) : Out :=
  match res with
  | .fail => raise .busError s
  | .done _ => decodeStatus s fun s => withLatch s.lat.st fun st => reply (.ready (statusValid st)) s

/-- `CHKND` (R152). A status that is not valid is an `Ok` response. -/
def execChknd (s : State) : Out :=
  accept .chknd .run (issue .chknd chkndAnswer) s

/-- R154 after the answer. -/
def getitAnswer (res : BusResult) (s : State) : Out :=
  match res with
  | .fail => raise .busError s
  | .done _ => decodeRate s fun s => withLatch s.lat.it fun t => reply (.ms t) s

/-- `GETIT` (R154). -/
def execGetit (s : State) : Out :=
  accept .getit .run (issue .getit getitAnswer) s

/-- R156 after the answer. -/
def getchAnswer (res : BusResult) (s : State) : Out :=
  match res with
  | .fail => raise .busError s
  | .done _ =>
    decodeChannels s fun s =>
    withLatch s.lat.ch0 fun a =>
    withLatch s.lat.ch1 fun b =>
    reply (.channels a b) s

/-- `GETCH` (R156): one 4-byte read. -/
def execGetch (s : State) : Out :=
  accept .getch .run (issue .getch getchAnswer) s

/-- R158 after the answer: a reserved entry is an outcome without a number. -/
def getgnAnswer (res : BusResult) (s : State) : Out :=
  match res with
  | .fail => raise .busError s
  | .done _ =>
    decodeGain s fun s => withLatch s.lat.g fun g =>
    match g with
    | .reserved => raise .reservedConfiguration s
    | .valid m => reply (.gain m) s

/-- `GETGN` (R158). -/
def execGetgn (s : State) : Out :=
  accept .getgn .run (issue .getgn getgnAnswer) s

/-- `CLUX ch0, ch1, gain, itime` (R160): no request, `Ok` always, once legal. -/
def execClux (ch0 ch1 : Half) (gain : Byte) (itime : Half) (s : State) : Out :=
  accept (.clux ch0 ch1 gain itime) .run (reply (.lux (lux s.num ch0 ch1 gain itime))) s

/-! ## `FetchLight` (R164), last step first -/

/-- Steps 5 and 6: compute from the latches, `seq <- CACHED`, write the cache, end `Ok`. A reserved gain never reaches
the arithmetic (R234). -/
def fetchLightStore (s : State) : Out :=
  withLatch s.lat.g fun g =>
  match g with
  | .reserved => raise .reservedConfiguration s
  | .valid m =>
    withLatch s.lat.ch0 fun c0 =>
    withLatch s.lat.ch1 fun c1 =>
    withLatch s.lat.it fun t =>
    reply .none ((s.setSeq .cached).writeCell .lux (lux s.num c0 c1 m t))

/-- Step 4 after its answer. -/
def lightRateAnswer (res : BusResult) (s : State) : Out :=
  match res with
  | .fail => raise .busError s
  | .done _ => decodeRate s fetchLightStore

/-- Step 3 after its answer: a reserved gain ends the fetch, MEAS_RATE is not read (D31). -/
def lightGainAnswer (res : BusResult) (s : State) : Out :=
  match res with
  | .fail => raise .busError s
  | .done _ =>
    decodeGain s fun s => withLatch s.lat.g fun g =>
    match g with
    | .reserved => raise .reservedConfiguration s
    | .valid _ => issue .lightRate lightRateAnswer s

/-- Step 2 after its answer. -/
def lightChannelsAnswer (res : BusResult) (s : State) : Out :=
  match res with
  | .fail => raise .busError s
  | .done _ => decodeChannels s (issue .lightGain lightGainAnswer)

/-- Step 1 after its answer: a status that is not valid is `Retry`; otherwise `seq <- READY`. -/
def lightStatusAnswer (res : BusResult) (s : State) : Out :=
  match res with
  | .fail => raise .busError s
  | .done _ =>
    decodeStatus s fun s => withLatch s.lat.st fun st =>
    if statusValid st then issue .lightChannels lightChannelsAnswer (s.setSeq .ready) else raise .retry s

/-- `FetchLight` (R164), begun in `seq = NOTREADY`. -/
def fetchLight (s : State) : Out :=
  issue .lightStatus lightStatusAnswer s

end Sys2Proof.Machine
end

