-- ==== Sys2Proof/Machine/ThermoHygro.lean ====
section
/-! DEFINITION. Family 4, the thermo-hygro sensor: `GETRH`, `GETT` and the pipeline `FetchTHS` (spec
43_thermo_hygro.md). A failed read does not stop these: the conversion runs on drawn bytes and the outcome is
`BusError`. -/

namespace Sys2Proof.Machine

/-- R182 after the answer: the value is returned whether or not the read failed. -/
def getrhAnswer (res : BusResult) (s : State) : Out :=
  readCode res s fun ok s => withLatch s.lat.code fun code =>
  .next (s.complete { outcome := thsOutcome ok, payload := .value (rhPoly s.num code) })

/-- `GETRH` (R182). -/
def execGetrh (s : State) : Out :=
  accept .getrh .run (issue .getrh getrhAnswer) s

/-- R185 after the answer. -/
def gettAnswer (res : BusResult) (s : State) : Out :=
  readCode res s fun ok s => withLatch s.lat.code fun code =>
  .next (s.complete { outcome := thsOutcome ok, payload := .value (tPoly s.num code) })

/-- `GETT` (R185). -/
def execGett (s : State) : Out :=
  accept .gett .run (issue .gett gettAnswer) s

/-! ## `FetchTHS` (R188), last step first -/

/-- Step 2 after its answer, then step 3: both cells are written, whatever the answers were. -/
def thsTempAnswer (okH : Bool) (codeH : Half) (res : BusResult) (s : State) : Out :=
  readCode res s fun okT s => withLatch s.lat.code fun codeT =>
  .next (((s.writeCell .hum (rhPoly s.num codeH)).writeCell .temp (tPoly s.num codeT)).complete
    { outcome := thsOutcome (okH && okT), payload := .none })

/-- Step 1 after its answer: the second read is made whether or not the first failed. -/
def thsHumAnswer (res : BusResult) (s : State) : Out :=
  readCode res s fun okH s => withLatch s.lat.code fun codeH =>
  issue (.thsTemp okH codeH) (thsTempAnswer okH codeH) s

/-- `FetchTHS` (R188). -/
def fetchThs (s : State) : Out :=
  issue .thsHum thsHumAnswer s

end Sys2Proof.Machine
end

