-- ==== Sys2Proof/Machine/Facade.lean ====
section
/-! DEFINITION. Family 5, the facade: `FETCH` and `GET` (spec 44_facade.md). -/

namespace Sys2Proof.Machine

/-- The sequencer state a `FETCH` begins in: NOTREADY for a supported selector on ALS, RUN otherwise (R24). -/
def fetchSeq (k : Kind) (sel : Byte) : Seq :=
  match fetchPlan k sel with
  | .light => .notReady
  | .ths => .run
  | .unsupported => .run

/-- `FETCH sel` after acceptance (R202): the selector is tested before any request. -/
def fetchBody (sel : Byte) (s : State) : Out :=
  match fetchPlan s.kind sel with
  | .unsupported => raise .unsupported s
  | .light => fetchLight s
  | .ths => fetchThs s

/-- `FETCH sel` (R202). -/
def execFetch (sel : Byte) (s : State) : Out :=
  accept (.fetch sel) (fetchSeq s.kind sel) (fetchBody sel) s

/-- `GET sel` after acceptance (R205): selector first, then the written flag (R238), then the decomposition. -/
def getBody (sel : Byte) (s : State) : Out :=
  match getCell s.kind sel with
  | none => raise .unsupported s
  | some c =>
    match s.cell c with
    | none => .fault .uninitialisedRead
    | some v => reply (.pair (intPart32 s.num v) (micros32 s.num v)) s

/-- `GET sel` (R205). -/
def execGet (sel : Byte) (s : State) : Out :=
  accept (.get sel) .run (getBody sel) s

end Sys2Proof.Machine
end

