-- ==== Sys2Proof/Machine/RegisterBus.lean ====
section
/-! DEFINITION. Family 1, the register bus: `RDB`, `RDN`, `WRB` (spec 40_register_bus.md). Each makes one request
(R110), none touches the cache, and a failure is `BusError` (R114). The `…Answer` functions are what a command does
with its answer. -/

namespace Sys2Proof.Machine

/-- R111 after the answer: the byte received. -/
def rdbAnswer (res : BusResult) (s : State) : Out :=
  match res with
  | .fail => raise .busError s
  | .done _ => withLatch s.lat.raw0 fun b => reply (.byte b) s

/-- `RDB addr` (R111). -/
def execRdb (addr : Byte) (s : State) : Out :=
  accept (.rdb addr) .run (issue (.rdb addr) rdbAnswer) s

/-- R112 after the answer: the bytes in the order received, uncombined. -/
def rdnAnswer (res : BusResult) (s : State) : Out :=
  match res with
  | .fail => raise .busError s
  | .done bs => reply (.bytes bs) s

/-- `RDN addr, n` (R112). `n = 0` is illegal (R90). -/
def execRdn (addr n : Byte) (s : State) : Out :=
  accept (.rdn addr n) .run (issue (.rdn addr n) rdnAnswer) s

/-- R113 after the answer. -/
def wrbAnswer (res : BusResult) (s : State) : Out :=
  match res with
  | .fail => raise .busError s
  | .done _ => reply .none s

/-- `WRB addr, value` (R113). -/
def execWrb (addr value : Byte) (s : State) : Out :=
  accept (.wrb addr value) .run (issue (.wrb addr value) wrbAnswer) s

end Sys2Proof.Machine
end

