-- ==== Sys2Proof/Machine/Resume.lean ====
section
/-! DEFINITION. A suspended command goes on when its answer comes (spec 20_memory.md R55, 60_exceptions.md R244). -/

namespace Sys2Proof.Machine

/-- What the sequencer does with the answer to the request of a stage: the rest of the command's rule. -/
def Stage.onAnswer : Stage → BusResult → State → Out
  | .rdb _ => rdbAnswer
  | .rdn _ _ => rdnAnswer
  | .wrb _ _ => wrbAnswer
  | .chknd => chkndAnswer
  | .getit => getitAnswer
  | .getch => getchAnswer
  | .getgn => getgnAnswer
  | .getrh => getrhAnswer
  | .gett => gettAnswer
  | .lightStatus => lightStatusAnswer
  | .lightChannels => lightChannelsAnswer
  | .lightGain => lightGainAnswer
  | .lightRate => lightRateAnswer
  | .thsHum => thsHumAnswer
  | .thsTemp okH codeH => thsTempAnswer okH codeH

/-- The sequencer's part of a step in which no command is presented: a suspended command waits for its answer and goes
on with it; an idle block waits for a command (R261). A busy block without a request in flight, which no run reaches,
stays as it is (notes/assumptions/15.md). -/
def resume (s : State) : Out :=
  match s.busy, s.pending with
  | true, some st => settle st st.onAnswer s
  | true, none => .next s
  | false, _ => .next s

end Sys2Proof.Machine
end

