-- ==== Sys2Proof/Machine/Dispatch.lean ====
section
/-! DEFINITION. One arm per command: each calls its meaning. -/

namespace Sys2Proof.Machine

def exec (i : Instr) (s : State) : Host.Outcome State Fault Refusal :=
  match i with
  | .rdb addr => Sys2Proof.Machine.execRdb addr s
  | .rdn addr n => Sys2Proof.Machine.execRdn addr n s
  | .wrb addr value => Sys2Proof.Machine.execWrb addr value s
  | .chknd => Sys2Proof.Machine.execChknd s
  | .getit => Sys2Proof.Machine.execGetit s
  | .getch => Sys2Proof.Machine.execGetch s
  | .getgn => Sys2Proof.Machine.execGetgn s
  | .clux ch0 ch1 gain itime => Sys2Proof.Machine.execClux ch0 ch1 gain itime s
  | .getrh => Sys2Proof.Machine.execGetrh s
  | .gett => Sys2Proof.Machine.execGett s
  | .fetch sel => Sys2Proof.Machine.execFetch sel s
  | .get sel => Sys2Proof.Machine.execGet sel s

end Sys2Proof.Machine
end

