-- ==== Sys2Proof/Machine/Port.lean ====
section
/-! DEFINITION. The command port: a presented word is decoded and run, or answered `IllegalCommand` (spec 30_encoding.md
R93 and R97, 60_exceptions.md R235, R238). -/

namespace Sys2Proof.Machine

/-- A word on the command port. Decoding comes before acceptance (R238), so an illegal word is answered
`IllegalCommand` also while a command is in progress (notes/assumptions/16.md). -/
def present (w : CmdWord) (s : State) : Out :=
  match decode w with
  | .error _ => .next (s.answer { outcome := .illegalCommand, payload := .none })
  | .ok i => exec i s

/-- The host reads its response: the last command ended with the outcome `Ok`. -/
def State.endedOk (s : State) : Bool :=
  match s.response with
  | some r => r.outcome == .ok
  | none => false

/-- The word the host presents in the next step, if it presents one. A word in turn is presented once the block is idle,
and not at all if it was to follow an `Ok` that did not come (R96, R266). -/
def State.presented (s : State) : Option CmdWord :=
  match s.host with
  | [] => none
  | .command w :: _ => some w
  | .inTurn w ifOk :: _ => if s.busy || (ifOk && !s.endedOk) then none else some w
  | .reset :: _ => none
  | .idle :: _ => none

/-- One step, the host's next action being `a` and those after it `hs`. -/
def act (a : HostAct) (hs : List HostAct) (s : State) : Out :=
  match a with
  | .command w => present w { s with host := hs }
  | .inTurn w ifOk =>
    if s.busy then resume s
    else if ifOk && !s.endedOk then .next { s with host := hs }
    else present w { s with host := hs }
  | .reset => .next ({ s with host := hs } : State).applyReset
  | .idle => resume { s with host := hs }

/-- A block of the given kind: this one if it is, otherwise the other one of R200 with nothing in its cache. -/
def State.asKind (k : Kind) (s : State) : State :=
  if s.kind = k then s else { s with kind := k, lux := none, temp := none, hum := none }

/-- The block a word is meant for: the present one unless the word's opcode is valid on the other kind only (R89). -/
def kindFor (w : CmdWord) (k : Kind) : Kind :=
  match decode w with
  | .error _ => k
  | .ok i => if i.op.validOn k then k else if i.op.validOn .als then .als else .ths

/-- The host presents the word next, on the command port of a block its opcode is valid on. -/
def State.presentNext (w : CmdWord) (s : State) : State :=
  let t := s.asKind (kindFor w s.kind)
  { t with host := .command w :: t.host }

end Sys2Proof.Machine
end

