-- ==== Sys2Proof/Machine/Step.lean ====
section
/-! DEFINITION. One step: the host's next action is looked at, then the sequencer goes on (spec 10_state.md R20, the
fixed nesting of the agents). -/

namespace Sys2Proof.Machine

/-- One step. The host presents a word (R87), waits for its turn to (R266), asserts reset (R260) or does nothing. -/
def step (s : State) : Host.Outcome State Fault Refusal :=
  match s.host with
  | [] => resume s
  | a :: hs => act a hs s

/-- The given word presented on the command port, so that the next step runs it. The block fetches no instructions from
a memory (R23, R67): presenting the word stands for the fetch, and the block it is presented to is one its opcode is
valid on (notes/assumptions/6.md). -/
def State.withFetchWord (s : State) (nbits w : Nat) : State :=
  s.presentNext (tableWord nbits w)

end Sys2Proof.Machine
end

