-- ==== Sys2Proof/Machine/Init.lean ====
section
/-! DEFINITION. The startup sequence `INIT` of the light sensor, a pseudo-instruction of the host (spec 30_encoding.md
R96, 44_facade.md R214, 70_reset_and_hazards.md R263). The two delays around it are the host's and have no length: any
number of `idle` actions before and after (R246, R268; notes/assumptions/18.md). -/

namespace Sys2Proof.Machine

/-- The byte written to MEAS_RATE: 400 ms integration (R32). -/
def initMeasRate : Byte := 0x1B

/-- The byte written to CONTR: active mode (R31). -/
def initContr : Byte := 0x01

/-- The expansion of `INIT` (R96). -/
def initSequence : List Instr :=
  [.rdb regManufacId, .wrb regMeasRate initMeasRate, .wrb regContr initContr]

/-- Commands the host issues one after another, each after the response to the one before, stopping at the first that
does not end `Ok` (R96). The first follows whatever came before. -/
def whileOk : List Instr → List HostAct
  | [] => []
  | i :: is => .inTurn (encode i) false :: is.map (fun j => .inTurn (encode j) true)

/-- `INIT` on a block of the given kind: valid for `KIND = ALS` (R96, R214). What it is on a THS block the spec does not
say; the model gives it no meaning there, so that nothing is issued (notes/assumptions/18.md, DESIGN CHOICE). -/
def initActs (k : Kind) : Option (List HostAct) :=
  match k with
  | .als => some (whileOk initSequence)
  | .ths => none

/-- The host issues `INIT` next, if it is valid on the block. It has succeeded when its three words have been presented
and the last ended `Ok`; the byte read from MANUFAC_ID is compared with nothing (D25), and the block keeps no record that
it ran. -/
def State.withInit (s : State) : Option State :=
  (initActs s.kind).map fun acts => { s with host := acts ++ s.host }

end Sys2Proof.Machine
end

