-- ==== Sys2Proof/Machine/Assembler.lean ====
section
/-! DEFINITION. The text form of commands (spec 30_encoding.md R95, R96): one command a line, a mnemonic and its operands
separated by commas, `;` starts a comment, numbers decimal or `0x` hexadecimal, register and selector names for their
numbers. What R95 leaves open of the text is in notes/assumptions/17.md. -/

namespace Sys2Proof.Machine

/-- The register names of R63 and R95. -/
def registerNames : List (String × Byte) :=
  [("CONTR", regContr), ("MEAS_RATE", regMeasRate), ("PART_ID", regPartId), ("MANUFAC_ID", regManufacId),
   ("DATA_CH1_0", regDataCh1Lo), ("DATA_CH1_1", regDataCh1Hi), ("DATA_CH0_0", regDataCh0Lo),
   ("DATA_CH0_1", regDataCh0Hi), ("STATUS", regStatus), ("TEMP_MASTER", cmdTempMaster),
   ("HUMIDITY_MASTER", cmdHumidityMaster), ("TEMP_NO_MASTER", cmdTempNoMaster),
   ("HUMIDITY_NO_MASTER", cmdHumidityNoMaster)]

/-- The selector names of R91 and R95. -/
def selectorNames : List (String × Byte) :=
  [("Light", 0), ("AmbientTemperature", 1), ("Humidity", 2), ("All", 3)]

/-- The mnemonics of R82. -/
def mnemonicNames : List (String × Op) :=
  [("RDB", .rdb), ("RDN", .rdn), ("WRB", .wrb), ("CHKND", .chknd), ("GETIT", .getit), ("GETCH", .getch),
   ("GETGN", .getgn), ("CLUX", .clux), ("GETRH", .getrh), ("GETT", .gett), ("FETCH", .fetch), ("GET", .get)]

/-- Look a name up, letter for letter. -/
def lookupName {α : Type} (names : List (String × α)) (cs : List Char) : Option α :=
  (names.find? (fun p => p.1.toList == cs)).map (fun p => p.2)

/-- A space or a tab. -/
def isBlank (c : Char) : Bool := c == ' ' || c == '\t'

/-- Without the blanks at both ends. -/
def trimBlanks (cs : List Char) : List Char :=
  ((cs.dropWhile isBlank).reverse.dropWhile isBlank).reverse

/-- The value of a digit in the given base. -/
def digitValue (base : Nat) (c : Char) : Option Nat :=
  let v :=
    if '0' ≤ c ∧ c ≤ '9' then c.toNat - '0'.toNat
    else if 'a' ≤ c ∧ c ≤ 'f' then c.toNat - 'a'.toNat + 10
    else if 'A' ≤ c ∧ c ≤ 'F' then c.toNat - 'A'.toNat + 10
    else base
  if v < base then some v else none

/-- The value of a sequence of digits, after those already read. -/
def digitsValue (base acc : Nat) : List Char → Option Nat
  | [] => some acc
  | c :: cs =>
    match digitValue base c with
    | some d => digitsValue base (acc * base + d) cs
    | none => none

/-- A number, decimal or `0x` hexadecimal (R95). -/
def numberValue : List Char → Option Nat
  | [] => none
  | '0' :: 'x' :: c :: cs => digitsValue 16 0 (c :: cs)
  | c :: cs => digitsValue 10 0 (c :: cs)

/-- A number that fits the operand's width. -/
def numberOperand (width : Nat) (cs : List Char) : Option (BitVec width) :=
  match numberValue cs with
  | some n => if n < 2 ^ width then some (BitVec.ofNat width n) else none
  | none => none

/-- An `addr` operand: a register name or a number (R95). -/
def addrOperand (cs : List Char) : Option Byte :=
  match lookupName registerNames cs with
  | some a => some a
  | none => numberOperand 8 cs

/-- A `sel` operand: a selector name or a number (R95). -/
def selOperand (cs : List Char) : Option Byte :=
  match lookupName selectorNames cs with
  | some a => some a
  | none => numberOperand 8 cs

/-- The operands of each mnemonic, in the order of R95. -/
def commandOf (o : Op) (ops : List (List Char)) : Option Instr :=
  match o, ops with
  | .rdb, [a] => (addrOperand a).map Instr.rdb
  | .rdn, [a, n] =>
    match addrOperand a, numberOperand 8 n with
    | some a, some n => some (.rdn a n)
    | _, _ => none
  | .wrb, [a, v] =>
    match addrOperand a, numberOperand 8 v with
    | some a, some v => some (.wrb a v)
    | _, _ => none
  | .chknd, [] => some .chknd
  | .getit, [] => some .getit
  | .getch, [] => some .getch
  | .getgn, [] => some .getgn
  | .clux, [a, b, g, t] =>
    match numberOperand 16 a, numberOperand 16 b, numberOperand 8 g, numberOperand 16 t with
    | some a, some b, some g, some t => some (.clux a b g t)
    | _, _, _, _ => none
  | .getrh, [] => some .getrh
  | .gett, [] => some .gett
  | .fetch, [sel] => (selOperand sel).map Instr.fetch
  | .get, [sel] => (selOperand sel).map Instr.get
  | _, _ => none

/-- What the host does for one line without its comment, on a block of the given kind: nothing for an empty line, the
expansion of `INIT` where it is valid (R96), otherwise the line's one command, in its turn. -/
def actsOfText (k : Kind) (cs : List Char) : Option (List HostAct) :=
  match cs with
  | [] => some []
  | _ =>
    let mnemonic := cs.takeWhile (fun c => !isBlank c)
    let rest := trimBlanks (cs.dropWhile (fun c => !isBlank c))
    let ops := if rest = [] then [] else (rest.splitOn ',').map trimBlanks
    if mnemonic = "INIT".toList then
      if ops = [] then initActs k else none
    else
      match lookupName mnemonicNames mnemonic with
      | some o => (commandOf o ops).map (fun i => [.inTurn (encode i) false])
      | none => none

/-- What the host does for one line (R95). -/
def assembleLine (k : Kind) (cs : List Char) : Option (List HostAct) :=
  actsOfText k (trimBlanks (cs.takeWhile (fun c => c != ';')))

/-- What the host does for a list of lines. -/
def assembleLines (k : Kind) : List (List Char) → Option (List HostAct)
  | [] => some []
  | l :: ls =>
    match assembleLine k l, assembleLines k ls with
    | some as, some bs => some (as ++ bs)
    | _, _ => none

/-- The host's actions for a text (R95, R87): its command words, each in its turn. -/
def assemble (k : Kind) (text : List Char) : Option (List HostAct) :=
  assembleLines k (text.splitOn '\n')

end Sys2Proof.Machine
end

