-- ==== Sys2Proof/Safety.lean ====
section
/-! DEFINITION. The invariant of the block: what every state a run reaches satisfies, in terms the claims use. Each part
names the rules of the spec it renders. -/

namespace Sys2Proof.Machine

open Sys2Proof.Config (Q)

/-- A cell holds no value, or one in the given range. -/
def inRange (lo hi : Q) : Option Q → Prop
  | none => True
  | some v => lo ≤ v ∧ v ≤ hi

/-- The ranges reachable through `FETCH` with exact numerics (R210, R161, R183, R186). -/
def State.CellsInRange (s : State) : Prop :=
  s.num = .exact →
  inRange 0 (877880013 / 2500) s.lux ∧
  inRange (-937 / 20) (42227243 / 327680) s.temp ∧
  inRange (-6) (7798659 / 65536) s.hum

/-- A cell holds no value, or one whose integer part is in the given range. -/
def truncInRange (lo hi : Int) : Option Q → Prop
  | none => True
  | some v => lo ≤ truncQ v ∧ truncQ v ≤ hi

/-- The integer parts reachable through `FETCH`: under every `NUM` of magnitude at most 351152, so that they fit `i32`
(R139 (f)), and under the three formats the spec names in the ranges of R210. -/
def State.IntPartsInRange (s : State) : Prop :=
  (truncInRange (-351152) 351152 s.lux ∧ truncInRange (-351152) 351152 s.temp ∧ truncInRange (-351152) 351152 s.hum) ∧
  (s.num.named = true →
    truncInRange 0 351152 s.lux ∧ truncInRange (-46) 128 s.temp ∧ truncInRange (-6) 118 s.hum)

/-- An ALS block has the cell `cache.lux` only, a THS block the other two only (R27): the others never hold a value. -/
def State.CellsOfKind (s : State) : Prop :=
  (s.kind = .als → s.temp = none ∧ s.hum = none) ∧ (s.kind = .ths → s.lux = none)

/-- The shapes of a request (R51, R52): always to `DEV`; one byte written and 1 to MAXN read, or two bytes written and
none read. -/
def Request.Shape (k : Kind) (r : Request) : Prop :=
  r.dev = Sys2Proof.Machine.dev k ∧ ((r.w.length = 1 ∧ 1 ≤ r.r ∧ r.r ≤ Config.maxN) ∨ (r.w.length = 2 ∧ r.r = 0))

/-- What holds while the sequencer is suspended at a stage: the sequencer state (R24), the kind (R89, R164, R188) and
the latches the rest of the command reads (R21, R22, R164). -/
def State.SuspendedAt (s : State) : Stage → Prop
  | .rdb _ => s.seq = .run
  | .rdn _ n => s.seq = .run ∧ 1 ≤ n.toNat
  | .wrb _ _ => s.seq = .run
  | .chknd => s.seq = .run ∧ s.kind = .als
  | .getit => s.seq = .run ∧ s.kind = .als
  | .getch => s.seq = .run ∧ s.kind = .als
  | .getgn => s.seq = .run ∧ s.kind = .als
  | .getrh => s.seq = .run ∧ s.kind = .ths
  | .gett => s.seq = .run ∧ s.kind = .ths
  | .lightStatus => s.seq = .notReady ∧ s.kind = .als
  | .lightChannels => s.seq = .ready ∧ s.kind = .als
  | .lightGain => s.seq = .ready ∧ s.kind = .als ∧ s.lat.ch0.isSome ∧ s.lat.ch1.isSome
  | .lightRate =>
    s.seq = .ready ∧ s.kind = .als ∧ s.lat.ch0.isSome ∧ s.lat.ch1.isSome ∧
      ∃ (c : Code3) (m : Byte), gainTable c = .valid m ∧ s.lat.g = some (.valid m)
  | .thsHum => s.seq = .run ∧ s.kind = .ths
  | .thsTemp _ _ => s.seq = .run ∧ s.kind = .ths

/-- The invariant of the block. -/
structure State.Inv (s : State) : Prop where
  /-- `busy = (seq != IDLE)` (R25) -/
  busySeq : s.busy = (s.seq != .idle)
  /-- between commands no latch holds a value and no request is in flight (R22, R55) -/
  quiet : s.busy = false → s.lat = Latches.empty ∧ s.pending = none
  /-- a command in progress between two steps is suspended at its last request and has given no response (R55, R25) -/
  suspended : s.busy = true →
    ∃ st, s.pending = some st ∧ s.SuspendedAt st ∧ s.bus.getLast? = some (st.request s.kind)
  cellsOfKind : s.CellsOfKind
  cellsInRange : s.CellsInRange
  intPartsInRange : s.IntPartsInRange
  /-- every request ever made has one of the two shapes and goes to `DEV` (R51, R52) -/
  requests : ∀ r ∈ s.bus, r.Shape s.kind

/-- The state after a command that ended: its requests are on the bus, the transport's answers to them are used up, the
response is given, the block is idle (R239, R25) and everything else is as it was. -/
def State.ended (reqs : List Request) (ts : List TransportAct) (o : OutcomeName) (p : Payload) (s : State) : State :=
  { s with
    seq := .idle
    busy := false
    lat := Latches.empty
    pending := none
    response := some { outcome := o, payload := p }
    bus := s.bus ++ reqs
    transport := ts }

/-- The first request a command makes, if it makes one (R82, R165, R189). -/
def firstStage (k : Kind) : Instr → Option Stage
  | .rdb addr => some (.rdb addr)
  | .rdn addr n => some (.rdn addr n)
  | .wrb addr value => some (.wrb addr value)
  | .chknd => some .chknd
  | .getit => some .getit
  | .getch => some .getch
  | .getgn => some .getgn
  | .clux _ _ _ _ => none
  | .getrh => some .getrh
  | .gett => some .gett
  | .fetch sel =>
    match fetchPlan k sel with
    | .light => some .lightStatus
    | .ths => some .thsHum
    | .unsupported => none
  | .get _ => none

/-- The sequencer state a command begins in (R24). -/
def firstSeq (k : Kind) : Instr → Seq
  | .fetch sel => fetchSeq k sel
  | .rdb _ | .rdn _ _ | .wrb _ _ | .chknd | .getit | .getch | .getgn | .clux _ _ _ _ | .getrh | .gett | .get _ => .run

/-- The outcomes a command the block accepts can end with (R230, R202). -/
def outcomesOf (k : Kind) : Instr → List OutcomeName
  | .rdb _ | .rdn _ _ | .wrb _ _ | .chknd | .getit | .getch | .getrh | .gett => [.ok, .busError]
  | .getgn => [.ok, .busError, .reservedConfiguration]
  | .clux _ _ _ _ => [.ok]
  | .fetch _ =>
    match k with
    | .als => [.ok, .retry, .unsupported, .busError, .reservedConfiguration]
    | .ths => [.ok, .unsupported, .busError]
  | .get _ => [.ok, .unsupported]

/-- The stages of the two fetch pipelines (R164, R188). -/
def Stage.ofFetch : Stage → Bool
  | .lightStatus | .lightChannels | .lightGain | .lightRate | .thsHum | .thsTemp _ _ => true
  | .rdb _ | .rdn _ _ | .wrb _ _ | .chknd | .getit | .getch | .getgn | .getrh | .gett => false

/-- `n` steps of the sequencer while the host presents nothing, from the outcome of a step. -/
def waitSteps : Nat → Out → Out
  | 0, o => o
  | n + 1, .next s => waitSteps n (resume s)
  | _ + 1, .fault f => .fault f
  | _ + 1, .refused r => .refused r

/-- The state with every "not answered yet" of the transport left out: the same answers, on time. -/
def State.prompt (s : State) : State :=
  { s with transport := s.transport.filter (fun a => a != .notYet) }

/-- A run from reset of a block of kind `k` and numerics `num`, for `n` steps, whatever the host and the transport do. -/
def runFrom (k : Kind) (num : Numeric) (host : List HostAct) (transport : List TransportAct) (n : Nat) : Out :=
  Sys2Proof.core.run n { State.resetOf k num with host := host, transport := transport }

end Sys2Proof.Machine
end

