-- ==== Sys2Proof/Certificates/Slice0/Obligations.lean ====
section
/-! DEFINITION. The statements about the model, from the numbered rules of the spec. A state is "idle" when `busy` is
false. Statements about a free value (`Config.draw`, `Config.otherArithmetic`) hold for every value of it, and those that
fix no `num` hold under every `NUM`. -/

open Sys2Proof Sys2Proof.Machine

/-! ## Encoding -/

/-- R88, R90, R97: no bit of an operand is lost or moved. -/
def Obligations.DecodeInvertsEncode : Prop :=
  ∀ i : Instr, decode (encode i) = .ok i

/-- R87, R88, R93: each accepted word has one meaning, so it is the word of its command. -/
def Obligations.EncodeInvertsDecode : Prop :=
  ∀ (w : CmdWord) (i : Instr), decode w = .ok i → encode i = w

/-- Command words written out in 95_test_vectors.md and 30_encoding.md (R88, R89), one or two of each family. -/
def Obligations.WordsOfTheSpecDecode : Prop :=
  decode 0x010000000000008C = .ok (.rdb 0x8C) ∧
  decode 0x0200000000000488 = .ok (.rdn 0x88 4) ∧
  decode 0x0300000000001B85 = .ok (.wrb 0x85 0x1B) ∧
  decode 0x1000000000000000 = .ok .chknd ∧
  decode 0x14019002001E0064 = .ok (.clux 100 30 2 400) ∧
  decode 0x2100000000000000 = .ok .gett ∧
  decode 0x3000000000000003 = .ok (.fetch 3) ∧
  decode 0x3100000000000001 = .ok (.get 1)

/-- R89: opcode, format and the kinds each row is valid on. -/
def Obligations.OpcodeMapIsTheTable : Prop :=
  Op.all.map (fun o => (o.code, o.format, o.validOn .als, o.validOn .ths)) =
    [(0x01, .a, true, true), (0x02, .an, true, true), (0x03, .av, true, true),
     (0x10, .n, true, false), (0x11, .n, true, false), (0x12, .n, true, false), (0x13, .n, true, false),
     (0x14, .l, true, false), (0x20, .n, false, true), (0x21, .n, false, true),
     (0x30, .s, true, true), (0x31, .s, true, true)] ∧
  ∀ c : BitVec 8, c ∉ [0x01, 0x02, 0x03, 0x10, 0x11, 0x12, 0x13, 0x14, 0x20, 0x21, 0x30, 0x31] → Op.ofCode c = none

/-! ## The command port -/

/-- A step at which a word is presented runs the command the word decodes to; one at which the host does nothing
lets the sequencer go on with the command in progress, if there is one (R20, R55). A word in turn is presented once the
block is idle, unless it was to follow an `Ok` that did not come (R96, R266). A word given by `withFetchWord` is
presented in the next step, to a block its opcode is valid on. Which block that is, how the host waits for its turn, and
the order of the host's action and the sequencer's in a step, are the model's choice (notes/assumptions/6.md). -/
def Obligations.StepRunsThePresentedCommand : Prop :=
  (∀ (s : State) (w : CmdWord) (hs : List HostAct) (i : Instr),
    (s.host = .command w :: hs ∨
      ∃ ifOk, s.host = .inTurn w ifOk :: hs ∧ s.busy = false ∧ (ifOk = true → s.endedOk = true)) →
    decode w = .ok i → step s = exec i { s with host := hs }) ∧
  (∀ (s : State) (w : CmdWord) (ifOk : Bool) (hs : List HostAct), s.host = .inTurn w ifOk :: hs →
    (s.busy = true → step s = resume s) ∧
    (s.busy = false → ifOk = true → s.endedOk = false → step s = .next { s with host := hs })) ∧
  (∀ s : State, s.host = [] ∨ s.host.head? = some .idle → step s = resume { s with host := s.host.tail }) ∧
  ∀ (s : State) (w : CmdWord) (i : Instr), decode w = .ok i →
    (i.op.validOn s.kind = true → step (s.withFetchWord 64 w.toNat) = exec i s) ∧
    ∃ k, i.op.validOn k = true ∧ step (s.withFetchWord 64 w.toNat) = exec i (s.asKind k)

/-- R93: the four tests, in their order; a word that fails one is answered `IllegalCommand` with no request and no
state change, busy or not. That it is answered also while a command is in progress is DEDUCED from the order of R238
(notes/assumptions/16.md, unsafe for a host that breaks R266). -/
def Obligations.IllegalWordIsAnswered : Prop :=
  ∀ (s : State) (w : CmdWord), s.presented = some w →
    (decodeFor s.kind w =
      match Op.ofCode (w.extractLsb' 56 8) with
      | none => .error .unknownOpcode
      | some o =>
        if w &&& o.format.zeroBits ≠ 0 then .error .mustBeZero
        else if o.validOn s.kind = false then .error .wrongKind
        else if (o.assemble w).wellFormed = false then .error .badOperand
        else .ok (o.assemble w)) ∧
    ∀ e, decodeFor s.kind w = .error e →
      step s = .next
        { s with host := s.host.tail, response := some { outcome := .illegalCommand, payload := .none } }

/-- R90, R93 (3), (4): a command the kind does not have, or with `n = 0`, `gain = 0` or `itime = 0`, is answered
`IllegalCommand` and changes nothing else, busy or not. That it is so while busy is DEDUCED
(notes/assumptions/16.md). -/
def Obligations.IllegalCommandChangesNothing : Prop :=
  ∀ (i : Instr) (s : State),
    (match i with
      | .rdn _ n => n = 0
      | .chknd | .getit | .getch | .getgn => s.kind = .ths
      | .clux _ _ gain itime => s.kind = .ths ∨ gain = 0 ∨ itime = 0
      | .getrh | .gett => s.kind = .als
      | .rdb _ | .wrb _ _ | .fetch _ | .get _ => False) →
    exec i s = .next { s with response := some { outcome := .illegalCommand, payload := .none } }

/-- R243: a legal command presented while the block is busy is refused. -/
def Obligations.BusyBlockRefusesACommand : Prop :=
  ∀ (i : Instr) (s : State), i.legalOn s.kind = true → s.busy = true →
    exec i s = .refused .concurrentCommand

/-- R230: an accepted command either waits for the transport, with no response, or has ended with one response whose
outcome is one that R230 lists for it. -/
def Obligations.CommandEndsWithAListedOutcome : Prop :=
  ∀ (i : Instr) (s t : State), i.legalOn s.kind = true → s.busy = false → exec i s = .next t →
    (t.busy = true ∧ t.response = none ∧ t.pending.isSome) ∨
    (t.busy = false ∧ t.seq = .idle ∧ t.lat = Latches.empty ∧ t.pending = none ∧
      ∃ r, t.response = some r ∧ r.outcome ∈ outcomesOf s.kind i)

/-- A legal command on an idle block always has a next state, except `GET` of a cell without a value (R242). -/
def Obligations.LegalCommandOnIdleBlockRuns : Prop :=
  ∀ (i : Instr) (s : State), i.legalOn s.kind = true → s.busy = false →
    (∀ sel c, i = .get sel → getCell s.kind sel = some c → s.written c = true) →
    ∃ t, exec i s = .next t

/-- R55, R25, R24: while the transport has not answered the first request, the command is suspended at it. That a
step goes as far as the answers do is the model's choice (notes/assumptions/9.md). -/
def Obligations.UnansweredCommandIsSuspended : Prop :=
  ∀ (i : Instr) (s : State) (st : Stage), i.legalOn s.kind = true → s.busy = false →
    firstStage s.kind i = some st →
    (s.transport = [] → exec i s = .next { s with
      seq := firstSeq s.kind i, busy := true, lat := Latches.empty, pending := some st, response := none
      bus := s.bus ++ [st.request s.kind] }) ∧
    (∀ ts, s.transport = .notYet :: ts → exec i s = .next { s with
      seq := firstSeq s.kind i, busy := true, lat := Latches.empty, pending := some st, response := none
      bus := s.bus ++ [st.request s.kind], transport := ts })

/-- R52, D30: an answer with another number of bytes than asked for is a failed transfer. For too many bytes this is
the model's choice (notes/assumptions/4.md). -/
def Obligations.WrongLengthAnswerIsAFailure : Prop :=
  ∀ (i : Instr) (s : State) (st : Stage) (bs : List Byte) (ts : List TransportAct),
    i.legalOn s.kind = true → s.busy = false → firstStage s.kind i = some st →
    bs.length ≠ (st.request s.kind).r →
    exec i { s with transport := .done bs :: ts } = exec i { s with transport := .fail :: ts }

/-! ## Register bus -/

/-- R111: its word, and one byte read. -/
def Obligations.RdbReadsOneByte : Prop :=
  (∀ addr : Byte, decode (0x0100000000000000 ||| addr.setWidth 64) = .ok (.rdb addr)) ∧
  ∀ (s : State) (addr : Byte) (ts : List TransportAct), s.busy = false →
    (∀ b, s.transport = .done [b] :: ts →
      exec (.rdb addr) s =
        .next (s.ended [{ dev := dev s.kind, w := [addr], r := 1 }] ts .ok (.byte b))) ∧
    (s.transport = .fail :: ts →
      exec (.rdb addr) s =
        .next (s.ended [{ dev := dev s.kind, w := [addr], r := 1 }] ts .busError .none))

/-- R112: its word, the bytes in the order received, and `n = 0`, which is illegal. That the word with `n = 0` decodes to
a term `exec` answers, is the model's split of the four tests of R93 (notes/assumptions/8.md); that it is answered also
while a command is in progress is DEDUCED (notes/assumptions/16.md). -/
def Obligations.RdnReadsNBytes : Prop :=
  (∀ addr n : Byte, decode (0x0200000000000000 ||| n.setWidth 64 <<< 8 ||| addr.setWidth 64) = .ok (.rdn addr n)) ∧
  (∀ (s : State) (addr : Byte),
    exec (.rdn addr 0) s = .next { s with response := some { outcome := .illegalCommand, payload := .none } }) ∧
  ∀ (s : State) (addr n : Byte) (ts : List TransportAct), s.busy = false → 1 ≤ n.toNat →
    (∀ bs : List Byte, bs.length = n.toNat → s.transport = .done bs :: ts →
      exec (.rdn addr n) s =
        .next (s.ended [{ dev := dev s.kind, w := [addr], r := n.toNat }] ts .ok (.bytes bs))) ∧
    (s.transport = .fail :: ts →
      exec (.rdn addr n) s =
        .next (s.ended [{ dev := dev s.kind, w := [addr], r := n.toNat }] ts .busError .none))

/-- R113: its word, and one byte written. -/
def Obligations.WrbWritesOneByte : Prop :=
  (∀ addr value : Byte,
    decode (0x0300000000000000 ||| value.setWidth 64 <<< 8 ||| addr.setWidth 64) = .ok (.wrb addr value)) ∧
  ∀ (s : State) (addr value : Byte) (ts : List TransportAct), s.busy = false →
    (s.transport = .done [] :: ts →
      exec (.wrb addr value) s =
        .next (s.ended [{ dev := dev s.kind, w := [addr, value], r := 0 }] ts .ok .none)) ∧
    (s.transport = .fail :: ts →
      exec (.wrb addr value) s =
        .next (s.ended [{ dev := dev s.kind, w := [addr, value], r := 0 }] ts .busError .none))

/-! ## Bit fields, combiners, tables -/

/-- R132, R133, R134: the fields as arithmetic on the byte, and the 64 valid status bytes. -/
def Obligations.BitFieldsAsArithmetic : Prop :=
  (∀ b : Byte, (gaincode b).toNat = b.toNat / 4 % 8 ∧ (intcode b).toNat = b.toNat / 8 % 8 ∧
    statusValid b = decide (b &&& 0x84 = 0x04)) ∧
  ((List.range 256).filter (fun n => statusValid (BitVec.ofNat 8 n))).length = 64

/-- R136, R137. -/
def Obligations.LookupTables : Prop :=
  (List.range 8).map (fun c => gainTable (BitVec.ofNat 3 c)) =
    [.valid 1, .valid 2, .valid 4, .valid 8, .reserved, .reserved, .valid 48, .valid 96] ∧
  (List.range 8).map (fun c => (itimeTable (BitVec.ofNat 3 c)).toNat) = [100, 50, 200, 400, 150, 250, 300, 350]

/-- R135, R138: the two byte orders. -/
def Obligations.CombinersAsArithmetic : Prop :=
  ∀ a b : Byte, (comb16le a b).toNat = a.toNat + 256 * b.toNat ∧ (comb16be a b).toNat = 256 * a.toNat + b.toNat

/-! ## Light sensor -/

/-- R152. -/
def Obligations.ChkndReportsReadiness : Prop :=
  decode 0x1000000000000000 = .ok .chknd ∧
  ∀ (s : State) (ts : List TransportAct), s.kind = .als → s.busy = false →
    (∀ b : Byte, s.transport = .done [b] :: ts →
      exec .chknd s = .next (s.ended [{ dev := 0x29, w := [0x8C], r := 1 }] ts .ok
        (.ready (decide (b.toNat / 4 % 2 = 1 ∧ b.toNat < 128))))) ∧
    (s.transport = .fail :: ts →
      exec .chknd s = .next (s.ended [{ dev := 0x29, w := [0x8C], r := 1 }] ts .busError .none))

/-- R154. -/
def Obligations.GetitReturnsTheTableEntry : Prop :=
  decode 0x1100000000000000 = .ok .getit ∧
  ∀ (s : State) (ts : List TransportAct), s.kind = .als → s.busy = false →
    (∀ b : Byte, s.transport = .done [b] :: ts →
      exec .getit s = .next (s.ended [{ dev := 0x29, w := [0x85], r := 1 }] ts .ok
        (.ms (BitVec.ofNat 16 ([100, 50, 200, 400, 150, 250, 300, 350].getD (b.toNat / 8 % 8) 0))))) ∧
    (s.transport = .fail :: ts →
      exec .getit s = .next (s.ended [{ dev := 0x29, w := [0x85], r := 1 }] ts .busError .none))

/-- R156: the first pair of bytes is `ch0`, the lower address the low byte. -/
def Obligations.GetchReturnsTwoLittleEndianPairs : Prop :=
  decode 0x1200000000000000 = .ok .getch ∧
  ∀ (s : State) (ts : List TransportAct), s.kind = .als → s.busy = false →
    (∀ b0 b1 b2 b3 : Byte, s.transport = .done [b0, b1, b2, b3] :: ts →
      exec .getch s = .next (s.ended [{ dev := 0x29, w := [0x88], r := 4 }] ts .ok
        (.channels (BitVec.ofNat 16 (b0.toNat + 256 * b1.toNat)) (BitVec.ofNat 16 (b2.toNat + 256 * b3.toNat))))) ∧
    (s.transport = .fail :: ts →
      exec .getch s = .next (s.ended [{ dev := 0x29, w := [0x88], r := 4 }] ts .busError .none))

/-- R158: codes 4 and 5 are `ReservedConfiguration` with no number. -/
def Obligations.GetgnReturnsTheGainOrReserved : Prop :=
  decode 0x1300000000000000 = .ok .getgn ∧
  ∀ (s : State) (ts : List TransportAct), s.kind = .als → s.busy = false →
    (∀ b : Byte, s.transport = .done [b] :: ts →
      exec .getgn s = .next
        (if b.toNat / 4 % 8 = 4 ∨ b.toNat / 4 % 8 = 5 then
          s.ended [{ dev := 0x29, w := [0x80], r := 1 }] ts .reservedConfiguration .none
        else
          s.ended [{ dev := 0x29, w := [0x80], r := 1 }] ts .ok
            (.gain (BitVec.ofNat 8 ([1, 2, 4, 8, 0, 0, 48, 96].getD (b.toNat / 4 % 8) 0))))) ∧
    (s.transport = .fail :: ts →
      exec .getgn s = .next (s.ended [{ dev := 0x29, w := [0x80], r := 1 }] ts .busError .none))

/-- R160: no request, and the lux of the formula under the block's `NUM`, whichever that is; with exact arithmetic, the
four bands by integer tests, and the zero sum. The operands are converted exactly under every `NUM` (R10, R139 (d)). -/
def Obligations.CluxComputesTheFourBands : Prop :=
  (∀ (n : Numeric) (k : Nat), (numerics n).ofNat k = (k : Rat)) ∧
  ∀ (s : State) (ch0 ch1 : Half) (gain : Byte) (itime : Half),
    s.kind = .als → s.busy = false → gain ≠ 0 → itime ≠ 0 →
    exec (.clux ch0 ch1 gain itime) s =
      .next (s.ended [] s.transport .ok (.lux (luxWith (numerics s.num) ch0 ch1 gain itime))) ∧
    (s.num = .exact →
      exec (.clux ch0 ch1 gain itime) s = .next (s.ended [] s.transport .ok (.lux
        (let a : Nat := ch0.toNat
         let b : Nat := ch1.toNat
         let denom : Rat := gain.toNat * (itime.toNat / 100)
         if a + b = 0 then 0
         else if 100 * b < 45 * (a + b) then (17743 / 10000 * a + 11059 / 10000 * b) / denom
         else if 100 * b < 64 * (a + b) then (42785 / 10000 * a - 19548 / 10000 * b) / denom
         else if 100 * b < 85 * (a + b) then (5926 / 10000 * a + 1185 / 10000 * b) / denom
         else 0))))

/-- R161: with exact, binary32 or binary64 numerics lux is never negative, for every operand tuple; with exact numerics and
the gains and times of the tables it is at most 877880013/2500, which is reached. R139 (f): under every `NUM`, with the
gains and times of the tables, its integer part is at most 351152 in magnitude. For numerics other than the three named
ones that is DEDUCED, a limit the model holds every record to (notes/assumptions/21.md). -/
def Obligations.LuxRange : Prop :=
  (∀ (n : Numeric) (ch0 ch1 : Half) (gain : Byte) (itime : Half), n.named = true → 0 ≤ lux n ch0 ch1 gain itime) ∧
  (∀ (n : Numeric) (ch0 ch1 : Half) (c d : Code3) (m : Byte), gainTable c = .valid m →
    (truncQ (lux n ch0 ch1 m (itimeTable d))).natAbs ≤ 351152) ∧
  (∀ (ch0 ch1 : Half) (c d : Code3) (m : Byte), gainTable c = .valid m →
    lux .exact ch0 ch1 m (itimeTable d) ≤ 877880013 / 2500) ∧
  lux .exact 65535 53619 1 50 = 877880013 / 2500

/-- R162: exact, binary32 and binary64 numerics choose the same band for every pair of channels. That a tie rounds to
even is PRESUMED (notes/assumptions/20.md). -/
def Obligations.BandDoesNotDependOnNum : Prop :=
  ∀ (ch0 ch1 : Half), channelSum ch0 ch1 ≠ 0 →
    bandWith (numerics .binary32) ch0 ch1 = bandWith (numerics .exact) ch0 ch1 ∧
    bandWith (numerics .binary64) ch0 ch1 = bandWith (numerics .exact) ch0 ch1

/-- R203, R165: what ends `FETCH` on an ALS block with the selector `Light` or `All`, the first condition in request
order, with the requests made; `cache.lux` is written in the last case only. -/
def Obligations.FetchLightEndsByTheFirstCondition : Prop :=
  ∀ (s : State) (sel : Byte) (ts : List TransportAct) (st b0 b1 b2 b3 c d : Byte),
    s.kind = .als → s.busy = false → sel = 0 ∨ sel = 3 →
    let q1 : Request := { dev := 0x29, w := [0x8C], r := 1 }
    let q2 : Request := { dev := 0x29, w := [0x88], r := 4 }
    let q3 : Request := { dev := 0x29, w := [0x80], r := 1 }
    let q4 : Request := { dev := 0x29, w := [0x85], r := 1 }
    let a1 : TransportAct := .done [st]
    let a2 : TransportAct := .done [b0, b1, b2, b3]
    let a3 : TransportAct := .done [c]
    let valid := st.toNat / 4 % 2 = 1 ∧ st.toNat < 128
    let code := c.toNat / 4 % 8
    (s.transport = .fail :: ts → exec (.fetch sel) s = .next (s.ended [q1] ts .busError .none)) ∧
    (¬valid → s.transport = a1 :: ts → exec (.fetch sel) s = .next (s.ended [q1] ts .retry .none)) ∧
    (valid → s.transport = a1 :: .fail :: ts →
      exec (.fetch sel) s = .next (s.ended [q1, q2] ts .busError .none)) ∧
    (valid → s.transport = a1 :: a2 :: .fail :: ts →
      exec (.fetch sel) s = .next (s.ended [q1, q2, q3] ts .busError .none)) ∧
    (valid → code = 4 ∨ code = 5 → s.transport = a1 :: a2 :: a3 :: ts →
      exec (.fetch sel) s = .next (s.ended [q1, q2, q3] ts .reservedConfiguration .none)) ∧
    (valid → ¬(code = 4 ∨ code = 5) → s.transport = a1 :: a2 :: a3 :: .fail :: ts →
      exec (.fetch sel) s = .next (s.ended [q1, q2, q3, q4] ts .busError .none)) ∧
    (valid → ¬(code = 4 ∨ code = 5) → s.transport = a1 :: a2 :: a3 :: .done [d] :: ts →
      exec (.fetch sel) s = .next { s.ended [q1, q2, q3, q4] ts .ok .none with
        lux := some (lux s.num (BitVec.ofNat 16 (b0.toNat + 256 * b1.toNat))
          (BitVec.ofNat 16 (b2.toNat + 256 * b3.toNat)) (BitVec.ofNat 8 ([1, 2, 4, 8, 0, 0, 48, 96].getD code 0))
          (BitVec.ofNat 16 ([100, 50, 200, 400, 150, 250, 300, 350].getD (d.toNat / 8 % 8) 0))) })

/-- R134: bits of the status byte other than 2 and 7 make no difference to `CHKND` or to `FETCH`. -/
def Obligations.OtherStatusBitsAreIgnored : Prop :=
  ∀ (s : State) (i : Instr) (a b : Byte) (ts : List TransportAct),
    s.kind = .als → s.busy = false → i = .chknd ∨ i = .fetch 0 ∨ i = .fetch 3 → a &&& 0x84 = b &&& 0x84 →
    exec i { s with transport := .done [a] :: ts } = exec i { s with transport := .done [b] :: ts } ∨
    ∃ t u, exec i { s with transport := .done [a] :: ts } = .next t ∧
      exec i { s with transport := .done [b] :: ts } = .next u ∧ t.busy = true ∧
      u = { t with lat := { t.lat with raw0 := u.lat.raw0, st := u.lat.st } }

/-! ## Thermo-hygro sensor -/

/-- R183: the formula in exact arithmetic, that it is strictly increasing, its range, where it is negative and where it
exceeds 100, and the order of operations for another `NUM`. -/
def Obligations.HumidityFormula : Prop :=
  (∀ c : Half, rhPoly .exact c = (125 * c.toNat - 393216) / 65536) ∧
  (∀ c d : Half, c.toNat < d.toNat → rhPoly .exact c < rhPoly .exact d) ∧
  rhPoly .exact 0 = -6 ∧ rhPoly .exact 65535 = 7798659 / 65536 ∧
  (∀ c : Half, rhPoly .exact c < 0 ↔ c.toNat ≤ 3145) ∧ (∀ c : Half, 100 < rhPoly .exact c ↔ 55575 ≤ c.toNat) ∧
  ∀ (α : Type) (N : Config.Numerics α) (c : Half),
    rhPolyWith N c = N.sub (N.div (N.mul (N.ofNat 125) (N.ofNat c.toNat)) (N.ofNat 65536)) (N.ofNat 6)

/-- R186, likewise. -/
def Obligations.TemperatureFormula : Prop :=
  (∀ c : Half, tPoly .exact c = (4393 * c.toNat - 76759040) / 1638400) ∧
  (∀ c d : Half, c.toNat < d.toNat → tPoly .exact c < tPoly .exact d) ∧
  tPoly .exact 0 = -937 / 20 ∧ tPoly .exact 65535 = 42227243 / 327680 ∧
  (∀ c : Half, tPoly .exact c < 0 ↔ c.toNat ≤ 17473) ∧
  ∀ (α : Type) (N : Config.Numerics α) (c : Half),
    tPolyWith N c = N.sub (N.div (N.mul (N.ofDec 17572 100) (N.ofNat c.toNat)) (N.ofNat 65536)) (N.ofDec 4685 100)

/-- R182, R181: the humidity under the block's `NUM`, first byte high; after a failed read the same formula on two drawn
bytes, reported `BusError`; with exact numerics the value in figures. Which bytes of `DRAW` are drawn, and the counter
of them, are the model's choice (notes/assumptions/5.md). -/
def Obligations.GetrhReturnsTheHumidity : Prop :=
  decode 0x2000000000000000 = .ok .getrh ∧
  ∀ (s : State) (ts : List TransportAct), s.kind = .ths → s.busy = false →
    let value (hi lo : Byte) : Rat := rhPolyWith (numerics s.num) (BitVec.ofNat 16 (256 * hi.toNat + lo.toNat))
    (∀ b0 b1 : Byte, s.transport = .done [b0, b1] :: ts →
      exec .getrh s = .next (s.ended [{ dev := 0x40, w := [0xE5], r := 2 }] ts .ok (.value (value b0 b1)))) ∧
    (s.transport = .fail :: ts →
      exec .getrh s = .next { s.ended [{ dev := 0x40, w := [0xE5], r := 2 }] ts .busError
        (.value (value (Config.draw s.drawIndex) (Config.draw (s.drawIndex + 1)))) with
        drawIndex := s.drawIndex + 2 }) ∧
    (s.num = .exact → ∀ hi lo : Byte, value hi lo = (125 * (256 * hi.toNat + lo.toNat : Nat) : Rat) / 65536 - 6)

/-- R185, R181, likewise for the temperature. Which bytes of `DRAW` are drawn, and the counter of them, are the model's
choice (notes/assumptions/5.md). -/
def Obligations.GettReturnsTheTemperature : Prop :=
  decode 0x2100000000000000 = .ok .gett ∧
  ∀ (s : State) (ts : List TransportAct), s.kind = .ths → s.busy = false →
    let value (hi lo : Byte) : Rat := tPolyWith (numerics s.num) (BitVec.ofNat 16 (256 * hi.toNat + lo.toNat))
    (∀ b0 b1 : Byte, s.transport = .done [b0, b1] :: ts →
      exec .gett s = .next (s.ended [{ dev := 0x40, w := [0xE3], r := 2 }] ts .ok (.value (value b0 b1)))) ∧
    (s.transport = .fail :: ts →
      exec .gett s = .next { s.ended [{ dev := 0x40, w := [0xE3], r := 2 }] ts .busError
        (.value (value (Config.draw s.drawIndex) (Config.draw (s.drawIndex + 1)))) with
        drawIndex := s.drawIndex + 2 }) ∧
    (s.num = .exact → ∀ hi lo : Byte,
      value hi lo = (17572 / 100 * (256 * hi.toNat + lo.toNat : Nat) : Rat) / 65536 - 4685 / 100)

/-- R188, R189, R204: both reads are always made, humidity first; both cells are written whatever the answers and
whichever selector; the outcome is `BusError` if either read failed. A failed read is converted from two drawn
bytes. Which bytes of `DRAW` are drawn, and the counter of them, are the model's choice (notes/assumptions/5.md). -/
def Obligations.FetchThsWritesBothCells : Prop :=
  ∀ (s : State) (sel : Byte) (ts : List TransportAct) (h0 h1 t0 t1 : Byte),
    s.kind = .ths → s.busy = false → sel = 1 ∨ sel = 2 ∨ sel = 3 →
    let qs : List Request := [{ dev := 0x40, w := [0xE5], r := 2 }, { dev := 0x40, w := [0xE3], r := 2 }]
    let i := s.drawIndex
    (s.transport = .done [h0, h1] :: .done [t0, t1] :: ts →
      exec (.fetch sel) s = .next { s.ended qs ts .ok .none with
        hum := some (rhPoly s.num (h0 ++ h1)), temp := some (tPoly s.num (t0 ++ t1)) }) ∧
    (s.transport = .fail :: .done [t0, t1] :: ts →
      exec (.fetch sel) s = .next { s.ended qs ts .busError .none with
        hum := some (rhPoly s.num (Config.draw i ++ Config.draw (i + 1)))
        temp := some (tPoly s.num (t0 ++ t1))
        drawIndex := i + 2 }) ∧
    (s.transport = .done [h0, h1] :: .fail :: ts →
      exec (.fetch sel) s = .next { s.ended qs ts .busError .none with
        hum := some (rhPoly s.num (h0 ++ h1))
        temp := some (tPoly s.num (Config.draw i ++ Config.draw (i + 1)))
        drawIndex := i + 2 }) ∧
    (s.transport = .fail :: .fail :: ts →
      exec (.fetch sel) s = .next { s.ended qs ts .busError .none with
        hum := some (rhPoly s.num (Config.draw i ++ Config.draw (i + 1)))
        temp := some (tPoly s.num (Config.draw (i + 2) ++ Config.draw (i + 3)))
        drawIndex := i + 4 })

/-- R180: no step of a THS block gives `Retry` or `ReservedConfiguration` as a new response. -/
def Obligations.ThsBlockNeverRetries : Prop :=
  ∀ (s t : State) (r : Response), s.Inv → s.kind = .ths → step s = .next t → t.response = some r →
    r.outcome = .retry ∨ r.outcome = .reservedConfiguration → s.response = some r

/-! ## Facade -/

/-- R201, R202, R205, R209, R233: a selector the block does not provide is answered `Unsupported`, with no request and
the cache untouched. -/
def Obligations.UnsupportedSelectorIsAnswered : Prop :=
  ∀ (s : State) (sel : Byte), s.busy = false →
    ((match s.kind with
      | .als => sel ≠ 0 ∧ sel ≠ 3
      | .ths => sel ≠ 1 ∧ sel ≠ 2 ∧ sel ≠ 3) →
      exec (.fetch sel) s = .next (s.ended [] s.transport .unsupported .none)) ∧
    ((match s.kind with
      | .als => sel ≠ 0
      | .ths => sel ≠ 1 ∧ sel ≠ 2) →
      exec (.get sel) s = .next (s.ended [] s.transport .unsupported .none))

/-- R205: `GET` answers the decomposition, under the block's `NUM`, of the cell the selector names and changes nothing but
the response; the integer part is the truncated value wherever that fits `i32`. Outside i32 the integer part is a free value
(notes/assumptions/11.md). -/
def Obligations.GetReturnsTheDecomposedCell : Prop :=
  ∀ (s : State) (sel : Byte) (v : Rat), s.busy = false →
    (match s.kind with
      | .als => sel = 0 ∧ s.lux = some v
      | .ths => (sel = 1 ∧ s.temp = some v) ∨ (sel = 2 ∧ s.hum = some v)) →
    ∃ ip : BitVec 32,
      exec (.get sel) s = .next (s.ended [] s.transport .ok
        (.pair ip (BitVec.ofNat 32 (microsWith (numerics s.num) v)))) ∧
      (-2147483648 ≤ truncQ v → truncQ v ≤ 2147483647 → ip.toInt = truncQ v)

/-- R242: `GET` of a supported cell whose written flag is false is the fault `UninitialisedRead`. -/
def Obligations.GetOfAnUnwrittenCellFaults : Prop :=
  ∀ (s : State) (sel : Byte), s.busy = false →
    (match s.kind with
      | .als => sel = 0 ∧ s.written .lux = false
      | .ths => (sel = 1 ∧ s.written .temp = false) ∨ (sel = 2 ∧ s.written .hum = false)) →
    exec (.get sel) s = .fault .uninitialisedRead

/-- R207, with exact numerics: the integer part is rounding toward zero, the millionths are the magnitude of the truncated
product modulo a million, and the sign is carried by the integer part alone. -/
def Obligations.DecompositionTruncatesTowardZero : Prop :=
  ∀ v : Rat,
    intPartWith exact v = (if 0 ≤ v then ⌊v⌋ else ⌈v⌉) ∧
    microsWith exact v = (if 0 ≤ v then ⌊v * 1000000⌋ else ⌈v * 1000000⌉).natAbs % 1000000 ∧
    microsWith exact v < 1000000 ∧
    intPartWith exact (-v) = -intPartWith exact v ∧ microsWith exact (-v) = microsWith exact v

/-- R208 (f), with exact numerics: the pair gives the magnitude of the value to within a millionth, never too large. -/
def Obligations.DecompositionIsCloseToTheValue : Prop :=
  ∀ v : Rat,
    ((intPartWith exact v).natAbs : Rat) + (microsWith exact v : Rat) / 1000000 ≤ |v| ∧
    |v| < ((intPartWith exact v).natAbs : Rat) + (microsWith exact v : Rat) / 1000000 + 1 / 1000000

/-- R274: the value 23.456789 in the cell of an ALS block. With exact or binary64 numerics `GET` answers the millionths
456789, with binary32 it answers 456790. That a tie rounds to even is PRESUMED (notes/assumptions/20.md). -/
def Obligations.DecompositionDependsOnNum : Prop :=
  ∀ s : State, s.kind = .als → s.busy = false → s.lux = some ((numerics s.num).ofDec 23456789 1000000) →
    (s.num = .exact ∨ s.num = .binary64 → exec (.get 0) s = .next (s.ended [] s.transport .ok (.pair 23 456789))) ∧
    (s.num = .binary32 → exec (.get 0) s = .next (s.ended [] s.transport .ok (.pair 23 456790)))

/-- R210, R139 (e), (f): in every state that meets the invariant the integer part `GET` answers is the truncated value,
under every `NUM`, and at most 351152 in magnitude, so it fits `i32`; with exact, binary32 or binary64 numerics it is in
the range R210 gives; the millionths are in range for every value. For numerics other than the three named ones the limit
is DEDUCED, one the model holds every record to (notes/assumptions/21.md). -/
def Obligations.CachedIntegerPartsAreInRange : Prop :=
  (∀ (s : State) (v : Rat), s.Inv → s.lux = some v ∨ s.temp = some v ∨ s.hum = some v →
    (intPart32 s.num v).toInt = truncQ v ∧ (intPart32 s.num v).toInt.natAbs ≤ 351152 ∧
    (s.num.named = true →
      (s.lux = some v → 0 ≤ (intPart32 s.num v).toInt ∧ (intPart32 s.num v).toInt ≤ 351152) ∧
      (s.hum = some v → -6 ≤ (intPart32 s.num v).toInt ∧ (intPart32 s.num v).toInt ≤ 118) ∧
      (s.temp = some v → -46 ≤ (intPart32 s.num v).toInt ∧ (intPart32 s.num v).toInt ≤ 128))) ∧
  ∀ (n : Numeric) (v : Rat), (micros32 n v).toNat < 1000000

/-- R269, with exact numerics: for a value strictly between -1 and 0 the pair is that of the positive value of the same
magnitude; the codes that give such values. -/
def Obligations.SignIsLostBelowOne : Prop :=
  (∀ v : Rat, -1 < v → v < 0 →
    intPartWith exact v = 0 ∧ intPartWith exact (-v) = 0 ∧ microsWith exact (-v) = microsWith exact v) ∧
  (∀ c : Half, (-1 < tPoly .exact c ∧ tPoly .exact c < 0) ↔ (17101 ≤ c.toNat ∧ c.toNat ≤ 17473)) ∧
  (∀ c : Half, (-1 < rhPoly .exact c ∧ rhPoly .exact c < 0) ↔ (2622 ≤ c.toNat ∧ c.toNat ≤ 3145))

/-- R265, R29: after a `FETCH` of an ALS block that ended otherwise than `Ok`, `GET` answers what it answered before. -/
def Obligations.StaleReadingSurvivesAFailedFetch : Prop :=
  ∀ (s t : State) (sel gsel : Byte) (r : Response), s.kind = .als → s.busy = false →
    exec (.fetch sel) s = .next t → t.response = some r → r.outcome ≠ .ok →
    t.lux = s.lux ∧
    ∀ u, exec (.get gsel) s = .next u → ∃ w, exec (.get gsel) t = .next w ∧ w.response = u.response

/-- R271, R242: after any `FETCH` that has ended on a THS block, `Ok` or not, both cells can be read with outcome
`Ok`. -/
def Obligations.FetchedThsCellsAreReadable : Prop :=
  ∀ (s t : State) (sel gsel : Byte) (r : Response), s.kind = .ths → s.busy = false → sel = 1 ∨ sel = 2 ∨ sel = 3 →
    exec (.fetch sel) s = .next t → t.response = some r → gsel = 1 ∨ gsel = 2 →
    ∃ u ip fm, exec (.get gsel) t = .next u ∧ u.response = some { outcome := .ok, payload := .pair ip fm }

/-! ## Frames and whole-machine rules -/

/-- R29, R110, R150: a command other than `FETCH` writes no cell; it makes at most one request, the one its rule gives;
it draws bytes only in `GETRH` and `GETT`. -/
def Obligations.CommandsOtherThanFetchKeepTheCache : Prop :=
  ∀ (i : Instr) (s t : State), (∀ sel, i ≠ .fetch sel) → exec i s = .next t →
    t.lux = s.lux ∧ t.temp = s.temp ∧ t.hum = s.hum ∧ t.kind = s.kind ∧ t.num = s.num ∧ t.host = s.host ∧
    (t.bus = s.bus ∨ ∃ st, firstStage s.kind i = some st ∧ t.bus = s.bus ++ [st.request s.kind]) ∧
    (i ≠ .getrh → i ≠ .gett → t.drawIndex = s.drawIndex)

/-- R29: a step changes a cell only by reset, by a `FETCH` presented in it, or by a suspended fetch that goes on; and a
step of an ALS block that changes a cell otherwise than by reset gives the response `Ok`. -/
def Obligations.OnlyFetchAndResetChangeTheCache : Prop :=
  ∀ (s t : State), s.Inv → step s = .next t → (t.lux ≠ s.lux ∨ t.temp ≠ s.temp ∨ t.hum ≠ s.hum) →
    s.host.head? = some .reset ∨
    (((∃ w sel, s.presented = some w ∧ decode w = .ok (.fetch sel)) ∨
        (s.busy = true ∧ ∃ st, s.pending = some st ∧ st.ofFetch = true)) ∧
      (s.kind = .als → t.response = some { outcome := .ok, payload := .none }))

/-- R262, R28: a written flag once set stays set until reset. -/
def Obligations.WrittenFlagStaysUntilReset : Prop :=
  ∀ (s t : State) (c : CellName), step s = .next t → s.host.head? ≠ some .reset →
    s.written c = true → t.written c = true

/-- R44, R51: no step changes the kind, hence the device address, or the numerics. -/
def Obligations.KindNeverChanges : Prop :=
  ∀ s t : State, step s = .next t → t.kind = s.kind ∧ t.num = s.num

/-- R65, R66: requests are only added, after those already made, at most four in one step, and what the transport
has answered is used in order. How far one step goes is the model's choice (notes/assumptions/9.md). -/
def Obligations.RequestsAreOnlyAppended : Prop :=
  ∀ s t : State, step s = .next t →
    (∃ new, t.bus = s.bus ++ new ∧ new.length ≤ 4) ∧ ∃ used, s.transport = used ++ t.transport

/-- R44, R165, R189: no step but a `WRB` puts a write to the transport. -/
def Obligations.OnlyWrbWritesToTheSensor : Prop :=
  ∀ (s t : State) (new : List Request) (q : Request), step s = .next t → t.bus = s.bus ++ new → q ∈ new →
    q.r = 0 →
    ∃ w addr value, s.presented = some w ∧ decode w = .ok (.wrb addr value) ∧
      q = { dev := dev s.kind, w := [addr, value], r := 0 }

/-! ## Reset, hangs, invariant -/

/-- R261: the value of each piece of the block's state in the reset state of either kind and any numerics; the block
then waits for its first command. -/
def Obligations.ResetStateIsTheTable : Prop :=
  ∀ (k : Kind) (num : Numeric), let r := State.resetOf k num
    r.kind = k ∧ r.num = num ∧ r.seq = .idle ∧ r.busy = false ∧
    r.written .lux = false ∧ r.written .temp = false ∧ r.written .hum = false ∧
    r.lux = none ∧ r.temp = none ∧ r.hum = none ∧ r.lat = Latches.empty ∧
    ∀ (ts : List TransportAct) (n : Nat),
      Sys2Proof.core.run n { r with transport := ts } = .next { r with transport := ts }

/-- R260: reset asserted in any state puts the block in its reset state, abandons a command without a response and
makes no request. How `response` and `bus` show the two ports is in notes/assumptions/7.md. That the response of a
command that had ended before is cleared too (`t.response = none`) is the model's choice (notes/assumptions/13.md). -/
def Obligations.ResetInputResetsTheBlock : Prop :=
  ∀ (s : State) (hs : List HostAct), s.host = .reset :: hs →
    ∃ t, step s = .next t ∧ t.kind = s.kind ∧ t.num = s.num ∧ t.seq = .idle ∧ t.busy = false ∧ t.lat = Latches.empty ∧
      t.lux = none ∧ t.temp = none ∧ t.hum = none ∧ t.pending = none ∧ t.response = none ∧ t.bus = s.bus

/-- The invariant holds in the reset state of either kind and any numerics, whatever the host and the transport will
do. -/
def Obligations.ResetMeetsTheInvariant : Prop :=
  ∀ (k : Kind) (num : Numeric) (hs : List HostAct) (ts : List TransportAct),
    State.Inv { State.resetOf k num with host := hs, transport := ts }

/-- Every step keeps the invariant (R22, R24, R25, R27, R51, R52, R55, R210, R139). Two of its clauses lean on the model.
That cached integer parts are at most 351152 in magnitude under every `NUM` (`State.IntPartsInRange`) is, for numerics other
than the three named ones, DEDUCED, a limit the model holds every record to (notes/assumptions/21.md, unsafe for a record
beyond it). That a busy block always has a request in flight (`State.Inv.suspended`) rests on how far one step goes, the
model's choice (notes/assumptions/9.md). -/
def Obligations.StepKeepsTheInvariant : Prop :=
  ∀ s t : State, s.Inv → step s = .next t → t.Inv

/-- R22, V7: no run from reset reads a latch that holds no value, whatever the host and the transport do. -/
def Obligations.NoRunReadsAnUnwrittenLatch : Prop :=
  ∀ (k : Kind) (num : Numeric) (hs : List HostAct) (ts : List TransportAct) (n : Nat),
    runFrom k num hs ts n ≠ .fault .unwrittenLatch

/-- R242, R243: the only ways a step of a block that meets the invariant can stop. -/
def Obligations.StepStopsOnlyAsTheSpecSays : Prop :=
  ∀ s : State, s.Inv →
    (∃ t, step s = .next t) ∨
    (step s = .fault .uninitialisedRead ∧ s.busy = false ∧
      ∃ w sel c, s.presented = some w ∧ decode w = .ok (.get sel) ∧ getCell s.kind sel = some c ∧
        s.written c = false) ∨
    (step s = .refused .concurrentCommand ∧ s.busy = true ∧
      ∃ w i, s.presented = some w ∧ decode w = .ok i ∧ i.legalOn s.kind = true)

/-- R244: if the transport never answers and the host presents nothing, the command never ends. An empty list as a
transport that does not answer is the model's choice (notes/assumptions/3.md). -/
def Obligations.UnansweredCommandHangs : Prop :=
  ∀ (s : State) (n : Nat), s.host = [] → s.transport = [] → Sys2Proof.core.run n s = .next s

/-- R276: with four answers ready, none of them late, a legal command on an idle block ends in one step. How far one
step goes is the model's choice (notes/assumptions/9.md). -/
def Obligations.AnsweredCommandEnds : Prop :=
  ∀ (i : Instr) (s t : State), i.legalOn s.kind = true → s.busy = false →
    4 ≤ s.transport.length → .notYet ∉ s.transport → exec i s = .next t → t.busy = false

/-- R55, R65: late answers change when a command ends, and nothing else: a command that ends at once with the
answers on time ends in the same state, after some steps, when they come late. How far one step goes is the model's
choice (notes/assumptions/9.md); the statement says that it makes no other difference. -/
def Obligations.LateAnswersOnlyDelay : Prop :=
  ∀ (i : Instr) (s t : State), s.busy = false → exec i s.prompt = .next t → t.busy = false →
    ∃ n u, waitSteps n (exec i s) = .next u ∧ u.prompt = t

/-! ## INIT and the text form -/

/-- R96, R214: `INIT` on an idle ALS block. Its three words are issued in order, each after the answer to the one before,
however late the answers come: `n`, `m` and `k` steps late. It ends with the first command that does not end `Ok`, and the
rest is not issued. While the last answer is late the host does nothing else. On a THS block the model gives it no meaning; that, and the host's way of waiting, are the model's
choice (notes/assumptions/18.md and 6.md). -/
def Obligations.InitSequenceRuns : Prop :=
  (∀ s : State, s.kind = .ths → s.withInit = none) ∧
  ∀ (s : State) (b : Byte) (ts : List TransportAct) (n m k : Nat), s.kind = .als → s.busy = false →
    let late (n : Nat) (a : TransportAct) (as : List TransportAct) : List TransportAct :=
      List.replicate n .notYet ++ a :: as
    let q1 : Request := { dev := 0x29, w := [0x87], r := 1 }
    let q2 : Request := { dev := 0x29, w := [0x85, 0x1B], r := 0 }
    let q3 : Request := { dev := 0x29, w := [0x80, 0x01], r := 0 }
    ∃ u, s.withInit = some u ∧
      u = { s with
        host := [.inTurn 0x0100000000000087 false, .inTurn 0x0300000000001B85 true,
          .inTurn 0x0300000000000180 true] ++ s.host } ∧
      (s.transport = late n .fail ts →
        Sys2Proof.core.run (n + 3) u = .next (s.ended [q1] ts .busError .none)) ∧
      (s.transport = late n (.done [b]) (late m .fail ts) →
        Sys2Proof.core.run (n + m + 3) u = .next (s.ended [q1, q2] ts .busError .none)) ∧
      (k = 0 ∨ s.host = [] → s.transport = late n (.done [b]) (late m (.done []) (late k .fail ts)) →
        Sys2Proof.core.run (n + m + k + 3) u = .next (s.ended [q1, q2, q3] ts .busError .none)) ∧
      (k = 0 ∨ s.host = [] → s.transport = late n (.done [b]) (late m (.done []) (late k (.done []) ts)) →
        Sys2Proof.core.run (n + m + k + 3) u = .next (s.ended [q1, q2, q3] ts .ok .none))

/-- R95, R96: text of 95_test_vectors.md and the words it stands for, as the host presents them. That a THS block has no
`INIT` is the model's choice (notes/assumptions/18.md), and so is the host's way of waiting (6.md). -/
def Obligations.TextAssemblesToTheWords : Prop :=
  assemble .als "INIT ; startup".toList = some [.inTurn 0x0100000000000087 false, .inTurn 0x0300000000001B85 true,
    .inTurn 0x0300000000000180 true] ∧
  assemble .ths "INIT ; startup".toList = none ∧
  ∀ k : Kind, assemble k "RDN DATA_CH1_0, 4\nCLUX 100, 30, 1, 100\nFETCH Light\nGET Humidity".toList =
    some [.inTurn 0x0200000000000488 false, .inTurn 0x14006401001E0064 false, .inTurn 0x3000000000000000 false,
      .inTurn 0x3100000000000002 false]
end

