-- ==== Sys2Proof/Laws/Decode.lean ====
section
/-! SUPPORT. Small lemmas about the opcode map, fields at their places and the decoding procedure. -/

namespace Sys2Proof

@[simp] theorem Op.ofCode_code (o : Op) : Op.ofCode o.code = some o := by
  cases o <;> decide

theorem Op.code_of_ofCode {c : BitVec 8} {o : Op} (h : Op.ofCode c = some o) : o.code = c := by
  simpa using List.find?_some h

theorem place_getLsbD {n : Nat} (v : BitVec n) (lo j : Nat) :
    (place v lo).getLsbD j = (decide (j < 64) && !decide (j < lo) && v.getLsbD (j - lo)) := by
  simp only [place, BitVec.getLsbD_shiftLeft, BitVec.getLsbD_setWidth]
  by_cases h : j < 64
  · have : j - lo < 64 := by omega
    simp [h, this]
  · simp [h]

/-- A field is read back from its place. -/
@[simp] theorem extract_place_same {n : Nat} (v : BitVec n) (lo : Nat) (h : lo + n ≤ 64) :
    (place v lo).extractLsb' lo n = v := by
  apply BitVec.eq_of_getLsbD_eq
  intro j hj
  have h1 : lo + j < 64 := by omega
  have h2 : ¬(lo + j < lo) := by omega
  simp only [BitVec.getLsbD_extractLsb', place_getLsbD, hj, h1, h2, decide_true, decide_false, Bool.not_false,
    Bool.true_and, Nat.add_sub_cancel_left]

/-- Nothing is read from where a field is not. -/
theorem extract_place_disjoint {n : Nat} (v : BitVec n) (lo start len : Nat)
    (h : start + len ≤ lo ∨ lo + n ≤ start) : (place v lo).extractLsb' start len = 0#len := by
  apply BitVec.eq_of_getLsbD_eq
  intro j hj
  simp only [BitVec.getLsbD_extractLsb', place_getLsbD, hj, decide_true, Bool.true_and, BitVec.getLsbD_zero]
  rcases h with h | h
  · have : start + j < lo := by omega
    simp [this]
  · have : n ≤ start + j - lo := by omega
    simp [BitVec.getLsbD_of_ge v _ this]

/-- A field has no bit where a mask has none in its place. -/
theorem place_and_eq_zero {n : Nat} (v : BitVec n) (lo : Nat) (m : CmdWord)
    (h : ∀ j < n, m.getLsbD (lo + j) = false) : place v lo &&& m = 0#64 := by
  apply BitVec.eq_of_getLsbD_eq
  intro j hj
  simp only [BitVec.getLsbD_and, place_getLsbD, BitVec.getLsbD_zero]
  by_cases h1 : j < lo
  · simp [h1]
  by_cases h2 : j - lo < n
  · have := h (j - lo) h2
    rw [show lo + (j - lo) = j by omega] at this
    simp [this]
  · simp [BitVec.getLsbD_of_ge v (j - lo) (by omega)]

/-- A word whose opcode is in the map and whose must-be-zero bits are zero decodes to its operands. -/
theorem decode_of_code {o : Op} {w : CmdWord} (hc : w.extractLsb' 56 8 = o.code) (hz : w &&& o.format.zeroBits = 0) :
    decode w = .ok (o.assemble w) := by
  simp only [decode, hc, Op.ofCode_code, hz, if_true]

/-- What decoding can answer. -/
theorem decode_ok_cases {w : CmdWord} {i : Instr} (h : decode w = .ok i) :
    ∃ o : Op, w.extractLsb' 56 8 = o.code ∧ w &&& o.format.zeroBits = 0 ∧ i = o.assemble w := by
  unfold decode at h
  split at h
  · cases h
  · rename_i o ho
    split at h
    · rename_i hz
      cases h
      exact ⟨o, (Op.code_of_ofCode ho).symm, hz, rfl⟩
    · cases h

end Sys2Proof
end

