-- ==== Sys2Proof/Laws/Numerics.lean ====
section
/-! SUPPORT. Rounding to a binary format: the binade of a number, how far rounding moves it, and which numbers it leaves
alone. -/

namespace Sys2Proof.Machine

open Sys2Proof.Config (Q)

/-- `pow2` is the power of two. -/
theorem pow2_eq_zpow (e : Int) : pow2 e = (2 : Q) ^ e := by
  cases e with
  | ofNat n => simp [pow2]
  | negSucc n => simp [pow2, zpow_negSucc]

theorem pow2_pos (e : Int) : 0 < pow2 e := by
  rw [pow2_eq_zpow]; positivity

/-- The magnitude of a number in lowest terms. -/
theorem abs_eq_num_div_den (q : Q) : |q| = (q.num.natAbs : Q) / (q.den : Q) := by
  conv_lhs => rw [← Rat.num_div_den q]
  rw [abs_div, Nat.abs_cast, ← Int.cast_abs, Int.abs_eq_natAbs, Int.cast_natCast]

/-- The binade of a number that is not 0. -/
theorem binade_spec {q : Q} (h : q ≠ 0) : pow2 (binade q) ≤ |q| ∧ |q| < pow2 (binade q + 1) := by
  have hn : q.num.natAbs ≠ 0 := by simpa using h
  have n1 : (2 : Q) ^ q.num.natAbs.log2 ≤ q.num.natAbs := by exact_mod_cast Nat.log2_self_le hn
  have n2 : (q.num.natAbs : Q) < 2 ^ (q.num.natAbs.log2 + 1) := by exact_mod_cast Nat.lt_log2_self
  have d1 : (2 : Q) ^ q.den.log2 ≤ q.den := by exact_mod_cast Nat.log2_self_le q.den_nz
  have d2 : (q.den : Q) < 2 ^ (q.den.log2 + 1) := by exact_mod_cast Nat.lt_log2_self
  have d0 : (0 : Q) < q.den := by exact_mod_cast q.den_pos
  generalize he : ((q.num.natAbs.log2 : Int) - (q.den.log2 : Int)) = e
  have hi : |q| < pow2 (e + 1) := by
    rw [abs_eq_num_div_den, div_lt_iff₀ d0, pow2_eq_zpow]
    calc (q.num.natAbs : Q) < 2 ^ (q.num.natAbs.log2 + 1) := n2
      _ = 2 ^ (e + 1) * 2 ^ q.den.log2 := by
        rw [← zpow_natCast, ← zpow_natCast, ← zpow_add₀ (by norm_num)]; congr 1; push_cast; omega
      _ ≤ _ := mul_le_mul_of_nonneg_left d1 (by positivity)
  have lo : pow2 (e - 1) ≤ |q| := by
    rw [abs_eq_num_div_den, le_div_iff₀ d0, pow2_eq_zpow]
    calc (2 : Q) ^ (e - 1) * q.den ≤ 2 ^ (e - 1) * 2 ^ (q.den.log2 + 1) :=
          mul_le_mul_of_nonneg_left d2.le (by positivity)
      _ = 2 ^ q.num.natAbs.log2 := by
        rw [← zpow_natCast, ← zpow_natCast, ← zpow_add₀ (by norm_num)]; congr 1; push_cast; omega
      _ ≤ _ := n1
  unfold binade
  simp only [he]
  split
  · exact ⟨by assumption, hi⟩
  · next hc => exact ⟨lo, by simpa using hc⟩

/-- Rounding to an integer moves a number by at most one half. -/
theorem roundHalfEven_error (x : Q) : |(roundHalfEven x : Q) - x| ≤ 1 / 2 := by
  have h1 : ((x.floor : Int) : Q) ≤ x := by exact_mod_cast Int.floor_le x
  have h2 : x < (x.floor : Q) + 1 := by exact_mod_cast Int.lt_floor_add_one x
  unfold roundHalfEven
  simp only
  rw [abs_le]
  split_ifs <;> push_cast <;> constructor <;> linarith

/-- An integer is rounded to itself. -/
theorem roundHalfEven_intCast (z : Int) : roundHalfEven (z : Q) = z := by
  have : (z : Q).floor = z := by simp
  simp [roundHalfEven, this]

/-- Rounding to `p` bits is off by at most half a unit in the last place. -/
theorem roundBinary_error (p : Nat) (q : Q) (h : q ≠ 0) : |roundBinary p q - q| ≤ pow2 (binade q - p) := by
  unfold roundBinary
  simp only [h, if_false]
  have hu := pow2_pos (binade q - ((p : Int) - 1))
  have e := roundHalfEven_error (q / pow2 (binade q - ((p : Int) - 1)))
  generalize hx : roundHalfEven (q / pow2 (binade q - ((p : Int) - 1))) = x at *
  have hq : (x : Q) * pow2 (binade q - ((p : Int) - 1)) - q =
      ((x : Q) - q / pow2 (binade q - ((p : Int) - 1))) * pow2 (binade q - ((p : Int) - 1)) := by
    field_simp
  rw [hq, abs_mul, abs_of_pos hu]
  refine (mul_le_mul_of_nonneg_right e hu.le).trans (le_of_eq ?_)
  rw [pow2_eq_zpow, pow2_eq_zpow, show binade q - ((p : Int) - 1) = (binade q - p) + 1 by ring,
    zpow_add₀ (by norm_num)]
  ring

/-- Rounding is off by at most `2^-p` of the number. -/
theorem roundBinary_relError (p : Nat) (q : Q) : |roundBinary p q - q| ≤ |q| * pow2 (-p) := by
  by_cases h : q = 0
  · subst h; simp [roundBinary]
  · refine (roundBinary_error p q h).trans ?_
    have := (binade_spec h).1
    rw [pow2_eq_zpow, sub_eq_add_neg, zpow_add₀ (by norm_num), ← pow2_eq_zpow, ← pow2_eq_zpow]
    exact mul_le_mul_of_nonneg_right this (pow2_pos _).le

/-- An integer below `2^p` is rounded to itself (R10: conversions from an unsigned integer are exact). -/
theorem roundBinary_natCast (p n : Nat) (h : n < 2 ^ p) : roundBinary p (n : Q) = n := by
  by_cases h0 : (n : Q) = 0
  · simp [roundBinary, h0]
  unfold roundBinary
  simp only [h0, if_false]
  have hp : 0 < n := Nat.pos_of_ne_zero (by exact_mod_cast h0)
  have hb : binade (n : Q) < p := by
    have h1 := (binade_spec h0).1
    by_contra hc
    have : (2 : Q) ^ (p : Int) ≤ 2 ^ binade (n : Q) := zpow_le_zpow_right₀ (by norm_num) (by omega)
    rw [pow2_eq_zpow, Nat.abs_cast] at h1
    have : (2 : Q) ^ p ≤ n := by rw [zpow_natCast] at this; exact this.trans h1
    have : 2 ^ p ≤ n := by exact_mod_cast this
    omega
  obtain ⟨k, hk⟩ : ∃ k : Nat, binade (n : Q) - ((p : Int) - 1) = -(k : Int) :=
    ⟨(p - 1 - binade (n : Q)).toNat, by omega⟩
  rw [hk, pow2_eq_zpow]
  have hx : (n : Q) / 2 ^ (-(k : Int)) = ((n * 2 ^ k : Nat) : Int) := by
    rw [zpow_neg, zpow_natCast]; push_cast; field_simp
  rw [hx]
  rw [roundHalfEven_intCast, zpow_neg, zpow_natCast]; push_cast; field_simp
end Sys2Proof.Machine
end

