-- ==== Sys2Proof/Laws/Operands.lean ====
section
/-! SUPPORT. The selector tables of R201 as conditions on the selector byte, and the requests of the stages. -/

namespace Sys2Proof.Machine

theorem fetchPlan_als (sel : Byte) : fetchPlan .als sel = if sel = 0 ∨ sel = 3 then .light else .unsupported := by
  revert sel; decide +kernel

theorem fetchPlan_ths (sel : Byte) :
    fetchPlan .ths sel = if sel = 1 ∨ sel = 2 ∨ sel = 3 then .ths else .unsupported := by
  revert sel; decide +kernel

theorem getCell_als (sel : Byte) : getCell .als sel = if sel = 0 then some .lux else none := by
  revert sel; decide +kernel

theorem getCell_ths (sel : Byte) :
    getCell .ths sel = if sel = 1 then some .temp else if sel = 2 then some .hum else none := by
  revert sel; decide +kernel

/-- A supported cell is one of the kind's own (R27, R201). -/
theorem getCell_kind {k : Kind} {sel : Byte} {c : CellName} (h : getCell k sel = some c) :
    (c = .lux ∧ k = .als) ∨ (c = .temp ∧ k = .ths) ∨ (c = .hum ∧ k = .ths) := by
  cases k
  · rw [getCell_als] at h
    split at h <;> cases h
    exact .inl ⟨rfl, rfl⟩
  · rw [getCell_ths] at h
    split at h
    · cases h; exact .inr (.inl ⟨rfl, rfl⟩)
    · split at h <;> cases h
      exact .inr (.inr ⟨rfl, rfl⟩)

@[simp] theorem Stage.request_dev (k : Kind) (st : Stage) : (st.request k).dev = dev k := by
  cases st <;> rfl

end Sys2Proof.Machine
end

