-- ==== Sys2Proof/Laws/State.lean ====
section
/-! SUPPORT. One lemma per field for each update of State (true by rfl), and the latch setters as one update, so that no
proof unfolds a record update. -/

namespace Sys2Proof.Machine

/-! ### `State.start` -/

@[simp] theorem State.start_kind (q : Seq) (s : State) : (s.start q).kind = s.kind := rfl
@[simp] theorem State.start_num (q : Seq) (s : State) : (s.start q).num = s.num := rfl
@[simp] theorem State.start_seq (q : Seq) (s : State) : (s.start q).seq = q := rfl
@[simp] theorem State.start_busy (q : Seq) (s : State) : (s.start q).busy = true := rfl
@[simp] theorem State.start_lat (q : Seq) (s : State) : (s.start q).lat = Latches.empty := rfl
@[simp] theorem State.start_lux (q : Seq) (s : State) : (s.start q).lux = s.lux := rfl
@[simp] theorem State.start_temp (q : Seq) (s : State) : (s.start q).temp = s.temp := rfl
@[simp] theorem State.start_hum (q : Seq) (s : State) : (s.start q).hum = s.hum := rfl
@[simp] theorem State.start_pending (q : Seq) (s : State) : (s.start q).pending = none := rfl
@[simp] theorem State.start_drawIndex (q : Seq) (s : State) : (s.start q).drawIndex = s.drawIndex := rfl
@[simp] theorem State.start_response (q : Seq) (s : State) : (s.start q).response = none := rfl
@[simp] theorem State.start_bus (q : Seq) (s : State) : (s.start q).bus = s.bus := rfl
@[simp] theorem State.start_host (q : Seq) (s : State) : (s.start q).host = s.host := rfl
@[simp] theorem State.start_transport (q : Seq) (s : State) : (s.start q).transport = s.transport := rfl

/-! ### `State.complete` -/

@[simp] theorem State.complete_kind (r : Response) (s : State) : (s.complete r).kind = s.kind := rfl
@[simp] theorem State.complete_num (r : Response) (s : State) : (s.complete r).num = s.num := rfl
@[simp] theorem State.complete_seq (r : Response) (s : State) : (s.complete r).seq = .idle := rfl
@[simp] theorem State.complete_busy (r : Response) (s : State) : (s.complete r).busy = false := rfl
@[simp] theorem State.complete_lat (r : Response) (s : State) : (s.complete r).lat = Latches.empty := rfl
@[simp] theorem State.complete_lux (r : Response) (s : State) : (s.complete r).lux = s.lux := rfl
@[simp] theorem State.complete_temp (r : Response) (s : State) : (s.complete r).temp = s.temp := rfl
@[simp] theorem State.complete_hum (r : Response) (s : State) : (s.complete r).hum = s.hum := rfl
@[simp] theorem State.complete_pending (r : Response) (s : State) : (s.complete r).pending = none := rfl
@[simp] theorem State.complete_drawIndex (r : Response) (s : State) : (s.complete r).drawIndex = s.drawIndex := rfl
@[simp] theorem State.complete_response (r : Response) (s : State) : (s.complete r).response = some r := rfl
@[simp] theorem State.complete_bus (r : Response) (s : State) : (s.complete r).bus = s.bus := rfl
@[simp] theorem State.complete_host (r : Response) (s : State) : (s.complete r).host = s.host := rfl
@[simp] theorem State.complete_transport (r : Response) (s : State) : (s.complete r).transport = s.transport := rfl

/-! ### `State.answer` -/

@[simp] theorem State.answer_kind (r : Response) (s : State) : (s.answer r).kind = s.kind := rfl
@[simp] theorem State.answer_num (r : Response) (s : State) : (s.answer r).num = s.num := rfl
@[simp] theorem State.answer_seq (r : Response) (s : State) : (s.answer r).seq = s.seq := rfl
@[simp] theorem State.answer_busy (r : Response) (s : State) : (s.answer r).busy = s.busy := rfl
@[simp] theorem State.answer_lat (r : Response) (s : State) : (s.answer r).lat = s.lat := rfl
@[simp] theorem State.answer_lux (r : Response) (s : State) : (s.answer r).lux = s.lux := rfl
@[simp] theorem State.answer_temp (r : Response) (s : State) : (s.answer r).temp = s.temp := rfl
@[simp] theorem State.answer_hum (r : Response) (s : State) : (s.answer r).hum = s.hum := rfl
@[simp] theorem State.answer_pending (r : Response) (s : State) : (s.answer r).pending = s.pending := rfl
@[simp] theorem State.answer_drawIndex (r : Response) (s : State) : (s.answer r).drawIndex = s.drawIndex := rfl
@[simp] theorem State.answer_response (r : Response) (s : State) : (s.answer r).response = some r := rfl
@[simp] theorem State.answer_bus (r : Response) (s : State) : (s.answer r).bus = s.bus := rfl
@[simp] theorem State.answer_host (r : Response) (s : State) : (s.answer r).host = s.host := rfl
@[simp] theorem State.answer_transport (r : Response) (s : State) : (s.answer r).transport = s.transport := rfl

/-! ### `State.setSeq` -/

@[simp] theorem State.setSeq_kind (q : Seq) (s : State) : (s.setSeq q).kind = s.kind := rfl
@[simp] theorem State.setSeq_num (q : Seq) (s : State) : (s.setSeq q).num = s.num := rfl
@[simp] theorem State.setSeq_seq (q : Seq) (s : State) : (s.setSeq q).seq = q := rfl
@[simp] theorem State.setSeq_busy (q : Seq) (s : State) : (s.setSeq q).busy = s.busy := rfl
@[simp] theorem State.setSeq_lat (q : Seq) (s : State) : (s.setSeq q).lat = s.lat := rfl
@[simp] theorem State.setSeq_lux (q : Seq) (s : State) : (s.setSeq q).lux = s.lux := rfl
@[simp] theorem State.setSeq_temp (q : Seq) (s : State) : (s.setSeq q).temp = s.temp := rfl
@[simp] theorem State.setSeq_hum (q : Seq) (s : State) : (s.setSeq q).hum = s.hum := rfl
@[simp] theorem State.setSeq_pending (q : Seq) (s : State) : (s.setSeq q).pending = s.pending := rfl
@[simp] theorem State.setSeq_drawIndex (q : Seq) (s : State) : (s.setSeq q).drawIndex = s.drawIndex := rfl
@[simp] theorem State.setSeq_response (q : Seq) (s : State) : (s.setSeq q).response = s.response := rfl
@[simp] theorem State.setSeq_bus (q : Seq) (s : State) : (s.setSeq q).bus = s.bus := rfl
@[simp] theorem State.setSeq_host (q : Seq) (s : State) : (s.setSeq q).host = s.host := rfl
@[simp] theorem State.setSeq_transport (q : Seq) (s : State) : (s.setSeq q).transport = s.transport := rfl

/-! ### `State.setLat` -/

@[simp] theorem State.setLat_kind (l : Latches) (s : State) : (s.setLat l).kind = s.kind := rfl
@[simp] theorem State.setLat_num (l : Latches) (s : State) : (s.setLat l).num = s.num := rfl
@[simp] theorem State.setLat_seq (l : Latches) (s : State) : (s.setLat l).seq = s.seq := rfl
@[simp] theorem State.setLat_busy (l : Latches) (s : State) : (s.setLat l).busy = s.busy := rfl
@[simp] theorem State.setLat_lat (l : Latches) (s : State) : (s.setLat l).lat = l := rfl
@[simp] theorem State.setLat_lux (l : Latches) (s : State) : (s.setLat l).lux = s.lux := rfl
@[simp] theorem State.setLat_temp (l : Latches) (s : State) : (s.setLat l).temp = s.temp := rfl
@[simp] theorem State.setLat_hum (l : Latches) (s : State) : (s.setLat l).hum = s.hum := rfl
@[simp] theorem State.setLat_pending (l : Latches) (s : State) : (s.setLat l).pending = s.pending := rfl
@[simp] theorem State.setLat_drawIndex (l : Latches) (s : State) : (s.setLat l).drawIndex = s.drawIndex := rfl
@[simp] theorem State.setLat_response (l : Latches) (s : State) : (s.setLat l).response = s.response := rfl
@[simp] theorem State.setLat_bus (l : Latches) (s : State) : (s.setLat l).bus = s.bus := rfl
@[simp] theorem State.setLat_host (l : Latches) (s : State) : (s.setLat l).host = s.host := rfl
@[simp] theorem State.setLat_transport (l : Latches) (s : State) : (s.setLat l).transport = s.transport := rfl

/-! ### `State.drawRaw` -/

@[simp] theorem State.drawRaw_kind (s : State) : (s.drawRaw).kind = s.kind := rfl
@[simp] theorem State.drawRaw_num (s : State) : (s.drawRaw).num = s.num := rfl
@[simp] theorem State.drawRaw_seq (s : State) : (s.drawRaw).seq = s.seq := rfl
@[simp] theorem State.drawRaw_busy (s : State) : (s.drawRaw).busy = s.busy := rfl
@[simp] theorem State.drawRaw_lat (s : State) : (s.drawRaw).lat = { s.lat with raw0 := some (Config.draw s.drawIndex), raw1 := some (Config.draw (s.drawIndex + 1)) } := rfl
@[simp] theorem State.drawRaw_lux (s : State) : (s.drawRaw).lux = s.lux := rfl
@[simp] theorem State.drawRaw_temp (s : State) : (s.drawRaw).temp = s.temp := rfl
@[simp] theorem State.drawRaw_hum (s : State) : (s.drawRaw).hum = s.hum := rfl
@[simp] theorem State.drawRaw_pending (s : State) : (s.drawRaw).pending = s.pending := rfl
@[simp] theorem State.drawRaw_drawIndex (s : State) : (s.drawRaw).drawIndex = s.drawIndex + 2 := rfl
@[simp] theorem State.drawRaw_response (s : State) : (s.drawRaw).response = s.response := rfl
@[simp] theorem State.drawRaw_bus (s : State) : (s.drawRaw).bus = s.bus := rfl
@[simp] theorem State.drawRaw_host (s : State) : (s.drawRaw).host = s.host := rfl
@[simp] theorem State.drawRaw_transport (s : State) : (s.drawRaw).transport = s.transport := rfl

/-! ### `State.request` -/

@[simp] theorem State.request_kind (st : Stage) (s : State) : (s.request st).kind = s.kind := rfl
@[simp] theorem State.request_num (st : Stage) (s : State) : (s.request st).num = s.num := rfl
@[simp] theorem State.request_seq (st : Stage) (s : State) : (s.request st).seq = s.seq := rfl
@[simp] theorem State.request_busy (st : Stage) (s : State) : (s.request st).busy = s.busy := rfl
@[simp] theorem State.request_lat (st : Stage) (s : State) : (s.request st).lat = s.lat := rfl
@[simp] theorem State.request_lux (st : Stage) (s : State) : (s.request st).lux = s.lux := rfl
@[simp] theorem State.request_temp (st : Stage) (s : State) : (s.request st).temp = s.temp := rfl
@[simp] theorem State.request_hum (st : Stage) (s : State) : (s.request st).hum = s.hum := rfl
@[simp] theorem State.request_pending (st : Stage) (s : State) : (s.request st).pending = some st := rfl
@[simp] theorem State.request_drawIndex (st : Stage) (s : State) : (s.request st).drawIndex = s.drawIndex := rfl
@[simp] theorem State.request_response (st : Stage) (s : State) : (s.request st).response = s.response := rfl
@[simp] theorem State.request_bus (st : Stage) (s : State) : (s.request st).bus = s.bus ++ [st.request s.kind] := rfl
@[simp] theorem State.request_host (st : Stage) (s : State) : (s.request st).host = s.host := rfl
@[simp] theorem State.request_transport (st : Stage) (s : State) : (s.request st).transport = s.transport := rfl

/-! ### `State.answered` -/

@[simp] theorem State.answered_kind (ts : List TransportAct) (s : State) : (s.answered ts).kind = s.kind := rfl
@[simp] theorem State.answered_num (ts : List TransportAct) (s : State) : (s.answered ts).num = s.num := rfl
@[simp] theorem State.answered_seq (ts : List TransportAct) (s : State) : (s.answered ts).seq = s.seq := rfl
@[simp] theorem State.answered_busy (ts : List TransportAct) (s : State) : (s.answered ts).busy = s.busy := rfl
@[simp] theorem State.answered_lat (ts : List TransportAct) (s : State) : (s.answered ts).lat = s.lat := rfl
@[simp] theorem State.answered_lux (ts : List TransportAct) (s : State) : (s.answered ts).lux = s.lux := rfl
@[simp] theorem State.answered_temp (ts : List TransportAct) (s : State) : (s.answered ts).temp = s.temp := rfl
@[simp] theorem State.answered_hum (ts : List TransportAct) (s : State) : (s.answered ts).hum = s.hum := rfl
@[simp] theorem State.answered_pending (ts : List TransportAct) (s : State) : (s.answered ts).pending = none := rfl
@[simp] theorem State.answered_drawIndex (ts : List TransportAct) (s : State) : (s.answered ts).drawIndex = s.drawIndex := rfl
@[simp] theorem State.answered_response (ts : List TransportAct) (s : State) : (s.answered ts).response = s.response := rfl
@[simp] theorem State.answered_bus (ts : List TransportAct) (s : State) : (s.answered ts).bus = s.bus := rfl
@[simp] theorem State.answered_host (ts : List TransportAct) (s : State) : (s.answered ts).host = s.host := rfl
@[simp] theorem State.answered_transport (ts : List TransportAct) (s : State) : (s.answered ts).transport = ts := rfl

/-! ### `State.applyReset` -/

@[simp] theorem State.applyReset_kind (s : State) : (s.applyReset).kind = s.kind := rfl
@[simp] theorem State.applyReset_num (s : State) : (s.applyReset).num = s.num := rfl
@[simp] theorem State.applyReset_seq (s : State) : (s.applyReset).seq = .idle := rfl
@[simp] theorem State.applyReset_busy (s : State) : (s.applyReset).busy = false := rfl
@[simp] theorem State.applyReset_lat (s : State) : (s.applyReset).lat = Latches.empty := rfl
@[simp] theorem State.applyReset_lux (s : State) : (s.applyReset).lux = none := rfl
@[simp] theorem State.applyReset_temp (s : State) : (s.applyReset).temp = none := rfl
@[simp] theorem State.applyReset_hum (s : State) : (s.applyReset).hum = none := rfl
@[simp] theorem State.applyReset_pending (s : State) : (s.applyReset).pending = none := rfl
@[simp] theorem State.applyReset_drawIndex (s : State) : (s.applyReset).drawIndex = s.drawIndex := rfl
@[simp] theorem State.applyReset_response (s : State) : (s.applyReset).response = none := rfl
@[simp] theorem State.applyReset_bus (s : State) : (s.applyReset).bus = s.bus := rfl
@[simp] theorem State.applyReset_host (s : State) : (s.applyReset).host = s.host := rfl
@[simp] theorem State.applyReset_transport (s : State) : (s.applyReset).transport = s.transport := rfl

/-! ### `State.writeCell` -/

@[simp] theorem State.writeCell_kind (c : CellName) (v : Config.Q) (s : State) : (s.writeCell c v).kind = s.kind := by
  cases c <;> rfl
@[simp] theorem State.writeCell_num (c : CellName) (v : Config.Q) (s : State) : (s.writeCell c v).num = s.num := by
  cases c <;> rfl
@[simp] theorem State.writeCell_seq (c : CellName) (v : Config.Q) (s : State) : (s.writeCell c v).seq = s.seq := by
  cases c <;> rfl
@[simp] theorem State.writeCell_busy (c : CellName) (v : Config.Q) (s : State) : (s.writeCell c v).busy = s.busy := by
  cases c <;> rfl
@[simp] theorem State.writeCell_lat (c : CellName) (v : Config.Q) (s : State) : (s.writeCell c v).lat = s.lat := by
  cases c <;> rfl
@[simp] theorem State.writeCell_pending (c : CellName) (v : Config.Q) (s : State) : (s.writeCell c v).pending = s.pending := by
  cases c <;> rfl
@[simp] theorem State.writeCell_drawIndex (c : CellName) (v : Config.Q) (s : State) : (s.writeCell c v).drawIndex = s.drawIndex := by
  cases c <;> rfl
@[simp] theorem State.writeCell_response (c : CellName) (v : Config.Q) (s : State) : (s.writeCell c v).response = s.response := by
  cases c <;> rfl
@[simp] theorem State.writeCell_bus (c : CellName) (v : Config.Q) (s : State) : (s.writeCell c v).bus = s.bus := by
  cases c <;> rfl
@[simp] theorem State.writeCell_host (c : CellName) (v : Config.Q) (s : State) : (s.writeCell c v).host = s.host := by
  cases c <;> rfl
@[simp] theorem State.writeCell_transport (c : CellName) (v : Config.Q) (s : State) : (s.writeCell c v).transport = s.transport := by
  cases c <;> rfl
@[simp] theorem State.writeCell_lux_lux (v : Config.Q) (s : State) : (s.writeCell .lux v).lux = some v := rfl
@[simp] theorem State.writeCell_lux_temp (v : Config.Q) (s : State) : (s.writeCell .lux v).temp = s.temp := rfl
@[simp] theorem State.writeCell_lux_hum (v : Config.Q) (s : State) : (s.writeCell .lux v).hum = s.hum := rfl
@[simp] theorem State.writeCell_temp_lux (v : Config.Q) (s : State) : (s.writeCell .temp v).lux = s.lux := rfl
@[simp] theorem State.writeCell_temp_temp (v : Config.Q) (s : State) : (s.writeCell .temp v).temp = some v := rfl
@[simp] theorem State.writeCell_temp_hum (v : Config.Q) (s : State) : (s.writeCell .temp v).hum = s.hum := rfl
@[simp] theorem State.writeCell_hum_lux (v : Config.Q) (s : State) : (s.writeCell .hum v).lux = s.lux := rfl
@[simp] theorem State.writeCell_hum_temp (v : Config.Q) (s : State) : (s.writeCell .hum v).temp = s.temp := rfl
@[simp] theorem State.writeCell_hum_hum (v : Config.Q) (s : State) : (s.writeCell .hum v).hum = some v := rfl

/-! ### Cells -/

@[simp] theorem State.cell_lux (s : State) : s.cell .lux = s.lux := rfl
@[simp] theorem State.cell_temp (s : State) : s.cell .temp = s.temp := rfl
@[simp] theorem State.cell_hum (s : State) : s.cell .hum = s.hum := rfl
theorem State.cell_writeCell_same (c : CellName) (v : Config.Q) (s : State) : (s.writeCell c v).cell c = some v := by
  cases c <;> rfl
theorem State.cell_writeCell_other (c d : CellName) (v : Config.Q) (s : State) (h : d ≠ c) :
    (s.writeCell c v).cell d = s.cell d := by
  cases c <;> cases d <;> first | rfl | exact absurd rfl h

/-! ### Latch setters as `setLat` -/

@[simp] theorem State.setSt_eq (v : Byte) (s : State) : s.setSt v = s.setLat { s.lat with st := some v } := rfl
@[simp] theorem State.setChannels_eq (a b : Half) (s : State) :
    s.setChannels a b = s.setLat { s.lat with ch0 := some a, ch1 := some b } := rfl
@[simp] theorem State.setGc_eq (c : Code3) (s : State) : s.setGc c = s.setLat { s.lat with gc := some c } := rfl
@[simp] theorem State.setG_eq (e : GainEntry) (s : State) : s.setG e = s.setLat { s.lat with g := some e } := rfl
@[simp] theorem State.setIc_eq (c : Code3) (s : State) : s.setIc c = s.setLat { s.lat with ic := some c } := rfl
@[simp] theorem State.setIt_eq (t : Half) (s : State) : s.setIt t = s.setLat { s.lat with it := some t } := rfl
@[simp] theorem State.setCode_eq (c : Half) (s : State) : s.setCode c = s.setLat { s.lat with code := some c } := rfl

/-! ### Latches after an answer -/

@[simp] theorem Latches.loadRaw_raw0 (bs : List Byte) (l : Latches) : (l.loadRaw bs).raw0 = (bs[0]?).or l.raw0 := rfl
@[simp] theorem Latches.loadRaw_raw1 (bs : List Byte) (l : Latches) : (l.loadRaw bs).raw1 = (bs[1]?).or l.raw1 := rfl
@[simp] theorem Latches.loadRaw_raw2 (bs : List Byte) (l : Latches) : (l.loadRaw bs).raw2 = (bs[2]?).or l.raw2 := rfl
@[simp] theorem Latches.loadRaw_raw3 (bs : List Byte) (l : Latches) : (l.loadRaw bs).raw3 = (bs[3]?).or l.raw3 := rfl
@[simp] theorem Latches.loadRaw_st (bs : List Byte) (l : Latches) : (l.loadRaw bs).st = l.st := rfl
@[simp] theorem Latches.loadRaw_ic (bs : List Byte) (l : Latches) : (l.loadRaw bs).ic = l.ic := rfl
@[simp] theorem Latches.loadRaw_gc (bs : List Byte) (l : Latches) : (l.loadRaw bs).gc = l.gc := rfl
@[simp] theorem Latches.loadRaw_ch0 (bs : List Byte) (l : Latches) : (l.loadRaw bs).ch0 = l.ch0 := rfl
@[simp] theorem Latches.loadRaw_ch1 (bs : List Byte) (l : Latches) : (l.loadRaw bs).ch1 = l.ch1 := rfl
@[simp] theorem Latches.loadRaw_g (bs : List Byte) (l : Latches) : (l.loadRaw bs).g = l.g := rfl
@[simp] theorem Latches.loadRaw_it (bs : List Byte) (l : Latches) : (l.loadRaw bs).it = l.it := rfl
@[simp] theorem Latches.loadRaw_code (bs : List Byte) (l : Latches) : (l.loadRaw bs).code = l.code := rfl
@[simp] theorem Latches.clearRaw_raw0 (l : Latches) : l.clearRaw.raw0 = none := rfl
@[simp] theorem Latches.clearRaw_raw1 (l : Latches) : l.clearRaw.raw1 = none := rfl
@[simp] theorem Latches.clearRaw_raw2 (l : Latches) : l.clearRaw.raw2 = none := rfl
@[simp] theorem Latches.clearRaw_raw3 (l : Latches) : l.clearRaw.raw3 = none := rfl
@[simp] theorem Latches.clearRaw_st (l : Latches) : l.clearRaw.st = l.st := rfl
@[simp] theorem Latches.clearRaw_ic (l : Latches) : l.clearRaw.ic = l.ic := rfl
@[simp] theorem Latches.clearRaw_gc (l : Latches) : l.clearRaw.gc = l.gc := rfl
@[simp] theorem Latches.clearRaw_ch0 (l : Latches) : l.clearRaw.ch0 = l.ch0 := rfl
@[simp] theorem Latches.clearRaw_ch1 (l : Latches) : l.clearRaw.ch1 = l.ch1 := rfl
@[simp] theorem Latches.clearRaw_g (l : Latches) : l.clearRaw.g = l.g := rfl
@[simp] theorem Latches.clearRaw_it (l : Latches) : l.clearRaw.it = l.it := rfl
@[simp] theorem Latches.clearRaw_code (l : Latches) : l.clearRaw.code = l.code := rfl
@[simp] theorem Latches.empty_raw0 : Latches.empty.raw0 = none := rfl
@[simp] theorem Latches.empty_raw1 : Latches.empty.raw1 = none := rfl
@[simp] theorem Latches.empty_raw2 : Latches.empty.raw2 = none := rfl
@[simp] theorem Latches.empty_raw3 : Latches.empty.raw3 = none := rfl
@[simp] theorem Latches.empty_st : Latches.empty.st = none := rfl
@[simp] theorem Latches.empty_ic : Latches.empty.ic = none := rfl
@[simp] theorem Latches.empty_gc : Latches.empty.gc = none := rfl
@[simp] theorem Latches.empty_ch0 : Latches.empty.ch0 = none := rfl
@[simp] theorem Latches.empty_ch1 : Latches.empty.ch1 = none := rfl
@[simp] theorem Latches.empty_g : Latches.empty.g = none := rfl
@[simp] theorem Latches.empty_it : Latches.empty.it = none := rfl
@[simp] theorem Latches.empty_code : Latches.empty.code = none := rfl

/-! ### Writing the same update twice -/

@[simp] theorem State.setLat_setLat (l m : Latches) (s : State) : (s.setLat l).setLat m = s.setLat m := rfl
@[simp] theorem State.complete_setLat (l : Latches) (r : Response) (s : State) :
    (s.setLat l).complete r = s.complete r := rfl
@[simp] theorem State.complete_setSeq (q : Seq) (r : Response) (s : State) :
    (s.setSeq q).complete r = s.complete r := rfl
@[simp] theorem State.complete_start (q : Seq) (r : Response) (s : State) :
    (s.start q).complete r = s.complete r := rfl

/-! ### The ranges of integer parts -/

/-- The limit of R139 (f) follows from the ranges of R210. -/
theorem State.intPartsInRange_of_ranges {s : State}
    (h : truncInRange 0 351152 s.lux ∧ truncInRange (-46) 128 s.temp ∧ truncInRange (-6) 118 s.hum) :
    s.IntPartsInRange := by
  have wide : ∀ {lo hi : Int} {c : Option Config.Q}, -351152 ≤ lo → hi ≤ 351152 → truncInRange lo hi c →
      truncInRange (-351152) 351152 c := fun {_ _ c} hl hh h =>
    match c, h with
    | none, _ => trivial
    | some _, h => ⟨hl.trans h.1, h.2.trans hh⟩
  exact ⟨⟨wide (by decide) (by decide) h.1, wide (by decide) (by decide) h.2.1, wide (by decide) (by decide) h.2.2⟩,
    fun _ => h⟩

end Sys2Proof.Machine
end

