-- ==== Sys2Proof/Laws/Ops.lean ====
section
/-! SUPPORT. What each shared operation can do, said once: acceptance, a request and its answer, the latch reads, and the
answer to the request of any stage (`onAnswer_cases`), from which the frames and invariants follow by induction on
`Stage.rank`. -/

namespace Sys2Proof.Machine

/-! ### Outcomes and latches -/

@[simp] theorem withLatch_some {α : Type} (v : α) (k : α → Out) : withLatch (some v) k = k v := rfl
@[simp] theorem withLatch_none {α : Type} (k : α → Out) : withLatch none k = .fault .unwrittenLatch := rfl

theorem reply_eq (p : Payload) (s : State) : reply p s = .next (s.complete { outcome := .ok, payload := p }) := rfl
theorem raise_eq (o : OutcomeName) (s : State) : raise o s = .next (s.complete { outcome := o, payload := .none }) := rfl

/-! ### Acceptance (R238) -/

theorem accept_illegal {i : Instr} {q : Seq} {body : State → Out} {s : State} (h : i.legalOn s.kind = false) :
    accept i q body s = .next (s.answer { outcome := .illegalCommand, payload := .none }) := by
  simp [accept, h]

theorem accept_busy {i : Instr} {q : Seq} {body : State → Out} {s : State} (h : i.legalOn s.kind = true)
    (hb : s.busy = true) : accept i q body s = .refused .concurrentCommand := by
  simp [accept, h, hb]

theorem accept_idle {i : Instr} {q : Seq} {body : State → Out} {s : State} (h : i.legalOn s.kind = true)
    (hb : s.busy = false) : accept i q body s = body (s.start q) := by
  simp [accept, h, hb]

/-- If acceptance answers a next state, the command was illegal and only the response changed, or the block was idle and
the command's rule ran. -/
theorem accept_next_cases {i : Instr} {q : Seq} {body : State → Out} {s t : State}
    (h : accept i q body s = .next t) :
    (i.legalOn s.kind = false ∧ t = s.answer { outcome := .illegalCommand, payload := .none }) ∨
    (i.legalOn s.kind = true ∧ s.busy = false ∧ body (s.start q) = .next t) := by
  cases hl : i.legalOn s.kind with
  | false => rw [accept_illegal hl] at h; cases h; exact .inl ⟨rfl, rfl⟩
  | true =>
    cases hb : s.busy with
    | true => rw [accept_busy hl hb] at h; cases h
    | false => rw [accept_idle hl hb] at h; exact .inr ⟨rfl, rfl, h⟩

/-! ### Requests and answers (R52, R55) -/

theorem doneResult_of_length {r : Nat} {bs : List Byte} (h : bs.length = r) : doneResult r bs = .done bs := by
  simp [doneResult, h]

theorem doneResult_of_ne {r : Nat} {bs : List Byte} (h : bs.length ≠ r) : doneResult r bs = .fail := by
  simp [doneResult, h]

theorem settle_nil {st : Stage} {k : BusResult → State → Out} {s : State} (h : s.transport = []) :
    settle st k s = .next s := by
  simp [settle, h]

theorem settle_notYet {st : Stage} {k : BusResult → State → Out} {s : State} {ts : List TransportAct}
    (h : s.transport = .notYet :: ts) : settle st k s = .next { s with transport := ts } := by
  simp [settle, h]

theorem settle_done {st : Stage} {k : BusResult → State → Out} {s : State} {bs : List Byte} {ts : List TransportAct}
    (h : s.transport = .done bs :: ts) (hl : bs.length = (st.request s.kind).r) :
    settle st k s = k (.done bs) ((s.answered ts).setLat (s.lat.loadRaw bs)) := by
  simp only [settle, h, doneResult_of_length hl, State.afterAnswer, State.answered_lat]

theorem settle_wrongLength {st : Stage} {k : BusResult → State → Out} {s : State} {bs : List Byte}
    {ts : List TransportAct} (h : s.transport = .done bs :: ts) (hl : bs.length ≠ (st.request s.kind).r) :
    settle st k s = k .fail ((s.answered ts).afterAnswer (st.request s.kind).r .fail) := by
  simp only [settle, h, doneResult_of_ne hl]

theorem settle_fail {st : Stage} {k : BusResult → State → Out} {s : State} {ts : List TransportAct}
    (h : s.transport = .fail :: ts) :
    settle st k s = k .fail ((s.answered ts).afterAnswer (st.request s.kind).r .fail) := by
  simp only [settle, h]

section AfterAnswer
variable (r : Nat) (res : BusResult) (s : State)

/-- An answer changes the latches only. -/
theorem State.afterAnswer_eq : ∃ l, s.afterAnswer r res = s.setLat l := by
  cases res with
  | done bs => exact ⟨_, rfl⟩
  | fail => by_cases h : r = 0
            · exact ⟨s.lat, by simp [State.afterAnswer, h, State.setLat]⟩
            · exact ⟨s.lat.clearRaw, by simp [State.afterAnswer, h]⟩

end AfterAnswer

/-- What waiting for an answer can do: the request stays unanswered, or the rest of the command runs with the answer and
new latches, the request no longer in flight. -/
theorem settle_cases (st : Stage) (k : BusResult → State → Out) (s : State) :
    (s.transport = [] ∧ settle st k s = .next s) ∨
    (∃ ts, s.transport = .notYet :: ts ∧ settle st k s = .next { s with transport := ts }) ∨
    (∃ a ts res, s.transport = a :: ts ∧ a ≠ .notYet ∧
      (∀ bs, res = .done bs → bs.length = (st.request s.kind).r) ∧
      settle st k s = k res ((s.answered ts).afterAnswer (st.request s.kind).r res)) := by
  cases h : s.transport with
  | nil => exact .inl ⟨rfl, settle_nil h⟩
  | cons a ts =>
    cases a with
    | notYet => exact .inr (.inl ⟨ts, rfl, settle_notYet h⟩)
    | fail => exact .inr (.inr ⟨_, ts, .fail, rfl, by simp, by simp, settle_fail h⟩)
    | done bs =>
      refine .inr (.inr ⟨_, ts, doneResult (st.request s.kind).r bs, rfl, by simp, ?_, by simp only [settle, h]⟩)
      intro cs hc
      by_cases hl : bs.length = (st.request s.kind).r
      · rw [doneResult_of_length hl] at hc; cases hc; exact hl
      · rw [doneResult_of_ne hl] at hc; cases hc

/-! ### What follows an answer -/

/-- How many requests a stage's command can still make. -/
def Stage.rank : Stage → Nat
  | .lightStatus => 3
  | .lightChannels => 2
  | .lightGain => 1
  | .thsHum => 1
  | _ => 0

/-- Two states agree on everything but the sequencer state and the latches and, if bytes were drawn, their count. -/
structure SameOutside (s t : State) : Prop where
  kind : t.kind = s.kind
  num : t.num = s.num
  busy : t.busy = s.busy
  lux : t.lux = s.lux
  temp : t.temp = s.temp
  hum : t.hum = s.hum
  pending : t.pending = s.pending
  response : t.response = s.response
  bus : t.bus = s.bus
  host : t.host = s.host
  transport : t.transport = s.transport

theorem SameOutside.refl (s : State) : SameOutside s s := ⟨rfl, rfl, rfl, rfl, rfl, rfl, rfl, rfl, rfl, rfl, rfl⟩

theorem SameOutside.trans {s t u : State} (h : SameOutside s t) (g : SameOutside t u) : SameOutside s u :=
  ⟨g.kind.trans h.kind, g.num.trans h.num, g.busy.trans h.busy, g.lux.trans h.lux, g.temp.trans h.temp, g.hum.trans h.hum,
   g.pending.trans h.pending, g.response.trans h.response, g.bus.trans h.bus, g.host.trans h.host,
   g.transport.trans h.transport⟩

/-- What reading a code can do (R181): a latch without a value, or the rest runs on a state with the code latched; a
failed read has drawn two bytes. -/
theorem readCode_cases (res : BusResult) (s : State) (k : Bool → State → Out) :
    readCode res s k = .fault .unwrittenLatch ∨
    ∃ ok c t, readCode res s k = k ok t ∧ SameOutside s t ∧ t.lat.code = some c ∧ t.seq = s.seq := by
  cases res with
  | done bs =>
    cases h0 : s.lat.raw0 with
    | none => left; simp [readCode, h0]
    | some b0 =>
      cases h1 : s.lat.raw1 with
      | none => left; simp [readCode, h0, h1]
      | some b1 =>
        right
        exact ⟨true, comb16be b0 b1, s.setCode (comb16be b0 b1), by simp only [readCode, h0, h1, withLatch_some], ⟨rfl, rfl, rfl, rfl, rfl, rfl, rfl, rfl, rfl, rfl, rfl⟩, rfl, rfl⟩
  | fail =>
    right
    exact ⟨false, _, _, rfl, ⟨rfl, rfl, rfl, rfl, rfl, rfl, rfl, rfl, rfl, rfl, rfl⟩, rfl, rfl⟩

/-- Everything that can follow the answer to a stage's request: a latch without a value; the next request of the same
fetch, from a state that agrees outside sequencer and latches; or the end of the command, the cache written only by the
last stage of a fetch, and then with outcome `Ok` on the light path. -/
theorem onAnswer_cases (st : Stage) (res : BusResult) (s : State) :
    st.onAnswer res s = .fault .unwrittenLatch ∨
    (∃ st' u, st.onAnswer res s = issue st' st'.onAnswer u ∧ SameOutside s u ∧
      st'.rank < st.rank ∧ st.ofFetch = true ∧ st'.ofFetch = true) ∨
    (∃ u r, st.onAnswer res s = .next (u.complete r) ∧ SameOutside s u) ∨
    (∃ u v, st.onAnswer res s = .next ((u.writeCell .lux v).complete { outcome := .ok, payload := .none }) ∧
      SameOutside s u ∧ st = .lightRate) ∨
    (∃ u h v r okH codeH, st.onAnswer res s = .next (((u.writeCell .hum h).writeCell .temp v).complete r) ∧
      SameOutside s u ∧ st = .thsTemp okH codeH) := by
  have same : ∀ (l : Latches), SameOutside s (s.setLat l) := fun _ => ⟨rfl, rfl, rfl, rfl, rfl, rfl, rfl, rfl, rfl, rfl, rfl⟩
  cases st with
  | rdb addr =>
    cases res with
    | fail => exact .inr (.inr (.inl ⟨s, _, rfl, .refl s⟩))
    | done bs =>
      cases h0 : s.lat.raw0 with
      | none => left; simp [Stage.onAnswer, rdbAnswer, h0]
      | some b => exact .inr (.inr (.inl ⟨s, _, by simp only [Stage.onAnswer, rdbAnswer, h0, withLatch_some]; rfl, .refl s⟩))
  | rdn addr n => cases res <;> exact .inr (.inr (.inl ⟨s, _, rfl, .refl s⟩))
  | wrb addr value => cases res <;> exact .inr (.inr (.inl ⟨s, _, rfl, .refl s⟩))
  | chknd =>
    cases res with
    | fail => exact .inr (.inr (.inl ⟨s, _, rfl, .refl s⟩))
    | done bs =>
      cases h0 : s.lat.raw0 with
      | none => left; simp [Stage.onAnswer, chkndAnswer, decodeStatus, h0]
      | some b =>
        exact .inr (.inr (.inl ⟨_, _, by simp only [Stage.onAnswer, chkndAnswer, decodeStatus, h0, withLatch_some]; rfl, same _⟩))
  | getit =>
    cases res with
    | fail => exact .inr (.inr (.inl ⟨s, _, rfl, .refl s⟩))
    | done bs =>
      cases h0 : s.lat.raw0 with
      | none => left; simp [Stage.onAnswer, getitAnswer, decodeRate, h0]
      | some b =>
        exact .inr (.inr (.inl ⟨_, _, by simp only [Stage.onAnswer, getitAnswer, decodeRate, h0, withLatch_some]; rfl, same _⟩))
  | getch =>
    cases res with
    | fail => exact .inr (.inr (.inl ⟨s, _, rfl, .refl s⟩))
    | done bs =>
      rcases h0 : s.lat.raw0 with _ | b0
      · left; simp [Stage.onAnswer, getchAnswer, decodeChannels, h0]
      rcases h1 : s.lat.raw1 with _ | b1
      · left; simp [Stage.onAnswer, getchAnswer, decodeChannels, h0, h1]
      rcases h2 : s.lat.raw2 with _ | b2
      · left; simp [Stage.onAnswer, getchAnswer, decodeChannels, h0, h1, h2]
      rcases h3 : s.lat.raw3 with _ | b3
      · left; simp [Stage.onAnswer, getchAnswer, decodeChannels, h0, h1, h2, h3]
      exact .inr (.inr (.inl ⟨_, _, by simp only [Stage.onAnswer, getchAnswer, decodeChannels, h0, h1, h2, h3, withLatch_some]; rfl, same _⟩))
  | getgn =>
    cases res with
    | fail => exact .inr (.inr (.inl ⟨s, _, rfl, .refl s⟩))
    | done bs =>
      rcases h0 : s.lat.raw0 with _ | b0
      · left; simp [Stage.onAnswer, getgnAnswer, decodeGain, h0]
      cases hg : gainTable (gaincode b0) with
      | reserved =>
        exact .inr (.inr (.inl ⟨_, _, by simp only [Stage.onAnswer, getgnAnswer, decodeGain, h0, withLatch_some, State.setG_eq, State.setLat_lat, hg]; rfl, same _⟩))
      | valid m =>
        exact .inr (.inr (.inl ⟨_, _, by simp only [Stage.onAnswer, getgnAnswer, decodeGain, h0, withLatch_some, State.setG_eq, State.setLat_lat, hg]; rfl, same _⟩))
  | getrh =>
    rcases readCode_cases res s (fun ok s => withLatch s.lat.code fun code =>
      .next (s.complete { outcome := thsOutcome ok, payload := .value (rhPoly s.num code) })) with h | ⟨ok, c, t, h, hs, hc, -⟩
    · exact .inl h
    · exact .inr (.inr (.inl ⟨t, _, h.trans (by simp only [hc, withLatch_some]; rfl), hs⟩))
  | gett =>
    rcases readCode_cases res s (fun ok s => withLatch s.lat.code fun code =>
      .next (s.complete { outcome := thsOutcome ok, payload := .value (tPoly s.num code) })) with h | ⟨ok, c, t, h, hs, hc, -⟩
    · exact .inl h
    · exact .inr (.inr (.inl ⟨t, _, h.trans (by simp only [hc, withLatch_some]; rfl), hs⟩))
  | lightStatus =>
    cases res with
    | fail => exact .inr (.inr (.inl ⟨s, _, rfl, .refl s⟩))
    | done bs =>
      rcases h0 : s.lat.raw0 with _ | b0
      · left; simp [Stage.onAnswer, lightStatusAnswer, decodeStatus, h0]
      cases hv : statusValid b0 with
      | false =>
        exact .inr (.inr (.inl ⟨_, _, by simp only [Stage.onAnswer, lightStatusAnswer, decodeStatus, h0, withLatch_some, State.setSt_eq, State.setLat_lat, hv]; rfl, same _⟩))
      | true =>
        exact .inr (.inl ⟨.lightChannels, (s.setSt b0).setSeq .ready, by simp [Stage.onAnswer, lightStatusAnswer, decodeStatus, h0, hv], ⟨rfl, rfl, rfl, rfl, rfl, rfl, rfl, rfl, rfl, rfl, rfl⟩, by decide, rfl, rfl⟩)
  | lightChannels =>
    cases res with
    | fail => exact .inr (.inr (.inl ⟨s, _, rfl, .refl s⟩))
    | done bs =>
      rcases h0 : s.lat.raw0 with _ | b0
      · left; simp [Stage.onAnswer, lightChannelsAnswer, decodeChannels, h0]
      rcases h1 : s.lat.raw1 with _ | b1
      · left; simp [Stage.onAnswer, lightChannelsAnswer, decodeChannels, h0, h1]
      rcases h2 : s.lat.raw2 with _ | b2
      · left; simp [Stage.onAnswer, lightChannelsAnswer, decodeChannels, h0, h1, h2]
      rcases h3 : s.lat.raw3 with _ | b3
      · left; simp [Stage.onAnswer, lightChannelsAnswer, decodeChannels, h0, h1, h2, h3]
      exact .inr (.inl ⟨.lightGain, _, by simp only [Stage.onAnswer, lightChannelsAnswer, decodeChannels, h0, h1, h2, h3, withLatch_some]; rfl, same _, by decide, rfl, rfl⟩)
  | lightGain =>
    cases res with
    | fail => exact .inr (.inr (.inl ⟨s, _, rfl, .refl s⟩))
    | done bs =>
      rcases h0 : s.lat.raw0 with _ | b0
      · left; simp [Stage.onAnswer, lightGainAnswer, decodeGain, h0]
      cases hg : gainTable (gaincode b0) with
      | reserved =>
        exact .inr (.inr (.inl ⟨_, _, by simp only [Stage.onAnswer, lightGainAnswer, decodeGain, h0, withLatch_some, State.setG_eq, State.setLat_lat, hg]; rfl, same _⟩))
      | valid m =>
        exact .inr (.inl ⟨.lightRate, _, by simp only [Stage.onAnswer, lightGainAnswer, decodeGain, h0, withLatch_some, State.setG_eq, State.setLat_lat, hg]; rfl, same _, by decide, rfl, rfl⟩)
  | lightRate =>
    cases res with
    | fail => exact .inr (.inr (.inl ⟨s, _, rfl, .refl s⟩))
    | done bs =>
      rcases h0 : s.lat.raw0 with _ | b0
      · left; simp [Stage.onAnswer, lightRateAnswer, decodeRate, h0]
      rcases hg : s.lat.g with _ | g
      · left; simp [Stage.onAnswer, lightRateAnswer, decodeRate, fetchLightStore, h0, hg]
      cases g with
      | reserved =>
        exact .inr (.inr (.inl ⟨_, _, by simp only [Stage.onAnswer, lightRateAnswer, decodeRate, fetchLightStore, h0, withLatch_some, State.setIt_eq, State.setIc_eq, State.setLat_lat, hg]; rfl, same _⟩))
      | valid m =>
        rcases ha : s.lat.ch0 with _ | a
        · left; simp [Stage.onAnswer, lightRateAnswer, decodeRate, fetchLightStore, h0, hg, ha]
        rcases hb : s.lat.ch1 with _ | b
        · left; simp [Stage.onAnswer, lightRateAnswer, decodeRate, fetchLightStore, h0, hg, ha, hb]
        exact .inr (.inr (.inr (.inl ⟨_, _, by simp only [Stage.onAnswer, lightRateAnswer, decodeRate, fetchLightStore, h0, withLatch_some, State.setIt_eq, State.setIc_eq, State.setLat_lat, hg, ha, hb]; rfl, ⟨rfl, rfl, rfl, rfl, rfl, rfl, rfl, rfl, rfl, rfl, rfl⟩, rfl⟩)))
  | thsHum =>
    rcases readCode_cases res s (fun okH s => withLatch s.lat.code fun codeH =>
      issue (.thsTemp okH codeH) (thsTempAnswer okH codeH) s) with h | ⟨ok, c, t, h, hs, hc, -⟩
    · exact .inl h
    · exact .inr (.inl ⟨.thsTemp ok c, t, h.trans (by simp only [hc, withLatch_some]; rfl), hs, by simp [Stage.rank], rfl, rfl⟩)
  | thsTemp okH codeH =>
    rcases readCode_cases res s (fun okT s => withLatch s.lat.code fun codeT =>
      .next (((s.writeCell .hum (rhPoly s.num codeH)).writeCell .temp (tPoly s.num codeT)).complete
        { outcome := thsOutcome (okH && okT), payload := .none })) with h | ⟨ok, c, t, h, hs, hc, -⟩
    · exact .inl h
    · exact .inr (.inr (.inr (.inr ⟨t, _, _, _, okH, codeH, h.trans (by simp only [hc, withLatch_some]; rfl), hs, rfl⟩)))

/-! ### Commands as acceptance and a body -/

/-- What a command does once accepted: its first request, or its answer at once. -/
def bodyOf (i : Instr) (s : State) : Out :=
  match firstStage s.kind i with
  | some st => issue st st.onAnswer s
  | none =>
    match i with
    | .clux ch0 ch1 gain itime => reply (.lux (lux s.num ch0 ch1 gain itime)) s
    | .get sel => getBody sel s
    | _ => raise .unsupported s

/-- Every command is acceptance followed by its body. -/
theorem exec_eq_accept (i : Instr) (s : State) : exec i s = accept i (firstSeq s.kind i) (bodyOf i) s := by
  have key : ∀ (j : Instr) (q : Seq) (f g : State → Out), f (s.start q) = g (s.start q) →
      accept j q f s = accept j q g s := by
    intro j q f g h; simp only [accept, h]
  cases i <;> simp only [exec, execRdb, execRdn, execWrb, execChknd, execGetit, execGetch, execGetgn, execClux,
    execGetrh, execGett, execFetch, execGet, firstSeq] <;> apply key <;> try rfl
  simp only [fetchBody, bodyOf, firstStage]
  cases fetchPlan (s.start (fetchSeq s.kind _)).kind _ <;> rfl

end Sys2Proof.Machine
end

