-- ==== Sys2Proof/Laws/PerInstr.lean ====
section
/-! SUPPORT. What holds of every command as syntax, one lemma per constructor: the opcode of its row stands in bits
63:56 of its word (R87, R89). -/

namespace Sys2Proof.Laws.EncodedOpcode

/-- The opcode field of a command's word is its row's opcode. -/
def Statement (i : Instr) : Prop := (encode i).extractLsb' 56 8 = i.op.code

theorem rdb (addr : Byte) : Statement (.rdb addr) := by
  simp only [Statement, encode, Instr.op, BitVec.extractLsb'_or]
  simp [extract_place_disjoint addr 0 56 8]

theorem rdn (addr n : Byte) : Statement (.rdn addr n) := by
  simp only [Statement, encode, Instr.op, BitVec.extractLsb'_or]
  simp [extract_place_disjoint addr 0 56 8, extract_place_disjoint n 8 56 8]

theorem wrb (addr value : Byte) : Statement (.wrb addr value) := by
  simp only [Statement, encode, Instr.op, BitVec.extractLsb'_or]
  simp [extract_place_disjoint addr 0 56 8, extract_place_disjoint value 8 56 8]

theorem chknd : Statement .chknd := by unfold Statement; decide
theorem getit : Statement .getit := by unfold Statement; decide
theorem getch : Statement .getch := by unfold Statement; decide
theorem getgn : Statement .getgn := by unfold Statement; decide

theorem clux (ch0 ch1 : Half) (gain : Byte) (itime : Half) : Statement (.clux ch0 ch1 gain itime) := by
  simp only [Statement, encode, Instr.op, BitVec.extractLsb'_or]
  simp [extract_place_disjoint ch0 0 56 8, extract_place_disjoint ch1 16 56 8, extract_place_disjoint gain 32 56 8,
    extract_place_disjoint itime 40 56 8]

theorem getrh : Statement .getrh := by unfold Statement; decide
theorem gett : Statement .gett := by unfold Statement; decide

theorem fetch (sel : Byte) : Statement (.fetch sel) := by
  simp only [Statement, encode, Instr.op, BitVec.extractLsb'_or]
  simp [extract_place_disjoint sel 0 56 8]

theorem get (sel : Byte) : Statement (.get sel) := by
  simp only [Statement, encode, Instr.op, BitVec.extractLsb'_or]
  simp [extract_place_disjoint sel 0 56 8]

end Sys2Proof.Laws.EncodedOpcode
end

