-- ==== Sys2Proof/Laws/Ranges.lean ====
section
/-! SUPPORT. What holds under every `NUM`: conversions are exact and the numbers that reach the cache have integer parts
within the limit of R139 (f). Under the three formats the spec names every operation is close to the exact one, so that
the integer parts are in the ranges of R210. -/

namespace Sys2Proof.Machine

open Sys2Proof.Config (Q Numerics)

/-! ### Operations close to the exact ones -/

/-- A result within `2^-22` of the exact one. -/
def Close (q x : Q) : Prop := |x - q| ≤ |q| / 2 ^ 22

/-- An exact result is close. -/
theorem Close.refl (q : Q) : Close q q := by
  unfold Close; rw [sub_self, abs_zero]; positivity

/-- Rounding to 22 bits or more is close. -/
theorem roundBinary_close {p : Nat} (h : 22 ≤ p) (q : Q) : Close q (roundBinary p q) := by
  refine (roundBinary_relError p q).trans ?_
  rw [div_eq_mul_inv]
  refine mul_le_mul_of_nonneg_left ?_ (abs_nonneg q)
  rw [pow2_eq_zpow, ← zpow_natCast, ← zpow_neg]
  exact zpow_le_zpow_right₀ (by norm_num) (by push_cast; omega)

/-- A number close to one that is not negative lies between two multiples of it. -/
theorem Close.bounds {q x : Q} (h : Close q x) (h0 : 0 ≤ q) : q * (1 - 1 / 2 ^ 22) ≤ x ∧ x ≤ q * (1 + 1 / 2 ^ 22) := by
  unfold Close at h
  rw [abs_of_nonneg h0, abs_le] at h
  constructor <;> linarith [h.1, h.2]

/-- A number close to one that is not negative is not negative. -/
theorem Close.nonneg {q x : Q} (h : Close q x) (h0 : 0 ≤ q) : 0 ≤ x := by
  refine le_trans (mul_nonneg h0 ?_) (h.bounds h0).1
  norm_num

/-- A record of numbers whose conversions and comparison are exact (R10, R11) and whose other operations are close to the
exact ones. -/
structure Accurate (N : Numerics Q) : Prop where
  ofNat : ∀ n : Nat, N.ofNat n = n
  lt : ∀ a b, N.lt a b = decide (a < b)
  trunc : ∀ a, N.trunc a = truncQ a
  ofDec : ∀ n d : Nat, Close ((n : Q) / (d : Q)) (N.ofDec n d)
  add : ∀ a b, Close (a + b) (N.add a b)
  sub : ∀ a b, Close (a - b) (N.sub a b)
  mul : ∀ a b, Close (a * b) (N.mul a b)
  div : ∀ a b, Close (a / b) (N.div a b)

/-- Exact arithmetic is accurate. -/
theorem exact_accurate : Accurate exact :=
  ⟨fun _ => rfl, fun _ _ => rfl, fun _ => rfl, fun _ _ => .refl _, fun _ _ => .refl _, fun _ _ => .refl _,
    fun _ _ => .refl _, fun _ _ => .refl _⟩

/-- A binary format of 22 bits or more is accurate. -/
theorem binary_accurate {p : Nat} (h : 22 ≤ p) : Accurate (binary p) :=
  ⟨fun _ => rfl, fun _ _ => rfl, fun _ => rfl, fun _ _ => roundBinary_close h _, fun _ _ => roundBinary_close h _,
    fun _ _ => roundBinary_close h _, fun _ _ => roundBinary_close h _, fun _ _ => roundBinary_close h _⟩

/-- The records of the three formats the spec names are accurate. -/
theorem numerics_accurate {n : Numeric} (h : n.named = true) : Accurate (numerics n) := by
  cases n with
  | exact => exact exact_accurate
  | binary32 => exact binary_accurate (by norm_num)
  | binary64 => exact binary_accurate (by norm_num)
  | other i => cases h

/-! ### The ranges of R210 under an accurate record -/

/-- The integer part of a number between two integers. -/
theorem truncQ_range {v : Q} {lo hi : Int} (h0 : lo ≤ 0) (h1 : 0 ≤ hi) (h2 : (lo : Q) - 1 < v) (h3 : v < (hi : Q) + 1) :
    lo ≤ truncQ v ∧ truncQ v ≤ hi := by
  have d0 : (0 : Int) < v.den := by exact_mod_cast v.den_pos
  have dq : (0 : Q) < v.den := by exact_mod_cast v.den_pos
  have e : (v.num : Q) = v * v.den := (Rat.mul_den_eq_num v).symm
  have l : (lo - 1) * v.den < v.num := by
    have : ((lo : Q) - 1) * v.den < v.num := by rw [e]; exact mul_lt_mul_of_pos_right h2 dq
    exact_mod_cast this
  have u : v.num < (hi + 1) * v.den := by
    have : (v.num : Q) < ((hi : Q) + 1) * v.den := by rw [e]; exact mul_lt_mul_of_pos_right h3 dq
    exact_mod_cast this
  unfold truncQ
  rcases le_total 0 v.num with hn | hn
  · rw [Int.tdiv_eq_ediv_of_nonneg hn]
    exact ⟨h0.trans (Int.ediv_nonneg hn d0.le), Int.lt_add_one_iff.1 (Int.ediv_lt_of_lt_mul d0 u)⟩
  · rw [← neg_neg v.num, Int.neg_tdiv, Int.tdiv_eq_ediv_of_nonneg (by omega)]
    have h4 : -v.num / v.den < -lo + 1 := Int.ediv_lt_of_lt_mul d0 (by linarith)
    have h5 : 0 ≤ -v.num / v.den := Int.ediv_nonneg (by omega) d0.le
    omega

/-- The range of a 16-bit value. -/
theorem half_le (c : Half) : (0 : Q) ≤ c.toNat ∧ (c.toNat : Q) ≤ 65535 :=
  ⟨Nat.cast_nonneg _, by exact_mod_cast Nat.le_of_lt_succ c.isLt⟩


/-- Bounds of a close result, from bounds of the exact one. -/
theorem Close.between {q x lo hi : Q} (h : Close q x) (l : lo ≤ q) (u : q ≤ hi) :
    lo - (|lo| ⊔ |hi|) / 2 ^ 22 ≤ x ∧ x ≤ hi + (|lo| ⊔ |hi|) / 2 ^ 22 := by
  have a : |q| ≤ |lo| ⊔ |hi| := abs_le_max_abs_abs l u
  unfold Close at h
  rw [abs_le] at h
  have := div_le_div_of_nonneg_right a (show (0 : Q) ≤ 2 ^ 22 by norm_num)
  constructor <;> linarith [h.1, h.2]

/-- R210 for the humidity. -/
theorem Accurate.rhPoly {N : Numerics Q} (A : Accurate N) (c : Half) :
    -6 ≤ truncQ (rhPolyWith N c) ∧ truncQ (rhPolyWith N c) ≤ 118 := by
  obtain ⟨c0, c1⟩ := half_le c
  have m := (A.mul ((125 : Nat) : Q) c.toNat).between (lo := 0) (hi := 8191875)
    (by push_cast; linarith) (by push_cast; linarith)
  have d := (A.div (N.mul ((125 : Nat) : Q) c.toNat) ((65536 : Nat) : Q)).between (lo := -1 / 10000)
    (hi := 124998125 / 1000000) (by push_cast; norm_num at m; linarith [m.1])
    (by push_cast; norm_num at m; linarith [m.2])
  have r := (A.sub (N.div (N.mul ((125 : Nat) : Q) c.toNat) ((65536 : Nat) : Q))
    ((6 : Nat) : Q)).between (lo := -61 / 10) (hi := 11899820 / 100000)
    (by push_cast; norm_num at d; linarith [d.1]) (by push_cast; norm_num at d; linarith [d.2])
  unfold rhPolyWith
  rw [A.ofNat, A.ofNat, A.ofNat, A.ofNat]
  norm_num at r
  exact truncQ_range (by norm_num) (by norm_num) (by push_cast; linarith [r.1]) (by push_cast; linarith [r.2])

/-- R210 for the temperature. -/
theorem Accurate.tPoly {N : Numerics Q} (A : Accurate N) (c : Half) :
    -46 ≤ truncQ (tPolyWith N c) ∧ truncQ (tPolyWith N c) ≤ 128 := by
  obtain ⟨c0, c1⟩ := half_le c
  have k := (A.ofDec 17572 100).between (lo := 17572 / 100) (hi := 17572 / 100) (by norm_num) (by norm_num)
  have w := (A.ofDec 4685 100).between (lo := 4685 / 100) (hi := 4685 / 100) (by norm_num) (by norm_num)
  norm_num at k w
  have m := (A.mul (N.ofDec 17572 100) c.toNat).between (lo := 0) (hi := 1757201 / 10000 * 65535)
    (mul_nonneg (by linarith [k.1]) c0)
    (mul_le_mul (by linarith [k.2]) c1 c0 (by norm_num))
  norm_num at m
  have d := (A.div (N.mul (N.ofDec 17572 100) c.toNat) ((65536 : Nat) : Q)).between
    (lo := -1 / 1000) (hi := 175719 / 1000) (by push_cast; linarith [m.1]) (by push_cast; linarith [m.2])
  norm_num at d
  have r := (A.sub (N.div (N.mul (N.ofDec 17572 100) c.toNat) ((65536 : Nat) : Q))
    (N.ofDec 4685 100)).between (lo := -4686 / 100) (hi := 1289 / 10)
    (by push_cast; linarith [d.1, w.2]) (by push_cast; linarith [d.2, w.1])
  norm_num at r
  unfold tPolyWith
  rw [A.ofNat, A.ofNat]
  exact truncQ_range (by norm_num) (by norm_num) (by push_cast; linarith [r.1]) (by push_cast; linarith [r.2])

/-- What an accurate comparison of a ratio of two channels with an edge of a band says: rounding cannot carry a ratio
across an edge, because every ratio that is not on it is far enough away (R162). -/
theorem ratio_edge {N : Numerics Q} (A : Accurate N) {b s x y p q : Nat} (hs : 0 < s) (hb : b ≤ 65535)
    (hs' : s ≤ 131070) (e : (x : Q) / y = (p : Q) / q) (hq : 0 < q) (hq' : q ≤ 25) (hp : p ≤ 17) :
    (N.div b s < N.ofDec x y → q * b ≤ p * s) ∧ (¬N.div b s < N.ofDec x y → p * s ≤ q * b) := by
  have s0 : (0 : Q) < s := by exact_mod_cast hs
  have q0 : (0 : Q) < q := by exact_mod_cast hq
  have r := (A.div b s).bounds (by positivity)
  have l := (A.ofDec x y).bounds (by rw [e]; positivity)
  rw [e] at l
  have key : ∀ u v : Q, (u - v) * 2 ^ 22 < 2 ^ 22 → u - v < 1 := by intro u v h; linarith
  have hqb : (q : Q) * b ≤ 25 * 65535 := by
    have : q * b ≤ 25 * 65535 := Nat.mul_le_mul hq' hb
    exact_mod_cast this
  have hps : (p : Q) * s ≤ 17 * 131070 := by
    have : p * s ≤ 17 * 131070 := Nat.mul_le_mul hp hs'
    exact_mod_cast this
  have b1 : (b : Q) / s * (s * q) = q * b := by field_simp
  have p1 : (p : Q) / q * (s * q) = p * s := by field_simp
  have sq : (0 : Q) < s * q := by positivity
  constructor
  · intro h
    have h : (b : Q) / s * (1 - 1 / 2 ^ 22) < p / q * (1 + 1 / 2 ^ 22) := by linarith [r.1, l.2]
    have h := mul_lt_mul_of_pos_right h sq
    have h : (q : Q) * b * (1 - 1 / 2 ^ 22) < p * s * (1 + 1 / 2 ^ 22) := by rw [← b1, ← p1]; linarith
    have h : (q : Q) * b < p * s + 1 := by norm_num at h ⊢; linarith
    have h : q * b < p * s + 1 := by exact_mod_cast h
    omega
  · intro h
    have h : (p : Q) / q * (1 - 1 / 2 ^ 22) ≤ b / s * (1 + 1 / 2 ^ 22) := by linarith [r.2, l.1]
    have h := mul_le_mul_of_nonneg_right h sq.le
    have h : (p : Q) * s * (1 - 1 / 2 ^ 22) ≤ q * b * (1 + 1 / 2 ^ 22) := by rw [← b1, ← p1]; linarith
    have h : (p : Q) * s < q * b + 1 := by norm_num at h ⊢; linarith
    have h : p * s < q * b + 1 := by exact_mod_cast h
    omega

/-- A coefficient times a channel. -/
theorem Accurate.scaled {N : Numerics Q} (A : Accurate N) (n d : Nat) (a : Nat) :
    (n : Q) / d * a * (1 - 1 / 2 ^ 22) ^ 2 ≤ N.mul (N.ofDec n d) a ∧
    N.mul (N.ofDec n d) a ≤ (n : Q) / d * a * (1 + 1 / 2 ^ 22) ^ 2 := by
  have a0 : (0 : Q) ≤ a := Nat.cast_nonneg a
  have k := (A.ofDec n d).bounds (by positivity)
  have k0 := (A.ofDec n d).nonneg (by positivity)
  have m := (A.mul (N.ofDec n d) a).bounds (mul_nonneg k0 a0)
  constructor
  · refine le_trans ?_ m.1
    have := mul_le_mul_of_nonneg_right (mul_le_mul_of_nonneg_right k.1 a0) (show (0 : Q) ≤ 1 - 1 / 2 ^ 22 by norm_num)
    linarith
  · refine m.2.trans ?_
    have := mul_le_mul_of_nonneg_right (mul_le_mul_of_nonneg_right k.2 a0) (show (0 : Q) ≤ 1 + 1 / 2 ^ 22 by norm_num)
    linarith

/-- The denominator of the lux formula. -/
theorem Accurate.denom {N : Numerics Q} (A : Accurate N) (g t : Nat) :
    0 ≤ N.mul g (N.div t 100) ∧ (1 ≤ g → 50 ≤ t → 4999997 / 10000000 ≤ N.mul g (N.div t 100)) := by
  have g0 : (0 : Q) ≤ g := Nat.cast_nonneg g
  have h := (A.div t 100).bounds (by positivity)
  have h0 := (A.div t 100).nonneg (by positivity)
  refine ⟨(A.mul g _).nonneg (mul_nonneg g0 h0), fun hg ht => ?_⟩
  have hg : (1 : Q) ≤ g := by exact_mod_cast hg
  have ht : (50 : Q) ≤ t := by exact_mod_cast ht
  have m := (A.mul g (N.div t 100)).bounds (mul_nonneg g0 h0)
  have l : (49999988 : Q) / 100000000 ≤ N.div t 100 := by norm_num at h; linarith [h.1]
  have : (49999988 : Q) / 100000000 ≤ g * N.div t 100 := by nlinarith
  norm_num at m
  linarith [m.1]

/-- The last division of the lux formula. -/
theorem Accurate.quotient {N : Numerics Q} (A : Accurate N) {x d : Q} (x0 : 0 ≤ x) (d0 : 0 ≤ d) :
    0 ≤ N.div x d ∧ (x ≤ 17557620 / 100 → 4999997 / 10000000 ≤ d → N.div x d < 351153) := by
  refine ⟨(A.div x d).nonneg (div_nonneg x0 d0), fun hx hd => ?_⟩
  have q := (A.div x d).bounds (div_nonneg x0 d0)
  have : x / d ≤ 3511526108 / 10000 := by
    rw [div_le_iff₀ (by linarith)]
    nlinarith
  norm_num at q
  linarith [q.2]

/-- R161 and R210 for lux: never negative, and with the gains and times of the tables an integer part of at most
351152. -/
theorem Accurate.lux {N : Numerics Q} (A : Accurate N) (ch0 ch1 : Half) (gain : Byte) (itime : Half) :
    0 ≤ luxWith N ch0 ch1 gain itime ∧
    (1 ≤ gain.toNat → 50 ≤ itime.toNat →
      0 ≤ truncQ (luxWith N ch0 ch1 gain itime) ∧ truncQ (luxWith N ch0 ch1 gain itime) ≤ 351152) := by
  suffices H : 0 ≤ luxWith N ch0 ch1 gain itime ∧
      (1 ≤ gain.toNat → 50 ≤ itime.toNat → luxWith N ch0 ch1 gain itime < 351153) by
    refine ⟨H.1, fun hg ht => truncQ_range (lo := 0) (hi := 351152) le_rfl (by norm_num) ?_ ?_⟩
    · push_cast; linarith [H.1]
    · have := H.2 hg ht; push_cast; linarith
  have ha := ch0.isLt
  have hb := ch1.isLt
  have hsum : (channelSum ch0 ch1).toNat = ch0.toNat + ch1.toNat := by
    unfold channelSum
    rw [BitVec.toNat_add, BitVec.toNat_setWidth, BitVec.toNat_setWidth, Nat.mod_eq_of_lt (a := ch0.toNat) (by omega),
      Nat.mod_eq_of_lt (a := ch1.toNat) (by omega), Nat.mod_eq_of_lt (by omega)]
  have zero : (0 : Q) ≤ 0 ∧ (1 ≤ gain.toNat → 50 ≤ itime.toNat → (0 : Q) < 351153) := ⟨le_rfl, fun _ _ => by norm_num⟩
  unfold luxWith
  simp only [A.ofNat]
  split
  · exact_mod_cast zero
  next hz =>
  have hs : 0 < ch0.toNat + ch1.toNat := by
    rw [← hsum]
    exact Nat.pos_of_ne_zero fun h => hz (BitVec.eq_of_toNat_eq h)
  obtain ⟨d0, d1⟩ := A.denom gain.toNat itime.toNat
  have e1 := ratio_edge A (x := 45) (y := 100) (p := 9) (q := 20) hs (Nat.le_of_lt_succ hb) (by omega)
    (by norm_num) (by norm_num) (by norm_num) (by norm_num)
  have e2 := ratio_edge A (x := 64) (y := 100) (p := 16) (q := 25) hs (Nat.le_of_lt_succ hb) (by omega)
    (by norm_num) (by norm_num) (by norm_num) (by norm_num)
  unfold bandWith
  simp only [A.ofNat, A.lt, hsum, decide_eq_true_eq]
  have qa : (0 : Q) ≤ ch0.toNat := Nat.cast_nonneg _
  have qb : (0 : Q) ≤ ch1.toNat := Nat.cast_nonneg _
  have fin : ∀ x : Q, 0 ≤ x → x ≤ 17557620 / 100 →
      0 ≤ N.div x (N.mul gain.toNat (N.div itime.toNat ((100 : Nat) : Q))) ∧
      (1 ≤ gain.toNat → 50 ≤ itime.toNat →
        N.div x (N.mul gain.toNat (N.div itime.toNat ((100 : Nat) : Q))) < 351153) :=
    fun x x0 x1 =>
      ⟨(A.quotient x0 (by exact_mod_cast d0)).1, fun hg ht =>
        (A.quotient x0 (by exact_mod_cast d0)).2 x1 (by exact_mod_cast d1 hg ht)⟩
  have a1 := A.scaled 17743 10000 ch0.toNat
  have a2 := A.scaled 11059 10000 ch1.toNat
  have b1 := A.scaled 42785 10000 ch0.toNat
  have b2 := A.scaled 19548 10000 ch1.toNat
  have c1 := A.scaled 5926 10000 ch0.toNat
  have c2 := A.scaled 1185 10000 ch1.toNat
  norm_num at a1 a2 b1 b2 c1 c2
  by_cases h1 : N.div ch1.toNat ((ch0.toNat + ch1.toNat : Nat) : Q) < N.ofDec 45 100
  · simp only [h1, if_true]
    have hx := e1.1 h1
    have lim : 17743 * ch0.toNat + 11059 * ch1.toNat ≤ 1755760026 := by omega
    have lim : 17743 * (ch0.toNat : Q) + 11059 * ch1.toNat ≤ 1755760026 := by exact_mod_cast lim
    have x := (A.add _ _).bounds (add_nonneg (by linarith [a1.1]) (by linarith [a2.1]) :
      0 ≤ N.mul (N.ofDec 17743 10000) ch0.toNat +
        N.mul (N.ofDec 11059 10000) ch1.toNat)
    norm_num at x
    exact fin _ (by linarith [x.1, a1.1, a2.1]) (by linarith [x.2, a1.2, a2.2])
  have hy := e1.2 h1
  by_cases h2 : N.div ch1.toNat ((ch0.toNat + ch1.toNat : Nat) : Q) < N.ofDec 64 100
  · simp only [h1, h2, if_true, if_false]
    have hx := e2.1 h2
    have low : 4 * (19548 * ch1.toNat) + 3 * ch0.toNat ≤ 4 * (42785 * ch0.toNat) := by omega
    have low : 4 * (19548 * (ch1.toNat : Q)) + 3 * ch0.toNat ≤ 4 * (42785 * ch0.toNat) := by exact_mod_cast low
    have lim : 42785 * ch0.toNat ≤ 19548 * ch1.toNat + 1755751215 := by
      rcases Nat.lt_or_ge ch0.toNat 65535 with h | h <;> omega
    have lim : 42785 * (ch0.toNat : Q) ≤ 19548 * ch1.toNat + 1755751215 := by exact_mod_cast lim
    have cap : (ch0.toNat : Q) ≤ 65535 ∧ (ch1.toNat : Q) ≤ 65535 := ⟨(half_le ch0).2, (half_le ch1).2⟩
    have nn : 0 ≤ N.mul (N.ofDec 42785 10000) ch0.toNat -
        N.mul (N.ofDec 19548 10000) ch1.toNat := by linarith [b1.1, b2.2]
    have x := (A.sub _ _).bounds nn
    norm_num at x
    exact fin _ (by linarith [x.1]) (by linarith [x.2, b1.2, b2.1, cap.1, cap.2])
  by_cases h3 : N.div ch1.toNat ((ch0.toNat + ch1.toNat : Nat) : Q) < N.ofDec 85 100
  · simp only [h1, h2, h3, if_true, if_false]
    have cap : (ch0.toNat : Q) ≤ 65535 ∧ (ch1.toNat : Q) ≤ 65535 := ⟨(half_le ch0).2, (half_le ch1).2⟩
    have x := (A.add _ _).bounds (add_nonneg (by linarith [c1.1]) (by linarith [c2.1]) :
      0 ≤ N.mul (N.ofDec 5926 10000) ch0.toNat +
        N.mul (N.ofDec 1185 10000) ch1.toNat)
    norm_num at x
    exact fin _ (by linarith [x.1, c1.1, c2.1]) (by linarith [x.2, c1.2, c2.2, cap.1, cap.2])
  · simp only [h1, h2, h3, if_false]
    exact_mod_cast zero

/-! ### The limit of R139 (f) under every `NUM` -/

/-- Every gain of the table is at least 1. -/
theorem gainTable_pos {c : Code3} {m : Byte} : gainTable c = .valid m → 1 ≤ m.toNat := by
  revert c m; decide +kernel

/-- Every time of the table is at least 50 ms. -/
theorem itimeTable_ge (d : Code3) : 50 ≤ (itimeTable d).toNat := by
  revert d; decide

/-- What the limit says. -/
theorem withinLimit_iff (N : Numerics Q) :
    withinLimit N = true ↔
      (∀ code : Half, (intPartWith N (rhPolyWith N code)).natAbs ≤ 351152) ∧
      (∀ code : Half, (intPartWith N (tPolyWith N code)).natAbs ≤ 351152) ∧
      ∀ (ch0 ch1 : Half) (c d : Code3) (m : Byte), gainTable c = .valid m →
        (intPartWith N (luxWith N ch0 ch1 m (itimeTable d))).natAbs ≤ 351152 := by
  unfold withinLimit; exact decide_eq_true_iff

/-- An accurate record meets the limit. -/
theorem Accurate.withinLimit {N : Numerics Q} (A : Accurate N) : Machine.withinLimit N = true := by
  rw [withinLimit_iff]
  simp only [intPartWith, A.trunc]
  refine ⟨fun c => ?_, fun c => ?_, fun a b c d m h => ?_⟩
  · have := A.rhPoly c; omega
  · have := A.tPoly c; omega
  · have := (A.lux a b m (itimeTable d)).2 (gainTable_pos h) (itimeTable_ge d); omega

/-- Operations whose record meets the limit are taken as they are. -/
@[simp] theorem limited_of_withinLimit {A : Config.Arithmetic Q} (h : withinLimit (overQ A) = true) : limited A = A :=
  if_pos h

/-- The record of every `NUM` meets the limit of R139 (f). -/
theorem numerics_withinLimit (n : Numeric) : withinLimit (numerics n) = true := by
  cases h : n.named with
  | true => exact (numerics_accurate h).withinLimit
  | false =>
    cases n with
    | other i =>
      unfold numerics limited
      simp only
      split
      · assumption
      · exact exact_accurate.withinLimit
    | exact => cases h
    | binary32 => cases h
    | binary64 => cases h

/-- Conversion from an unsigned integer is exact under every `NUM` (R10, R139 (d)). -/
theorem numerics_ofNat (n : Numeric) (k : Nat) : (numerics n).ofNat k = k := by cases n <;> rfl

/-- Rounding toward zero is R11's under every `NUM`. -/
theorem numerics_trunc (n : Numeric) (v : Q) : (numerics n).trunc v = truncQ v := by cases n <;> rfl

/-- R139 (f) for the humidity. -/
theorem rhPoly_intPart (n : Numeric) (c : Half) : (truncQ (rhPoly n c)).natAbs ≤ 351152 := by
  rw [← numerics_trunc n]; exact ((withinLimit_iff _).1 (numerics_withinLimit n)).1 c

/-- R139 (f) for the temperature. -/
theorem tPoly_intPart (n : Numeric) (c : Half) : (truncQ (tPoly n c)).natAbs ≤ 351152 := by
  rw [← numerics_trunc n]; exact ((withinLimit_iff _).1 (numerics_withinLimit n)).2.1 c

/-- R139 (f) for lux, with the gains and times of the tables. -/
theorem lux_intPart (n : Numeric) (ch0 ch1 : Half) {c : Code3} {m : Byte} (d : Code3) (h : gainTable c = .valid m) :
    (truncQ (lux n ch0 ch1 m (itimeTable d))).natAbs ≤ 351152 := by
  rw [← numerics_trunc n]; exact ((withinLimit_iff _).1 (numerics_withinLimit n)).2.2 ch0 ch1 c d m h

end Sys2Proof.Machine
end

