-- ==== Sys2Proof/Laws/Step.lean ====
section
/-! SUPPORT. Said once: what waiting for an answer, a presented command and a step can do. -/

namespace Sys2Proof.Machine

/-! ### Waiting for an answer -/

/-- What a command does from one of its requests on, when that ends in a next state: what it keeps, what it adds. -/
structure SettleFrame (s t : State) (st : Stage) : Prop where
  kind : t.kind = s.kind
  num : t.num = s.num
  host : t.host = s.host
  /-- later requests are reads, at most as many as the pipeline has left -/
  bus : ∃ new, t.bus = s.bus ++ new ∧ new.length ≤ st.rank ∧ ∀ q ∈ new, q.r ≠ 0
  transport : ∃ used, s.transport = used ++ t.transport
  cellsWhileBusy : t.busy = true → s.busy = true → t.lux = s.lux ∧ t.temp = s.temp ∧ t.hum = s.hum
  cellsOutsideFetch : st.ofFetch = false → t.lux = s.lux ∧ t.temp = s.temp ∧ t.hum = s.hum
  written : ∀ c, s.written c = true → t.written c = true

/-- A pipeline's request is a read. -/
theorem request_read_of_fetch (k : Kind) {st : Stage} (h : st.ofFetch = true) : (st.request k).r ≠ 0 := by
  cases st <;> simp [Stage.ofFetch] at h <;> simp [Stage.request, readRequest]

/-- A cell's flag does not see a change outside the cells. -/
theorem written_of_cells {s t : State} (h : t.lux = s.lux ∧ t.temp = s.temp ∧ t.hum = s.hum) (c : CellName) :
    t.written c = s.written c := by
  cases c <;> simp [State.written, State.cell, h]

theorem settle_frame (st : Stage) (s t : State) (h : settle st st.onAnswer s = .next t) : SettleFrame s t st := by
  suffices H : ∀ (n : Nat) (st : Stage) (s t : State), st.rank < n → settle st st.onAnswer s = .next t →
      SettleFrame s t st from H _ st s t (Nat.lt_succ_self _) h
  clear h
  intro n
  induction n with
  | zero => intro st s t hr; exact absurd hr (Nat.not_lt_zero _)
  | succ n ih =>
    intro st s t hr h
    rcases settle_cases st st.onAnswer s with ⟨-, e⟩ | ⟨ts, ht, e⟩ | ⟨a, ts, res, ht, -, -, e⟩
    · rw [e] at h; cases h
      exact ⟨rfl, rfl, rfl, ⟨[], by simp⟩, ⟨[], rfl⟩, fun _ _ => ⟨rfl, rfl, rfl⟩, fun _ => ⟨rfl, rfl, rfl⟩, fun _ h => h⟩
    · rw [e] at h; cases h
      exact ⟨rfl, rfl, rfl, ⟨[], by simp⟩, ⟨[.notYet], ht⟩, fun _ _ => ⟨rfl, rfl, rfl⟩, fun _ => ⟨rfl, rfl, rfl⟩,
        fun _ h => h⟩
    · obtain ⟨l, hl⟩ := State.afterAnswer_eq (s := s.answered ts) (r := (st.request s.kind).r) (res := res)
      rw [e, hl] at h
      rcases onAnswer_cases st res ((s.answered ts).setLat l) with
        e | ⟨st', u, e, so, hlt, hf, hf'⟩ | ⟨u, r, e, so⟩ | ⟨u, v, e, so, rfl⟩ | ⟨u, hh, v, r, okH, codeH, e, so, rfl⟩
      · rw [e] at h; cases h
      · rw [e, issue] at h
        have S := ih st' _ t (by omega) h
        have c : u.lux = s.lux ∧ u.temp = s.temp ∧ u.hum = s.hum := ⟨so.lux, so.temp, so.hum⟩
        refine ⟨S.kind.trans so.kind, S.num.trans so.num, S.host.trans so.host, ?_, ?_, ?_, ?_, ?_⟩
        · obtain ⟨new, hb, hlen, hq⟩ := S.bus
          refine ⟨st'.request u.kind :: new, by rw [hb]; simp [so.bus], by simp; omega, ?_⟩
          intro q hq'
          rcases List.mem_cons.1 hq' with rfl | hq'
          · exact request_read_of_fetch _ hf'
          · exact hq q hq'
        · obtain ⟨used, hu⟩ := S.transport
          exact ⟨a :: used, by rw [ht, List.cons_append, ← hu]; simp [so.transport]⟩
        · intro h1 h2
          simpa [c] using S.cellsWhileBusy h1 (by simpa [so.busy] using h2)
        · intro h; rw [hf] at h; cases h
        · intro c' hc
          exact S.written c' (by simpa [State.written, State.cell] using (written_of_cells c c').trans hc)
      · rw [e] at h; cases h
        have c : u.lux = s.lux ∧ u.temp = s.temp ∧ u.hum = s.hum := ⟨so.lux, so.temp, so.hum⟩
        exact ⟨so.kind, so.num, so.host, ⟨[], by simp [so.bus], by simp, by simp⟩, ⟨[a], by simp [so.transport, ht]⟩,
          fun _ _ => c, fun _ => c, fun c' h => by
            cases c' <;> simpa [State.written, State.cell, so.lux, so.temp, so.hum] using h⟩
      · rw [e] at h; cases h
        exact ⟨so.kind, so.num, so.host, ⟨[], by simp [so.bus], by simp, by simp⟩, ⟨[a], by simp [so.transport, ht]⟩,
          fun h _ => (by cases h), fun h => (by cases h), fun c h => by
            cases c <;> simp_all [State.written, State.cell, so.lux, so.temp, so.hum]⟩
      · rw [e] at h; cases h
        exact ⟨so.kind, so.num, so.host, ⟨[], by simp [so.bus], by simp, by simp⟩, ⟨[a], by simp [so.transport, ht]⟩,
          fun h _ => (by cases h), fun h => (by cases h), fun c h => by
            cases c <;> simp_all [State.written, State.cell, so.lux, so.temp, so.hum]⟩

/-! ### A presented command -/

theorem Stage.rank_le (st : Stage) : st.rank ≤ 3 := by cases st <;> simp [Stage.rank]

/-- A command without a request ends at once. -/
theorem bodyOf_none {i : Instr} {s t : State} (hf : firstStage s.kind i = none) (h : bodyOf i s = .next t) :
    ∃ r, t = s.complete r := by
  unfold bodyOf at h; rw [hf] at h
  cases i <;> simp only [raise_eq, reply_eq, Host.Outcome.next.injEq] at h <;> try exact ⟨_, h.symm⟩
  unfold getBody at h
  split at h
  · exact ⟨_, by simpa [raise_eq] using h.symm⟩
  · split at h
    · cases h
    · exact ⟨_, by simpa [reply_eq] using h.symm⟩

/-- A command with a request waits for its answer. -/
theorem bodyOf_some {i : Instr} {s : State} {st : Stage} (hf : firstStage s.kind i = some st) :
    bodyOf i s = settle st st.onAnswer (s.request st) := by
  unfold bodyOf; rw [hf]; rfl

/-- If a command has a next state, it was illegal, or it ended at once, or it has put its first request. -/
theorem exec_cases {i : Instr} {s t : State} (h : exec i s = .next t) :
    (i.legalOn s.kind = false ∧ t = s.answer { outcome := .illegalCommand, payload := .none }) ∨
    (i.legalOn s.kind = true ∧ s.busy = false ∧ firstStage s.kind i = none ∧
      ∃ r, t = s.complete r ∧ bodyOf i (s.start (firstSeq s.kind i)) = .next t) ∨
    (i.legalOn s.kind = true ∧ s.busy = false ∧ ∃ st, firstStage s.kind i = some st ∧
      settle st st.onAnswer ((s.start (firstSeq s.kind i)).request st) = .next t) := by
  rw [exec_eq_accept] at h
  rcases accept_next_cases h with h | ⟨h1, h2, h3⟩
  · exact .inl h
  · cases hf : firstStage s.kind i with
    | none =>
      obtain ⟨r, hr⟩ := bodyOf_none (by simpa using hf) h3
      exact .inr (.inl ⟨h1, h2, rfl, r, hr, h3⟩)
    | some st => rw [bodyOf_some (by simpa using hf)] at h3; exact .inr (.inr ⟨h1, h2, st, rfl, h3⟩)

/-! ### Steps -/

theorem resume_cases {s t : State} (h : resume s = .next t) :
    t = s ∨ (s.busy = true ∧ ∃ st, s.pending = some st ∧ settle st st.onAnswer s = .next t) := by
  unfold resume at h
  split at h
  · exact .inr ⟨by assumption, _, by assumption, h⟩
  · cases h; exact .inl rfl
  · cases h; exact .inl rfl

/-- A word that stands first in the host's list in one of its two forms. -/
theorem presented_host {s : State} {w : CmdWord} (h : s.presented = some w) :
    s.host = .command w :: s.host.tail ∨ ∃ b, s.host = .inTurn w b :: s.host.tail ∧ s.busy = false := by
  unfold State.presented at h
  split at h
  · cases h
  · next w' hs e => cases h; exact .inl (by simp [e])
  · next w' b hs e =>
    split at h
    · cases h
    · next hc => cases h; exact .inr ⟨b, by simp [e], by revert hc; cases s.busy <;> simp⟩
  · cases h
  · cases h

/-- A step at which a word is presented. -/
theorem step_presented {s : State} {w : CmdWord} (h : s.presented = some w) :
    step s = present w { s with host := s.host.tail } := by
  unfold State.presented at h
  unfold step
  split at h
  · cases h
  · next w' hs e => cases h; simp only [e, act, List.tail_cons]
  · next w' b hs e =>
    split at h
    · cases h
    · next hc =>
      cases h
      simp only [e, act, List.tail_cons]
      revert hc
      cases s.busy <;> cases b <;> cases s.endedOk <;> simp
  · cases h
  · cases h

/-- A step at which none is: reset, a word that is dropped, or the sequencer goes on, the host's action used up or kept
for later. -/
theorem step_not_presented {s : State} (h : s.presented = none) :
    (s.host.head? = some .reset ∧ step s = .next ({ s with host := s.host.tail } : State).applyReset) ∨
    (s.host.head? ≠ some .reset ∧
      ((s.busy = false ∧ step s = .next { s with host := s.host.tail }) ∨
        ∃ hs, step s = resume { s with host := hs })) := by
  unfold State.presented at h
  unfold step
  split at h
  · next e => exact .inr ⟨by simp [e], .inr ⟨s.host, by simp only [e]; rw [← e]⟩⟩
  · cases h
  · next w b hs e =>
    cases hb : s.busy with
    | true => exact .inr ⟨by simp [e], .inr ⟨s.host, by simp only [e, act, hb, if_true]; rw [← e, ← hb]⟩⟩
    | false =>
      refine .inr ⟨by simp [e], .inl ⟨rfl, ?_⟩⟩
      rw [hb] at h
      cases b <;> cases he : s.endedOk <;> simp_all [act]
  · next hs e => exact .inl ⟨by simp [e], by simp only [e, act, List.tail_cons]⟩
  · next hs e => exact .inr ⟨by simp [e], .inr ⟨hs, by simp only [e, act]⟩⟩

/-- If a step has a next state, it was a reset, or a word was presented (illegal, or a command that was run), or the
sequencer went on, or the host's action was used up and nothing else changed. -/
theorem step_cases {s t : State} (h : step s = .next t) :
    (s.host.head? = some .reset ∧ t = ({ s with host := s.host.tail } : State).applyReset) ∨
    (∃ w, s.presented = some w ∧
      ((∃ e, decode w = .error e ∧
          t = ({ s with host := s.host.tail } : State).answer { outcome := .illegalCommand, payload := .none }) ∨
        ∃ i, decode w = .ok i ∧ exec i { s with host := s.host.tail } = .next t)) ∨
    (s.presented = none ∧ s.host.head? ≠ some .reset ∧ ((s.busy = false ∧ t = { s with host := s.host.tail }) ∨
      ∃ hs, resume { s with host := hs } = .next t)) := by
  cases hp : s.presented with
  | some w =>
    refine .inr (.inl ⟨w, rfl, ?_⟩)
    rw [step_presented hp] at h
    unfold present at h
    cases hd : decode w with
    | error e => rw [hd] at h; cases h; exact .inl ⟨e, rfl, rfl⟩
    | ok i => rw [hd] at h; exact .inr ⟨i, rfl, h⟩
  | none =>
    rcases step_not_presented hp with ⟨hh, e⟩ | ⟨hr, ⟨hb, e⟩ | ⟨hs, e⟩⟩
    · rw [e] at h; cases h; exact .inl ⟨hh, rfl⟩
    · rw [e] at h; cases h; exact .inr (.inr ⟨rfl, hr, .inl ⟨hb, rfl⟩⟩)
    · rw [e] at h; exact .inr (.inr ⟨rfl, hr, .inr ⟨hs, h⟩⟩)

end Sys2Proof.Machine
end

