-- ==== Sys2Proof/Tests/Slice0.lean ====
section
/-! SUPPORT. Tests, their expected results taken from spec/95_test_vectors.md (the row is named) and the worked examples of
the rules, and for every statement with hypotheses a state that meets them. -/

open Sys2Proof Sys2Proof.Machine

namespace Sys2Proof.Tests

/-- A block of kind `k` after reset, whose transport will do `ts`. -/
def block (k : Kind) (ts : List TransportAct) : State := { State.resetOf k with transport := ts }

/-- The same block with the word `w` presented. -/
def given (k : Kind) (w : CmdWord) (ts : List TransportAct) : State := { block k ts with host := [.command w] }

/-- The response after one step. -/
def answer (s : State) : Option Response :=
  match step s with
  | .next t => t.response
  | .fault _ => none
  | .refused _ => none

/-- The requests after one step. -/
def trace (s : State) : List Request :=
  match step s with
  | .next t => t.bus
  | .fault _ => []
  | .refused _ => []

/-- The next state, if there is one. -/
def after : Out → Option State
  | .next t => some t
  | .fault _ => none
  | .refused _ => none

theorem after_some {o : Out} {t : State} (h : after o = some t) : o = .next t := by
  cases o <;> simp [after] at h
  rw [h]

/-! ## WellFormed: ill-formed terms are refused -/

theorem test_wf_rdn_zero : (Instr.rdn 0x88 0).wellFormed = false := by decide
theorem test_wf_clux_gain_zero : (Instr.clux 100 30 0 100).wellFormed = false := by decide
theorem test_wf_clux_itime_zero : (Instr.clux 100 30 1 0).wellFormed = false := by decide
theorem test_wf_edges : (Instr.rdn 0x88 1).wellFormed = true ∧ (Instr.rdn 0x00 255).wellFormed = true ∧
    (Instr.clux 0 0 1 1).wellFormed = true ∧ (Instr.clux 65535 65535 255 65535).wellFormed = true := by decide

/-! ## Decoding: words written out from R88 and R89 -/

-- opcode 0000_0001, zeros, addr 1000_1100
theorem test_decode_rdb : decode 0b0000000100000000000000000000000000000000000000000000000010001100 = .ok (.rdb 0x8C) := by
  rfl
-- opcode 0000_0010, zeros, n 0000_0100, addr 1000_1000
theorem test_decode_rdn :
    decode 0b0000001000000000000000000000000000000000000000000000010010001000 = .ok (.rdn 0x88 4) := by rfl
-- opcode 0000_0011, zeros, value 0001_1011, addr 1000_0101
theorem test_decode_wrb :
    decode 0b0000001100000000000000000000000000000000000000000001101110000101 = .ok (.wrb 0x85 0x1B) := by rfl
theorem test_decode_chknd : decode 0x1000000000000000 = .ok .chknd := by rfl
theorem test_decode_getit : decode 0x1100000000000000 = .ok .getit := by rfl
theorem test_decode_getch : decode 0x1200000000000000 = .ok .getch := by rfl
theorem test_decode_getgn : decode 0x1300000000000000 = .ok .getgn := by rfl
-- opcode 0001_0100, itime 0x0190, gain 0000_0010, zeros, ch1 0x001E, ch0 0x0064 (row L12)
theorem test_decode_clux :
    decode 0b0001010000000001100100000000001000000000000111100000000001100100 = .ok (.clux 100 30 2 400) := by rfl
theorem test_decode_getrh : decode 0x2000000000000000 = .ok .getrh := by rfl
theorem test_decode_gett : decode 0x2100000000000000 = .ok .gett := by rfl
theorem test_decode_fetch : decode 0x30000000000000FF = .ok (.fetch 255) := by rfl
theorem test_decode_get : decode 0x3100000000000002 = .ok (.get 2) := by rfl

-- rows B10, B11, F15: an opcode that is not in the map, a must-be-zero bit of format A and of format S
theorem test_decode_refuses : decode 0 = .error .unknownOpcode ∧ decode 0x0400000000000000 = .error .unknownOpcode ∧
    decode 0xFF00000000000000 = .error .unknownOpcode ∧ decode 0x0100000000000187 = .error .mustBeZero ∧
    decode 0x3000000000000100 = .error .mustBeZero := ⟨rfl, rfl, rfl, rfl, rfl⟩

-- the host's numbering: one 64-bit word
theorem test_table_word : decodeTableWord 64 0x0200000000000488 = some (.rdn 0x88 4) := by rfl

/-! ## One step, at most two for each instruction -/

-- rows B1, B2
theorem test_rdb : answer (given .als 0x010000000000008C [.done [0x04]]) = some ⟨.ok, .byte 0x04⟩ := by decide
theorem test_rdb_fails : answer (given .als 0x0100000000000087 [.fail]) = some ⟨.busError, .none⟩ := by decide
-- rows B4, B6
theorem test_rdn : answer (given .ths 0x02000000000002E5 [.done [0x66, 0x66]]) = some ⟨.ok, .bytes [0x66, 0x66]⟩ := by
  decide
theorem test_rdn_zero : step (given .als 0x0200000000000088 [.done []]) =
    .next { block .als [.done []] with response := some ⟨.illegalCommand, .none⟩ } := by rfl
-- row B7
theorem test_wrb : answer (given .als 0x0300000000001B85 [.done []]) = some ⟨.ok, .none⟩ ∧
    trace (given .als 0x0300000000001B85 [.done []]) = [{ dev := 0x29, w := [0x85, 0x1B], r := 0 }] := by decide
-- row A2: bit 7 set
theorem test_chknd : answer (given .als 0x1000000000000000 [.done [0x84]]) = some ⟨.ok, .ready false⟩ := by decide
-- row A5
theorem test_getit : answer (given .als 0x1100000000000000 [.done [0x1B]]) = some ⟨.ok, .ms 400⟩ := by decide
-- row A9
theorem test_getch : answer (given .als 0x1200000000000000 [.done [0x34, 0x12, 0xCD, 0xAB]]) =
    some ⟨.ok, .channels 0x1234 0xABCD⟩ := by decide
-- rows A12, A14
theorem test_getgn : answer (given .als 0x1300000000000000 [.done [0x1D]]) = some ⟨.ok, .gain 96⟩ := by decide
theorem test_getgn_reserved : answer (given .als 0x1300000000000000 [.done [0x11]]) =
    some ⟨.reservedConfiguration, .none⟩ := by decide
-- rows L3 (exactly 0.45: band 2), L6 (exactly 0.85: band 4)
theorem test_clux : answer (given .als 0x14006401002D0037 []) = some ⟨.ok, .lux (294703 / 2000)⟩ := by decide +kernel
theorem test_clux_saturated : answer (given .als 0x140064010055000F []) = some ⟨.ok, .lux 0⟩ := by decide +kernel
-- row H13: not a little-endian reading
theorem test_getrh : answer (given .ths 0x2000000000000000 [.done [0x34, 0x12]]) =
    some ⟨.ok, .value (636517 / 32768)⟩ := by decide +kernel
-- row H15
theorem test_getrh_wrong_kind : answer (given .als 0x2000000000000000 []) = some ⟨.illegalCommand, .none⟩ := by decide
-- row H6
theorem test_gett : answer (given .ths 0x2100000000000000 [.done [0x43, 0x87]]) =
    some ⟨.ok, .value (-817249 / 1638400)⟩ := by decide +kernel
-- program P1, step 4
theorem test_fetch_light : (after (exec (.fetch 0)
    (block .als [.done [0x04], .done [0x64, 0x00, 0x1E, 0x00], .done [0x01], .done [0x1B]]))).map (fun t => t.lux) =
    some (some (210607 / 4000)) := by decide +kernel
-- program P3, step 1: asked for Humidity, both cells written
theorem test_fetch_ths : (after (exec (.fetch 2) (block .ths [.done [0x66, 0x66], .done [0x43, 0x87]]))).map
    (fun t => (t.hum, t.temp)) = some (some (1441767 / 32768), some (-817249 / 1638400)) := by decide +kernel
-- row G11, program P2, step 7: truncation, not rounding
theorem test_get : answer { given .als 0x3100000000000000 [] with lux := some (9309 / 128) } =
    some ⟨.ok, .pair 72 726562⟩ := by decide +kernel
-- row F13
theorem test_get_unwritten : step (given .als 0x3100000000000000 []) = .fault .uninitialisedRead := by rfl
-- rows G2, G16, G25
theorem test_decomp : (intPart32 .exact (-21 / 4)).toInt = -5 ∧ micros32 .exact (-21 / 4) = 250000 ∧
    intPart32 .exact (-817249 / 1638400) = 0 ∧ micros32 .exact (-817249 / 1638400) = 498809 ∧
    micros32 .exact (-1 / 2000000) = 0 := by decide +kernel
-- R135, R138: row T13
theorem test_combine : comb16le 0x34 0x12 = 4660 ∧ comb16be 0x34 0x12 = 13330 := by decide
-- rows T3, T6, T8, T9
theorem test_fields : gaincode 0xE3 = 0 ∧ gaincode 0x10 = 4 ∧ intcode 0xC7 = 0 ∧ intcode 0x1B = 3 ∧
    statusValid 0x7F = true ∧ statusValid 0xFB = false := by decide

/-! ## Other numerics: the example of R274, `0.45` and `23.456789` in the two IEEE formats -/

/-- An ALS block with the given numerics and a value in its cell. -/
def measured (n : Numeric) (v : Rat) : State := { State.resetOf .als n with lux := some v }

theorem test_binary32_literal : (numerics .binary32).ofDec 23456789 1000000 = 12298113 / 524288 := by decide +kernel
-- 23.456789016723633 * 1000000 rounds to 23456790
theorem test_binary32_micros : (after (exec (.get 0) (measured .binary32 (12298113 / 524288)))).map
    (fun t => t.response) = some (some ⟨.ok, .pair 23 456790⟩) := by decide +kernel
theorem test_binary64_micros : micros32 .binary64 ((numerics .binary64).ofDec 23456789 1000000) = 456789 := by
  decide +kernel
-- the float and the double nearest to 0.1 (IEEE 754, 0x3DCCCCCD and 0x3FB999999999999A)
theorem test_nearest_tenth : roundBinary 24 (1 / 10) = 13421773 / 134217728 ∧
    roundBinary 53 (1 / 10) = 3602879701896397 / 36028797018963968 := by decide +kernel
-- ties go to the even significand
theorem test_ties : roundBinary 24 16777217 = 16777216 ∧ roundBinary 24 16777219 = 16777220 ∧
    roundBinary 24 (-16777219) = -16777220 := by decide +kernel

-- conversions are exact under every NUM (R139 (d))
theorem test_other_conversion : (numerics (.other 3)).ofNat 65535 = 65535 := rfl

/-- Exact operations with a quotient below 1/512 flushed to zero: no bound on the relative error holds of them. -/
def flushing : Config.Arithmetic Config.Q :=
  { exactArithmetic with div := fun a b => if a / b < 1 / 512 then 0 else a / b }

-- L20 of 95_test_vectors.md has the exact lux 210607/167114250
theorem test_flushing : luxWith (overQ flushing) 100 30 255 65535 = 0 ∧
    luxWith (overQ flushing) 100 30 1 100 = 210607 / 1000 := by
  decide +kernel

/-- The lux is the exact one or 0. -/
theorem flushing_lux (a b : Half) (g : Byte) (t : Half) (ht : 50 ≤ t.toNat) :
    luxWith (overQ flushing) a b g t = 0 ∨ luxWith (overQ flushing) a b g t = luxWith exact a b g t := by
  have ht : (50 : Rat) ≤ t.toNat := by exact_mod_cast ht
  have h1 : ¬(t.toNat : Rat) / 100 < 1 / 512 := by linarith
  have band : bandWith (overQ flushing) a b = bandWith exact a b := by
    have e : ∀ r k : Rat, 1 / 512 < k → ((if r < 1 / 512 then 0 else r) < k ↔ r < k) := by
      intro r k hk
      split
      · constructor <;> intro <;> linarith
      · rfl
    have k1 : (1 : Rat) / 512 < (45 : Nat) / (100 : Nat) := by norm_num
    have k2 : (1 : Rat) / 512 < (64 : Nat) / (100 : Nat) := by norm_num
    have k3 : (1 : Rat) / 512 < (85 : Nat) / (100 : Nat) := by norm_num
    simp only [bandWith, overQ, flushing, exact, exactArithmetic, decide_eq_true_eq]
    simp only [e _ _ k1, e _ _ k2, e _ _ k3]
  unfold luxWith
  rw [band]
  simp only [overQ, flushing, exact, exactArithmetic, Nat.cast_ofNat, h1, if_false]
  split
  · exact .inr rfl
  split
  any_goals exact .inr rfl
  all_goals split <;> simp

-- numerics that flush to zero meet the limit of R139 (f), so they are taken as they are
theorem test_flushing_is_allowed : limited flushing = flushing := by
  apply limited_of_withinLimit
  rw [withinLimit_iff]
  have fl : ∀ x : Rat, 0 ≤ x → 0 ≤ (if x < 1 / 512 then 0 else x) ∧ (if x < 1 / 512 then 0 else x) ≤ x := by
    intro x hx; split <;> simp [hx]
  have tr : ∀ v : Rat, -50 < v → v < 200 → (truncQ v).natAbs ≤ 351152 := by
    intro v h1 h2
    have := truncQ_range (v := v) (lo := -50) (hi := 200) (by decide) (by decide) (by push_cast; linarith)
      (by push_cast; linarith)
    omega
  refine ⟨fun c => ?_, fun c => ?_, fun a b c d m h => ?_⟩
  · obtain ⟨c0, c1⟩ := half_le c
    have := fl (125 * c.toNat / 65536) (by positivity)
    refine tr _ ?_ ?_ <;> simp only [rhPolyWith, overQ, flushing, exactArithmetic] <;> push_cast <;> linarith
  · obtain ⟨c0, c1⟩ := half_le c
    have := fl (17572 / 100 * c.toNat / 65536) (by positivity)
    refine tr _ ?_ ?_ <;> simp only [tPolyWith, overQ, flushing, exactArithmetic] <;> push_cast <;> linarith
  · rcases flushing_lux a b m (itimeTable d) (itimeTable_ge d) with e | e <;> rw [e]
    · decide
    · exact ((withinLimit_iff _).1 exact_accurate.withinLimit).2.2 a b c d m h

/-! ## INIT, issued by the host (R96, R214) -/

/-- Five steps of a block for which the host issues INIT. -/
def initRun (k : Kind) (ts : List TransportAct) : Option State :=
  match (block k ts).withInit with
  | some u => after (Sys2Proof.core.run 5 u)
  | none => none

-- the answers late, and all Ok
theorem test_init : (initRun .als [.notYet, .done [5], .done [], .notYet, .done []]).map
    (fun t => (t.response, t.bus.map (fun q => q.w))) =
    some (some ⟨.ok, .none⟩, [[0x87], [0x85, 0x1B], [0x80, 0x01]]) := by decide
-- the first command does not end Ok: the rest is not issued
theorem test_init_fails : (initRun .als [.notYet, .fail, .done []]).map
    (fun t => (t.response, t.bus.map (fun q => q.w), t.host)) =
    some (some ⟨.busError, .none⟩, [[0x87]], []) := by decide
theorem test_init_ths : (block .ths []).withInit = none := rfl

/-! ## The first step after reset, as the host asks for it -/

theorem test_fetch_word : step (State.reset.withFetchWord 64 0x010000000000008C) =
    exec (.rdb 0x8C) State.reset := by rfl
theorem test_fetch_word_other_kind : step (State.reset.withFetchWord 64 0x2000000000000000) =
    exec .getrh (State.resetOf .ths) := by rfl

/-! ## Witnesses: states that meet the statements' hypotheses -/

/-- An ALS block with a value in its cell. -/
def lit : State := { State.resetOf .als with lux := some (877880013 / 2500) }

/-- A THS block with values in its cells. -/
def warm : State := { State.resetOf .ths with temp := some (-937 / 20), hum := some (7798659 / 65536) }

/-- An ALS block suspended at the first request of a fetch. -/
def polling (hs : List HostAct) (ts : List TransportAct) : State :=
  { State.resetOf .als with
    seq := .notReady, busy := true, pending := some .lightStatus
    bus := [{ dev := 0x29, w := [0x8C], r := 1 }], host := hs, transport := ts }

/-- An ALS block suspended at the last request of a fetch. -/
def rating (ts : List TransportAct) : State :=
  { State.resetOf .als with
    seq := .ready, busy := true, pending := some .lightRate
    lat := { Latches.empty with ch0 := some 100, ch1 := some 30, g := some (.valid 1) }
    bus := [{ dev := 0x29, w := [0x85], r := 1 }], transport := ts }

theorem lux_max_range : (0 : Rat) ≤ 877880013 / 2500 ∧ (877880013 / 2500 : Rat) ≤ 877880013 / 2500 := by decide +kernel
theorem temp_min_range : (-937 / 20 : Rat) ≤ -937 / 20 ∧ (-937 / 20 : Rat) ≤ 42227243 / 327680 := by decide +kernel
theorem hum_max_range : (-6 : Rat) ≤ 7798659 / 65536 ∧ (7798659 / 65536 : Rat) ≤ 7798659 / 65536 := by decide +kernel

-- R210: 351152, -46 and 118
theorem lux_max_trunc : 0 ≤ truncQ (877880013 / 2500) ∧ truncQ (877880013 / 2500) ≤ 351152 := by decide +kernel
theorem zero_trunc : 0 ≤ truncQ 0 ∧ truncQ 0 ≤ 351152 := by decide +kernel
theorem temp_min_trunc : -46 ≤ truncQ (-937 / 20) ∧ truncQ (-937 / 20) ≤ 128 := by decide +kernel
theorem hum_max_trunc : -6 ≤ truncQ (7798659 / 65536) ∧ truncQ (7798659 / 65536) ≤ 118 := by decide +kernel

theorem lit_inv (hs : List HostAct) : State.Inv { lit with host := hs } :=
  ⟨rfl, fun _ => ⟨rfl, rfl⟩, fun h => (by cases h), ⟨fun _ => ⟨rfl, rfl⟩, fun h => (by cases h)⟩,
    fun _ => ⟨lux_max_range, trivial, trivial⟩, State.intPartsInRange_of_ranges ⟨lux_max_trunc, trivial, trivial⟩,
    fun r h => (by cases h)⟩

theorem warm_inv (r : Option Response) : State.Inv { warm with response := r } :=
  ⟨rfl, fun _ => ⟨rfl, rfl⟩, fun h => (by cases h), ⟨fun h => (by cases h), fun _ => rfl⟩,
    fun _ => ⟨trivial, temp_min_range, hum_max_range⟩, State.intPartsInRange_of_ranges ⟨trivial, temp_min_trunc, hum_max_trunc⟩,
    fun r h => (by cases h)⟩

theorem polling_inv (hs : List HostAct) (ts : List TransportAct) : (polling hs ts).Inv :=
  ⟨rfl, fun h => (by cases h), fun _ => ⟨.lightStatus, rfl, ⟨rfl, rfl⟩, rfl⟩,
    ⟨fun _ => ⟨rfl, rfl⟩, fun h => (by cases h)⟩, fun _ => ⟨trivial, trivial, trivial⟩,
    State.intPartsInRange_of_ranges ⟨trivial, trivial, trivial⟩, fun r h =>
      (List.mem_singleton.1 h).symm ▸ ⟨rfl, .inl (by decide)⟩⟩

theorem rating_inv (ts : List TransportAct) : (rating ts).Inv :=
  ⟨rfl, fun h => (by cases h), fun _ => ⟨.lightRate, rfl, ⟨rfl, rfl, rfl, rfl, 0, 1, rfl, rfl⟩, rfl⟩,
    ⟨fun _ => ⟨rfl, rfl⟩, fun h => (by cases h)⟩, fun _ => ⟨trivial, trivial, trivial⟩,
    State.intPartsInRange_of_ranges ⟨trivial, trivial, trivial⟩, fun r h =>
      (List.mem_singleton.1 h).symm ▸ ⟨rfl, .inl (by decide)⟩⟩

/-! ### Encoding and the command port -/

theorem wit_EncodeInvertsDecode : ∃ (w : CmdWord) (i : Instr), decode w = .ok i :=
  ⟨0x14FFFFFF00000000, .clux 0 0 255 65535, rfl⟩

theorem wit_OpcodeMapIsTheTable : ∃ c : BitVec 8,
    c ∉ [0x01, 0x02, 0x03, 0x10, 0x11, 0x12, 0x13, 0x14, 0x20, 0x21, 0x30, 0x31] := ⟨0x15, by decide⟩

/-- An ALS block whose host waits for its turn, in progress or with a command that has failed. -/
def turn (s : State) (ifOk : Bool) : State := { s with host := [.inTurn 0x3100000000000000 ifOk] }

theorem wit_StepRunsThePresentedCommand :
    (∃ (s : State) (w : CmdWord) (hs : List HostAct) (i : Instr), s.host = .command w :: hs ∧ decode w = .ok i) ∧
    (∃ (s : State) (w : CmdWord) (hs : List HostAct) (i : Instr), s.host = .inTurn w true :: hs ∧ s.busy = false ∧
      s.endedOk = true ∧ decode w = .ok i) ∧
    (∃ (s : State) (w : CmdWord) (hs : List HostAct), s.host = .inTurn w false :: hs ∧ s.busy = true) ∧
    (∃ (s : State) (w : CmdWord) (hs : List HostAct), s.host = .inTurn w true :: hs ∧ s.busy = false ∧
      s.endedOk = false) ∧
    (∃ s : State, s.host = []) ∧ (∃ s : State, s.host.head? = some .idle) ∧
    (∃ (s : State) (w : CmdWord) (i : Instr), decode w = .ok i ∧ i.op.validOn s.kind = true) ∧
    ∃ (s : State) (w : CmdWord) (i : Instr), decode w = .ok i ∧ i.op.validOn s.kind = false :=
  ⟨⟨given .als 0x31000000000000FF [], _, _, .get 255, rfl, rfl⟩,
    ⟨turn { block .als [] with response := some ⟨.ok, .none⟩ } true, _, _, .get 0, rfl, rfl, rfl, rfl⟩,
    ⟨turn (polling [] []) false, _, _, rfl, rfl⟩,
    ⟨turn { block .als [] with response := some ⟨.retry, .none⟩ } true, _, _, rfl, rfl, rfl⟩,
    ⟨block .als [], rfl⟩, ⟨polling [.idle] [], rfl⟩,
    ⟨block .ths [], 0x2100000000000000, .gett, rfl, rfl⟩, ⟨block .als [], 0x2100000000000000, .gett, rfl, rfl⟩⟩

theorem wit_IllegalWordIsAnswered :
    (given .als 0 []).presented = some 0 ∧ (turn (block .als []) false).presented = some 0x3100000000000000 ∧
    decodeFor .als 0 = .error .unknownOpcode ∧
    decodeFor .als 0x3000000000000100 = .error .mustBeZero ∧ decodeFor .als 0x2000000000000000 = .error .wrongKind ∧
    decodeFor .als 0x1400640000000000 = .error .badOperand ∧ decodeFor .als 0x1400000100000000 = .error .badOperand ∧
    decodeFor .als 0x0200000000000088 = .error .badOperand := ⟨rfl, rfl, rfl, rfl, rfl, rfl, rfl, rfl⟩

theorem wit_IllegalCommandChangesNothing : (0 : Byte) = 0 ∧ (block .ths []).kind = .ths ∧ (block .als []).kind = .als ∧
    ((block .als []).kind = .ths ∨ (0 : Byte) = 0 ∨ (1 : Half) = 0) ∧
    ((block .als []).kind = .ths ∨ (1 : Byte) = 0 ∨ (0 : Half) = 0) := by decide

theorem wit_BusyBlockRefusesACommand : ∃ (i : Instr) (s : State), i.legalOn s.kind = true ∧ s.busy = true :=
  ⟨.get 0, polling [] [], rfl, rfl⟩

theorem wit_CommandEndsWithAListedOutcome :
    (∃ (i : Instr) (s t : State), i.legalOn s.kind = true ∧ s.busy = false ∧ exec i s = .next t ∧ t.busy = true) ∧
    ∃ (i : Instr) (s t : State), i.legalOn s.kind = true ∧ s.busy = false ∧ exec i s = .next t ∧ t.busy = false :=
  ⟨⟨.getgn, block .als [], _, rfl, rfl, rfl, rfl⟩, ⟨.getgn, block .als [.done [0x15]], _, rfl, rfl, rfl, rfl⟩⟩

theorem wit_LegalCommandOnIdleBlockRuns : ∃ (i : Instr) (s : State), i.legalOn s.kind = true ∧ s.busy = false ∧
    (∀ sel c, i = .get sel → getCell s.kind sel = some c → s.written c = true) ∧ i = .get 0 :=
  ⟨.get 0, lit, rfl, rfl, by
    intro sel c h hc
    cases h
    have : c = .lux := by
      have h2 : getCell lit.kind 0 = some .lux := rfl
      rw [h2] at hc; exact (Option.some.inj hc).symm
    rw [this]; rfl, rfl⟩

theorem wit_UnansweredCommandIsSuspended : ∃ (i : Instr) (s u : State) (st : Stage), i.legalOn s.kind = true ∧
    s.busy = false ∧ firstStage s.kind i = some st ∧ s.transport = [] ∧ u = { s with transport := [.notYet] } :=
  ⟨.rdn 0 255, block .als [], _, _, rfl, rfl, rfl, rfl, rfl⟩

theorem wit_WrongLengthAnswerIsAFailure : ∃ (i : Instr) (s : State) (st : Stage), i.legalOn s.kind = true ∧
    s.busy = false ∧ firstStage s.kind i = some st ∧ ([] : List Byte).length ≠ (st.request s.kind).r ∧
    [1, 2, (3 : Byte)].length ≠ (st.request s.kind).r :=
  ⟨.getrh, block .ths [], _, rfl, rfl, rfl, by decide, by decide⟩

/-! ### Commands: an idle block of each kind, with each answer the statements name -/

theorem wit_idle_als : (block .als [.fail]).kind = .als ∧ (block .als [.fail]).busy = false ∧
    (block .als [.fail]).transport = [.fail] := ⟨rfl, rfl, rfl⟩

theorem wit_idle_ths : (block .ths [.fail]).kind = .ths ∧ (block .ths [.fail]).busy = false ∧
    (block .ths [.fail]).transport = [.fail] := ⟨rfl, rfl, rfl⟩

theorem wit_RdbReadsOneByte (b : Byte) : (block .als [.done [b]]).busy = false ∧
    (block .als [.done [b]]).transport = [.done [b]] := ⟨rfl, rfl⟩

theorem wit_RdnReadsNBytes : 1 ≤ (1 : Byte).toNat ∧ 1 ≤ (255 : Byte).toNat ∧
    (List.replicate 255 (7 : Byte)).length = (255 : Byte).toNat ∧
    (block .als [.done (List.replicate 255 7)]).transport = [.done (List.replicate 255 7)] := by
  refine ⟨by decide, by decide, by rw [List.length_replicate]; rfl, rfl⟩

theorem wit_WrbWritesOneByte : (block .als [.done []]).busy = false ∧ (block .als [.done []]).transport = [.done []] :=
  ⟨rfl, rfl⟩

/-- For CHKND, GETIT, GETCH, GETGN, GETRH and GETT: an idle block of the kind with a good answer, exact numerics. -/
theorem wit_readings : (block .als [.done [0x04]]).kind = .als ∧ (block .als [.done [0x04]]).busy = false ∧
    (block .als [.done [0x04]]).transport = [.done [0x04]] ∧
    (block .als [.done [1, 2, 3, 4]]).transport = [.done [1, 2, 3, 4]] ∧
    (block .ths [.done [1, 2]]).kind = .ths ∧ (block .ths [.done [1, 2]]).busy = false ∧
    (block .ths [.done [1, 2]]).transport = [.done [1, 2]] ∧ (block .ths [.done [1, 2]]).num = .exact :=
  ⟨rfl, rfl, rfl, rfl, rfl, rfl, rfl, rfl⟩

theorem wit_CluxComputesTheFourBands : (block .als []).kind = .als ∧ (block .als []).busy = false ∧
    (block .als []).num = .exact ∧ (State.resetOf .als .binary32).busy = false ∧
    (1 : Byte) ≠ 0 ∧ (255 : Byte) ≠ 0 ∧ (1 : Half) ≠ 0 ∧ (65535 : Half) ≠ 0 := by decide

theorem wit_LuxRange : gainTable 0 = .valid 1 ∧ gainTable 3 = .valid 8 ∧ gainTable 6 = .valid 48 ∧
    gainTable 7 = .valid 96 ∧ Numeric.binary32.named = true := by decide

/-- Sums that are not 0, a ratio on an edge among them (R162). -/
theorem wit_BandDoesNotDependOnNum : channelSum 65535 65535 ≠ 0 ∧ channelSum 0 1 ≠ 0 ∧ channelSum 55 45 ≠ 0 := by decide

/-- Each clause of the statement, status bytes and gain codes at the edges of their ranges. -/
theorem wit_FetchLightEndsByTheFirstCondition :
    (block .als [.fail]).kind = .als ∧ (block .als [.fail]).busy = false ∧
    ((0 : Byte) = 0 ∨ (0 : Byte) = 3) ∧ ((3 : Byte) = 0 ∨ (3 : Byte) = 3) ∧
    ((0x04 : Byte).toNat / 4 % 2 = 1 ∧ (0x04 : Byte).toNat < 128) ∧
    ((0x7F : Byte).toNat / 4 % 2 = 1 ∧ (0x7F : Byte).toNat < 128) ∧
    ¬((0x84 : Byte).toNat / 4 % 2 = 1 ∧ (0x84 : Byte).toNat < 128) ∧
    ¬((0x03 : Byte).toNat / 4 % 2 = 1 ∧ (0x03 : Byte).toNat < 128) ∧
    (0x11 : Byte).toNat / 4 % 8 = 4 ∧ (0xF7 : Byte).toNat / 4 % 8 = 5 ∧
    ¬((0x0F : Byte).toNat / 4 % 8 = 4 ∨ (0x0F : Byte).toNat / 4 % 8 = 5) ∧
    ¬((0x18 : Byte).toNat / 4 % 8 = 4 ∨ (0x18 : Byte).toNat / 4 % 8 = 5) ∧
    (block .als [.done [4], .done [1, 2, 3, 4], .done [0x01], .done [0x1B]]).transport =
      [.done [4], .done [1, 2, 3, 4], .done [0x01], .done [0x1B]] := by decide

theorem wit_OtherStatusBitsAreIgnored : (0x04 : Byte) &&& 0x84 = 0x7F &&& 0x84 ∧ (0x80 : Byte) &&& 0x84 = 0xFB &&& 0x84 ∧
    (block .als []).kind = .als ∧ (block .als []).busy = false := by decide

theorem wit_HumidityFormula : (0 : Half).toNat < (65535 : Half).toNat := by decide

theorem wit_FetchThsWritesBothCells :
    ((1 : Byte) = 1 ∨ (1 : Byte) = 2 ∨ (1 : Byte) = 3) ∧ ((2 : Byte) = 1 ∨ (2 : Byte) = 2 ∨ (2 : Byte) = 3) ∧
    ((3 : Byte) = 1 ∨ (3 : Byte) = 2 ∨ (3 : Byte) = 3) ∧ (block .ths []).kind = .ths ∧ (block .ths []).busy = false ∧
    (block .ths [.fail, .done [0x80, 0x00]]).transport = [.fail, .done [0x80, 0x00]] ∧
    (block .ths [.done [0x80, 0x00], .fail]).transport = [.done [0x80, 0x00], .fail] := by decide

theorem wit_ThsBlockNeverRetries : ∃ (s t : State) (r : Response), s.Inv ∧ s.kind = .ths ∧ step s = .next t ∧
    t.response = some r ∧ (r.outcome = .retry ∨ r.outcome = .reservedConfiguration) :=
  ⟨{ warm with response := some ⟨.retry, .none⟩ }, _, _, warm_inv _, rfl, rfl, rfl, .inl rfl⟩

/-! ### Facade -/

theorem wit_UnsupportedSelectorIsAnswered :
    ((block .als []).busy = false ∧ (block .ths []).busy = false) ∧ ((1 : Byte) ≠ 0 ∧ (1 : Byte) ≠ 3) ∧
    ((255 : Byte) ≠ 0 ∧ (255 : Byte) ≠ 3) ∧ ((0 : Byte) ≠ 1 ∧ (0 : Byte) ≠ 2 ∧ (0 : Byte) ≠ 3) ∧
    ((4 : Byte) ≠ 1 ∧ (4 : Byte) ≠ 2 ∧ (4 : Byte) ≠ 3) ∧ (3 : Byte) ≠ 0 ∧ ((3 : Byte) ≠ 1 ∧ (3 : Byte) ≠ 2) := by decide

theorem wit_GetReturnsTheDecomposedCell : lit.busy = false ∧ lit.kind = .als ∧ lit.lux = some (877880013 / 2500) ∧
    warm.busy = false ∧ warm.kind = .ths ∧ warm.temp = some (-937 / 20) ∧ warm.hum = some (7798659 / 65536) ∧
    -2147483648 ≤ (numerics warm.num).trunc (-937 / 20) ∧ (numerics lit.num).trunc (877880013 / 2500) ≤ 2147483647 := by
  decide +kernel

/-- The cell of a block with each of the three numerics, holding their 23.456789. -/
theorem wit_DecompositionDependsOnNum (n : Numeric) :
    (measured n ((numerics n).ofDec 23456789 1000000)).kind = .als ∧
    (measured n ((numerics n).ofDec 23456789 1000000)).busy = false ∧
    (measured n ((numerics n).ofDec 23456789 1000000)).num = n := ⟨rfl, rfl, rfl⟩

theorem wit_GetOfAnUnwrittenCellFaults : (block .als []).busy = false ∧ (block .als []).written .lux = false ∧
    (block .ths []).written .temp = false ∧ (block .ths []).written .hum = false := by decide

/-- A block with each cell written, exact numerics, and one with numerics of its own. -/
theorem wit_CachedIntegerPartsAreInRange : State.Inv { lit with host := [] } ∧ lit.lux = some (877880013 / 2500) ∧
    lit.num.named = true ∧ warm.num.named = true ∧
    State.Inv { State.resetOf .als (.other 0) with lux := some 0 } ∧ State.Inv { warm with response := none } ∧
    warm.temp = some (-937 / 20) ∧ warm.hum = some (7798659 / 65536) :=
  ⟨lit_inv _, rfl, rfl, rfl, ⟨rfl, fun _ => ⟨rfl, rfl⟩, fun h => (by cases h), ⟨fun _ => ⟨rfl, rfl⟩, fun h => (by cases h)⟩,
    fun h => (by cases h), State.intPartsInRange_of_ranges ⟨zero_trunc, trivial, trivial⟩, fun r h => (by cases h)⟩, warm_inv _, rfl, rfl⟩

theorem wit_StaleReadingSurvivesAFailedFetch : ∃ (s t u : State) (r : Response), s.kind = .als ∧ s.busy = false ∧
    exec (.fetch 0) s = .next t ∧ t.response = some r ∧ r.outcome ≠ .ok ∧ exec (.get 0) s = .next u :=
  ⟨{ lit with transport := [.done [0x80]] }, _, _, _, rfl, rfl, rfl, rfl, by decide, rfl⟩

theorem wit_FetchedThsCellsAreReadable : ∃ (s t : State) (r : Response), s.kind = .ths ∧ s.busy = false ∧
    exec (.fetch 1) s = .next t ∧ t.response = some r ∧ r.outcome = .busError :=
  ⟨block .ths [.fail, .fail], _, _, rfl, rfl, rfl, rfl, rfl⟩

/-! ### Frames, reset, invariant -/

theorem wit_CommandsOtherThanFetchKeepTheCache : ∃ (i : Instr) (s t : State), (∀ sel, i ≠ .fetch sel) ∧
    exec i s = .next t ∧ i ≠ .getrh ∧ i ≠ .gett :=
  ⟨.wrb 0 0, block .als [.done []], _, fun _ h => (by cases h), rfl, fun h => (by cases h), fun h => (by cases h)⟩

theorem wit_OnlyFetchAndResetChangeTheCache :
    (∃ s t : State, s.Inv ∧ step s = .next t ∧ t.lux ≠ s.lux ∧ s.host.head? = some .reset) ∧
    ∃ s t : State, s.Inv ∧ step s = .next t ∧ t.lux ≠ s.lux ∧ s.busy = true :=
  ⟨⟨{ lit with host := [.reset] }, _, lit_inv _, rfl, by decide, rfl⟩,
    ⟨rating [.done [0x1B]], _, rating_inv _, rfl, by decide, rfl⟩⟩

theorem wit_WrittenFlagStaysUntilReset : ∃ s t : State, step s = .next t ∧ s.host.head? ≠ some .reset ∧
    s.written .lux = true := ⟨lit, _, rfl, by decide, rfl⟩

theorem wit_a_step_of_each_kind : (∃ s t : State, step s = .next t ∧ s.kind = .als) ∧
    ∃ s t : State, step s = .next t ∧ s.kind = .ths := ⟨⟨lit, _, rfl, rfl⟩, ⟨warm, _, rfl, rfl⟩⟩

theorem wit_OnlyWrbWritesToTheSensor : ∃ (s t : State) (new : List Request) (q : Request), step s = .next t ∧
    t.bus = s.bus ++ new ∧ q ∈ new ∧ q.r = 0 :=
  ⟨given .als 0x0300000000001B85 [], _, [{ dev := 0x29, w := [0x85, 0x1B], r := 0 }], _, rfl, rfl,
    List.mem_singleton.2 rfl, rfl⟩

theorem wit_ResetInputResetsTheBlock : (polling [.reset] []).host = [.reset] := rfl

theorem wit_StepKeepsTheInvariant : ∃ s t : State, s.Inv ∧ step s = .next t ∧ s.busy = true ∧ t.busy = true :=
  ⟨polling [] [.done [0x04]], _, polling_inv _ _, rfl, rfl, rfl⟩

theorem wit_StepStopsOnlyAsTheSpecSays :
    (∃ s t : State, s.Inv ∧ step s = .next t) ∧
    (∃ s : State, s.Inv ∧ step s = .fault .uninitialisedRead) ∧
    ∃ s : State, s.Inv ∧ step s = .refused .concurrentCommand :=
  ⟨⟨rating [.done [0x1B]], _, rating_inv _, rfl⟩,
    ⟨given .als 0x3100000000000000 [], ⟨rfl, fun _ => ⟨rfl, rfl⟩, fun h => (by cases h),
      ⟨fun _ => ⟨rfl, rfl⟩, fun _ => rfl⟩, fun _ => ⟨trivial, trivial, trivial⟩,
    State.intPartsInRange_of_ranges ⟨trivial, trivial, trivial⟩, fun r h => (by cases h)⟩, rfl⟩,
    ⟨polling [.command 0x1000000000000000] [], polling_inv _ _, rfl⟩⟩

theorem wit_UnansweredCommandHangs : (polling [] []).host = [] ∧ (polling [] []).transport = [] := ⟨rfl, rfl⟩

theorem wit_AnsweredCommandEnds : ∃ (i : Instr) (s t : State), i.legalOn s.kind = true ∧ s.busy = false ∧
    4 ≤ s.transport.length ∧ .notYet ∉ s.transport ∧ exec i s = .next t :=
  ⟨.fetch 0, block .als [.done [0x04], .done [1, 2, 3, 4], .done [0x01], .done [0x1B]], _, rfl, rfl, by decide, by decide,
    rfl⟩

theorem wit_LateAnswersOnlyDelay : ∃ (i : Instr) (s t : State), s.busy = false ∧ exec i s.prompt = .next t ∧
    t.busy = false ∧ .notYet ∈ s.transport :=
  ⟨.fetch 0, block .als [.notYet, .done [0x84]], _, rfl, rfl, rfl, by decide⟩

/-- Each clause of INIT, the answers at once and late. -/
theorem wit_InitSequenceRuns : (block .ths []).kind = .ths ∧
    (block .als [.done [5], .done [], .done []]).kind = .als ∧
    (block .als [.done [5], .done [], .done []]).busy = false ∧
    (block .als [.done [5], .done [], .done []]).transport =
      List.replicate 0 .notYet ++ .done [5] :: (List.replicate 0 .notYet ++ .done [] ::
        (List.replicate 0 .notYet ++ [.done []])) ∧
    (block .als [.notYet, .done [5], .done [], .fail]).transport =
      List.replicate 1 .notYet ++ .done [5] :: (List.replicate 0 .notYet ++ .done [] ::
        (List.replicate 0 .notYet ++ [.fail])) ∧
    (block .als [.done [5], .notYet, .fail]).transport =
      List.replicate 0 .notYet ++ .done [5] :: (List.replicate 1 .notYet ++ [.fail]) ∧
    (block .als [.notYet, .notYet, .fail]).transport = List.replicate 2 .notYet ++ [.fail] :=
  ⟨rfl, rfl, rfl, rfl, rfl, rfl, rfl⟩

end Sys2Proof.Tests
end

/-! Proofs of the family "state": the ranges of the values `FETCH` writes, the invariant from the request of a stage up to
a run, what a command and a step leave unchanged, and the command port. -/

namespace Sys2Proof.Machine

open Sys2Proof.Config (Q)

/-! ### The ranges of R210 with exact numerics -/

/-- The sum of the channels never wraps (R139 (c)). -/
theorem channelSum_toNat (ch0 ch1 : Half) : (channelSum ch0 ch1).toNat = ch0.toNat + ch1.toNat := by
  have := ch0.isLt
  have := ch1.isLt
  simp only [channelSum, BitVec.toNat_add, BitVec.toNat_setWidth]
  omega

/-- R183 and R210 for the humidity. -/
theorem rhPoly_exact_range (code : Half) : -6 ≤ rhPoly .exact code ∧ rhPoly .exact code ≤ 7798659 / 65536 := by
  have e : rhPoly .exact code = ((125 : Nat) : Q) * (code.toNat : Q) / ((65536 : Nat) : Q) - ((6 : Nat) : Q) := rfl
  obtain ⟨c0, c1⟩ := half_le code
  rw [e]
  norm_num
  constructor <;> linarith

/-- R186 and R210 for the temperature. -/
theorem tPoly_exact_range (code : Half) :
    -937 / 20 ≤ tPoly .exact code ∧ tPoly .exact code ≤ 42227243 / 327680 := by
  have e : tPoly .exact code = ((17572 : Nat) : Q) / ((100 : Nat) : Q) * (code.toNat : Q) / ((65536 : Nat) : Q) -
      ((4685 : Nat) : Q) / ((100 : Nat) : Q) := rfl
  obtain ⟨c0, c1⟩ := half_le code
  rw [e]
  norm_num
  constructor <;> linarith

/-- Dividing by a gain of at least 1 and a time of at least 50 ms at most doubles a number. -/
theorem div_gain_time_le {x : Q} {g t : Nat} (hx : x ≤ 1755760026 / 10000) (hg : 1 ≤ g) (ht : 50 ≤ t) :
    x / (g * (t / 100)) ≤ 877880013 / 2500 := by
  have hg : (1 : Q) ≤ g := by exact_mod_cast hg
  have ht : (50 : Q) ≤ t := by exact_mod_cast ht
  have denom : (1 : Q) / 2 ≤ g * (t / 100) := by nlinarith
  rw [div_le_iff₀ (by linarith)]
  linarith

/-- On which side of the edge 0.45 the channels of the first two bands lie (R160). -/
theorem bandWith_exact_edge {ch0 ch1 : Half} (hz : channelSum ch0 ch1 ≠ 0) :
    (bandWith exact ch0 ch1 = .band1 → 11 * ch1.toNat ≤ 9 * ch0.toNat) ∧
    (bandWith exact ch0 ch1 = .band2 → 9 * ch0.toNat ≤ 11 * ch1.toNat) := by
  have ha := ch0.isLt
  have hb := ch1.isLt
  have hs : 0 < ch0.toNat + ch1.toNat := by
    rw [← channelSum_toNat]
    exact Nat.pos_of_ne_zero fun h => hz (BitVec.eq_of_toNat_eq h)
  have edge := ratio_edge exact_accurate (b := ch1.toNat) (x := 45) (y := 100) (p := 9) (q := 20) hs (by omega) (by omega)
    (by norm_num) (by norm_num) (by norm_num) (by norm_num)
  simp only [bandWith, exact_accurate.ofNat, exact_accurate.lt, channelSum_toNat, decide_eq_true_eq]
  by_cases h : exact.div (ch1.toNat : Q) ((ch0.toNat + ch1.toNat : Nat) : Q) < exact.ofDec 45 100
  · have := edge.1 h
    simp only [h, if_true]
    exact ⟨fun _ => by omega, fun hc => by cases hc⟩
  · have := edge.2 h
    simp only [h, if_false]
    exact ⟨fun hc => by split_ifs at hc, fun _ => by omega⟩

/-- R210 for lux: the largest value, at `ch0 = 65535`, `ch1 = 53619`, gain 1 and 50 ms. -/
theorem lux_exact_le (ch0 ch1 : Half) {gain : Byte} {itime : Half} (hg : 1 ≤ gain.toNat) (ht : 50 ≤ itime.toNat) :
    lux .exact ch0 ch1 gain itime ≤ 877880013 / 2500 := by
  have ha := ch0.isLt
  have hb := ch1.isLt
  have quot {x : Q} (hx : x ≤ 1755760026 / 10000) := div_gain_time_le hx hg ht
  change luxWith exact ch0 ch1 gain itime ≤ _
  unfold luxWith
  split
  · exact (show ((0 : Nat) : Q) ≤ 877880013 / 2500 by norm_num)
  next hz =>
  obtain ⟨edge1, edge2⟩ := bandWith_exact_edge hz
  cases hband : bandWith exact ch0 ch1 with
  | band1 =>
    have := edge1 hband
    have h : 17743 * ch0.toNat + 11059 * ch1.toNat ≤ 1755760026 := by omega
    have h : 17743 * (ch0.toNat : Q) + 11059 * ch1.toNat ≤ 1755760026 := by exact_mod_cast h
    exact quot (show ((17743 : Nat) : Q) / ((10000 : Nat) : Q) * ch0.toNat +
      ((11059 : Nat) : Q) / ((10000 : Nat) : Q) * ch1.toNat ≤ _ by norm_num; linarith)
  | band2 =>
    have := edge2 hband
    have h : 42785 * ch0.toNat ≤ 19548 * ch1.toNat + 1755760026 := by
      rcases Nat.lt_or_ge ch0.toNat 65535 with h | h <;> omega
    have h : 42785 * (ch0.toNat : Q) ≤ 19548 * ch1.toNat + 1755760026 := by exact_mod_cast h
    exact quot (show ((42785 : Nat) : Q) / ((10000 : Nat) : Q) * ch0.toNat -
      ((19548 : Nat) : Q) / ((10000 : Nat) : Q) * ch1.toNat ≤ _ by norm_num; linarith)
  | band3 =>
    have h : 5926 * ch0.toNat + 1185 * ch1.toNat ≤ 1755760026 := by omega
    have h : 5926 * (ch0.toNat : Q) + 1185 * ch1.toNat ≤ 1755760026 := by exact_mod_cast h
    exact quot (show ((5926 : Nat) : Q) / ((10000 : Nat) : Q) * ch0.toNat +
      ((1185 : Nat) : Q) / ((10000 : Nat) : Q) * ch1.toNat ≤ _ by norm_num; linarith)
  | band4 => exact (show ((0 : Nat) : Q) ≤ 877880013 / 2500 by norm_num)

/-! ### The invariant in two parts: what lasts, and where the sequencer is -/

/-- The part of the invariant about the cells and the requests made so far, which a command keeps at every moment. -/
structure State.Sound (s : State) : Prop where
  cellsOfKind : s.CellsOfKind
  cellsInRange : s.CellsInRange
  intPartsInRange : s.IntPartsInRange
  requests : ∀ r ∈ s.bus, r.Shape s.kind

theorem State.Inv.sound {s : State} (h : s.Inv) : s.Sound :=
  ⟨h.cellsOfKind, h.cellsInRange, h.intPartsInRange, h.requests⟩

/-- Soundness sees the parameters, the cells and the bus only. -/
theorem State.Sound.congr {s t : State} (h : s.Sound) (kind : t.kind = s.kind) (num : t.num = s.num)
    (lux : t.lux = s.lux) (temp : t.temp = s.temp) (hum : t.hum = s.hum) (bus : t.bus = s.bus) : t.Sound := by
  obtain ⟨cells, range, ints, reqs⟩ := h
  refine ⟨?_, ?_, ?_, ?_⟩
  · simpa only [State.CellsOfKind, kind, lux, temp, hum] using cells
  · simpa only [State.CellsInRange, num, lux, temp, hum] using range
  · simpa only [State.IntPartsInRange, num, lux, temp, hum] using ints
  · simpa only [kind, bus] using reqs

theorem State.Sound.of_sameOutside {s t : State} (h : s.Sound) (e : SameOutside s t) : t.Sound :=
  h.congr e.kind e.num e.lux e.temp e.hum e.bus

/-- Soundness does not see the latches. -/
theorem State.Sound.setLat {s : State} (h : s.Sound) (l : Latches) : (s.setLat l).Sound :=
  h.congr rfl rfl rfl rfl rfl rfl

/-- A command that ends with its cells and requests sound leaves the invariant. -/
theorem State.Sound.complete {s : State} (h : s.Sound) (r : Response) : (s.complete r).Inv where
  busySeq := rfl
  quiet := fun _ => ⟨rfl, rfl⟩
  suspended := fun hb => by cases hb
  cellsOfKind := h.cellsOfKind
  cellsInRange := h.cellsInRange
  intPartsInRange := h.intPartsInRange
  requests := h.requests

/-- The invariant does not see the host's list, the transport's list, the response and the draw counter. -/
theorem State.Inv.congr {s : State} (h : s.Inv) (hs : List HostAct) (ts : List TransportAct) (r : Option Response)
    (d : Nat) : State.Inv { s with host := hs, transport := ts, response := r, drawIndex := d } where
  busySeq := h.busySeq
  quiet := h.quiet
  suspended := h.suspended
  cellsOfKind := h.cellsOfKind
  cellsInRange := h.cellsInRange
  intPartsInRange := h.intPartsInRange
  requests := h.requests

/-- A command is at the request of a stage, about to put it or just answered. -/
structure State.Working (s : State) (st : Stage) : Prop where
  sound : s.Sound
  busy : s.busy = true
  suspendedAt : s.SuspendedAt st

/-- Where a suspended command stands does not depend on RAW. -/
theorem State.SuspendedAt.congr {s t : State} {st : Stage} (h : s.SuspendedAt st) (seq : t.seq = s.seq)
    (kind : t.kind = s.kind) (ch0 : t.lat.ch0 = s.lat.ch0) (ch1 : t.lat.ch1 = s.lat.ch1) (g : t.lat.g = s.lat.g) :
    t.SuspendedAt st := by
  cases st <;> simpa only [State.SuspendedAt, seq, kind, ch0, ch1, g] using h

/-- A suspended command has left IDLE (R24, R25). -/
theorem State.SuspendedAt.seq_ne_idle {s : State} {st : Stage} (h : s.SuspendedAt st) : s.seq ≠ .idle := by
  cases st <;> simp only [State.SuspendedAt] at h <;> simp [h]

/-- The request of a suspended command has one of the two shapes (R51, R52). -/
theorem State.SuspendedAt.request_shape {s : State} {st : Stage} (h : s.SuspendedAt st) (k : Kind) :
    (st.request k).Shape k := by
  refine ⟨Stage.request_dev k st, ?_⟩
  cases st with
  | wrb addr value => exact .inr ⟨rfl, rfl⟩
  | rdn addr n => exact .inl ⟨rfl, h.2, Nat.le_of_lt_succ n.isLt⟩
  | _ => exact .inl ⟨rfl, by simp [Stage.request, readRequest], by simp [Stage.request, readRequest, Config.maxN]⟩

theorem State.Inv.working {s : State} {st : Stage} (h : s.Inv) (hb : s.busy = true) (hp : s.pending = some st) :
    s.Working st := by
  obtain ⟨st', hp', hs, -⟩ := h.suspended hb
  cases hp.symm.trans hp'
  exact ⟨h.sound, hb, hs⟩

/-- Putting the request of a stage makes the invariant true. -/
theorem State.Working.request {s : State} {st : Stage} (h : s.Working st) : (s.request st).Inv where
  busySeq := by simpa [h.busy] using h.suspendedAt.seq_ne_idle
  quiet := fun hb => by simp [h.busy] at hb
  suspended := fun _ => ⟨st, rfl, h.suspendedAt.congr rfl rfl rfl rfl rfl, by simp⟩
  cellsOfKind := h.sound.cellsOfKind
  cellsInRange := h.sound.cellsInRange
  intPartsInRange := h.sound.intPartsInRange
  requests := fun r hr => by
    rcases List.mem_append.1 hr with hr | hr
    · exact h.sound.requests r hr
    · cases List.mem_singleton.1 hr
      exact h.suspendedAt.request_shape s.kind

/-! ### Outcomes that keep the invariant -/

/-- The outcome is a next state, and that meets the invariant. -/
def KeepsInv (o : Out) : Prop := ∃ t, o = .next t ∧ t.Inv

theorem keepsInv_next {t : State} (h : t.Inv) : KeepsInv (.next t) := ⟨t, rfl, h⟩

theorem State.Sound.keepsInv_reply {s : State} (h : s.Sound) (p : Payload) : KeepsInv (reply p s) :=
  keepsInv_next (h.complete _)

theorem State.Sound.keepsInv_raise {s : State} (h : s.Sound) (o : OutcomeName) : KeepsInv (raise o s) :=
  keepsInv_next (h.complete _)

/-- The first `n` entries of RAW hold values. -/
structure Latches.HoldRead (l : Latches) (n : Nat) : Prop where
  raw0 : 1 ≤ n → ∃ b, l.raw0 = some b
  raw1 : 2 ≤ n → ∃ b, l.raw1 = some b
  raw2 : 3 ≤ n → ∃ b, l.raw2 = some b
  raw3 : 4 ≤ n → ∃ b, l.raw3 = some b

/-- A read loads as many entries of RAW as it has bytes (R53). -/
theorem Latches.loadRaw_holdRead (bs : List Byte) (l : Latches) : (l.loadRaw bs).HoldRead bs.length := by
  have entry : ∀ {i : Nat} (o : Option Byte), i + 1 ≤ bs.length → ∃ b, (bs[i]?).or o = some b := fun _ h =>
    ⟨_, by rw [List.getElem?_eq_getElem (by omega), Option.some_or]⟩
  exact ⟨entry _, entry _, entry _, entry _⟩

/-- The request of a stage has just been answered: after a successful read RAW holds its bytes. -/
structure State.Answered (s : State) (st : Stage) (res : BusResult) : Prop extends s.Working st where
  read : ∀ bs, res = .done bs → s.lat.HoldRead (st.request s.kind).r

/-- An answer leaves the latches other than RAW. -/
theorem State.afterAnswer_latches (r : Nat) (res : BusResult) (s : State) :
    (s.afterAnswer r res).lat.ch0 = s.lat.ch0 ∧ (s.afterAnswer r res).lat.ch1 = s.lat.ch1 ∧
    (s.afterAnswer r res).lat.g = s.lat.g := by
  cases res with
  | done bs => exact ⟨rfl, rfl, rfl⟩
  | fail =>
    by_cases h : r = 0 <;> simp [State.afterAnswer, h]

theorem State.Working.answered {s : State} {st : Stage} (h : s.Working st) (ts : List TransportAct) {res : BusResult}
    (hl : ∀ bs, res = .done bs → bs.length = (st.request s.kind).r) :
    ((s.answered ts).afterAnswer (st.request s.kind).r res).Answered st res := by
  obtain ⟨l, e⟩ := State.afterAnswer_eq (st.request s.kind).r res (s.answered ts)
  obtain ⟨ch0, ch1, g⟩ := State.afterAnswer_latches (st.request s.kind).r res (s.answered ts)
  refine ⟨⟨?_, ?_, ?_⟩, ?_⟩
  · rw [e]; exact h.sound.congr rfl rfl rfl rfl rfl rfl
  · rw [e]; exact h.busy
  · exact h.suspendedAt.congr (by rw [e]; rfl) (by rw [e]; rfl) ch0 ch1 g
  · rintro bs rfl
    have := Latches.loadRaw_holdRead bs s.lat
    rwa [hl bs rfl] at this

/-- Waiting for an answer keeps the invariant if what follows the answer does. -/
theorem settle_keepsInv {s : State} {st : Stage} (h : s.Inv) (hb : s.busy = true) (hp : s.pending = some st)
    (rest : ∀ res u, State.Answered u st res → KeepsInv (st.onAnswer res u)) : KeepsInv (settle st st.onAnswer s) := by
  rcases settle_cases st st.onAnswer s with ⟨-, e⟩ | ⟨ts, -, e⟩ | ⟨a, ts, res, -, -, hl, e⟩ <;> rw [e]
  · exact keepsInv_next h
  · exact keepsInv_next (h.congr s.host ts s.response s.drawIndex)
  · exact rest _ _ ((h.working hb hp).answered ts hl)

theorem issue_keepsInv {s : State} {st : Stage} (h : s.Working st)
    (rest : ∀ res u, State.Answered u st res → KeepsInv (st.onAnswer res u)) : KeepsInv (issue st st.onAnswer s) :=
  settle_keepsInv h.request h.busy rfl rest

/-! ### Writing the cells -/

/-- A written value in the limit of R139 (f). -/
theorem truncInRange_of_natAbs {v : Q} (h : (truncQ v).natAbs ≤ 351152) :
    truncInRange (-351152) 351152 (some v) := by
  simp only [truncInRange]
  omega

/-- `FETCH` on an ALS block writes a lux value in range (R210, R139 (f)). -/
theorem State.Sound.writeLux {s : State} (h : s.Sound) (hk : s.kind = .als) (ch0 ch1 : Half) {c : Code3} {m : Byte}
    (hm : gainTable c = .valid m) (d : Code3) : (s.writeCell .lux (Machine.lux s.num ch0 ch1 m (itimeTable d))).Sound := by
  have hg := gainTable_pos hm
  have ht := itimeTable_ge d
  obtain ⟨cells, range, ⟨⟨-, wtemp, whum⟩, named⟩, reqs⟩ := h
  refine ⟨⟨cells.1, fun hc => by simp [hk] at hc⟩, ?_, ⟨⟨?_, wtemp, whum⟩, ?_⟩, reqs⟩
  · intro hn
    simp only [State.writeCell_num] at hn
    obtain ⟨-, rtemp, rhum⟩ := range hn
    rw [hn]
    exact ⟨⟨(exact_accurate.lux ch0 ch1 m (itimeTable d)).1, lux_exact_le ch0 ch1 hg ht⟩, rtemp, rhum⟩
  · exact truncInRange_of_natAbs (lux_intPart s.num ch0 ch1 d hm)
  · intro hn
    obtain ⟨-, ntemp, nhum⟩ := named hn
    exact ⟨((numerics_accurate hn).lux ch0 ch1 m (itimeTable d)).2 hg ht, ntemp, nhum⟩

/-- `FETCH` on a THS block writes a humidity and a temperature in range (R210, R139 (f)). -/
theorem State.Sound.writeThs {s : State} (h : s.Sound) (hk : s.kind = .ths) (codeH codeT : Half) :
    ((s.writeCell .hum (rhPoly s.num codeH)).writeCell .temp (tPoly s.num codeT)).Sound := by
  obtain ⟨cells, range, ⟨⟨wlux, -, -⟩, named⟩, reqs⟩ := h
  refine ⟨⟨fun hc => by simp [hk] at hc, cells.2⟩, ?_, ⟨⟨wlux, ?_, ?_⟩, ?_⟩, reqs⟩
  · intro hn
    simp only [State.writeCell_num] at hn
    rw [hn]
    exact ⟨(range hn).1, tPoly_exact_range codeT, rhPoly_exact_range codeH⟩
  · exact truncInRange_of_natAbs (tPoly_intPart s.num codeT)
  · exact truncInRange_of_natAbs (rhPoly_intPart s.num codeH)
  · intro hn
    exact ⟨(named hn).1, (numerics_accurate hn).tPoly codeT, (numerics_accurate hn).rhPoly codeH⟩

/-! ### The decode steps on latches that hold values -/

theorem decodeStatus_eq {s : State} {b : Byte} (h : s.lat.raw0 = some b) (k : State → Out) :
    decodeStatus s k = k (s.setSt b) := by
  simp only [decodeStatus, h, withLatch_some]

theorem decodeGain_eq {s : State} {b : Byte} (h : s.lat.raw0 = some b) (k : State → Out) :
    decodeGain s k = k ((s.setGc (gaincode b)).setG (gainTable (gaincode b))) := by
  simp only [decodeGain, h, withLatch_some]

theorem decodeRate_eq {s : State} {b : Byte} (h : s.lat.raw0 = some b) (k : State → Out) :
    decodeRate s k = k ((s.setIc (intcode b)).setIt (itimeTable (intcode b))) := by
  simp only [decodeRate, h, withLatch_some]

theorem Latches.HoldRead.decodeChannels_eq {s : State} (h : s.lat.HoldRead 4) (k : State → Out) :
    ∃ a b, decodeChannels s k = k (s.setChannels a b) := by
  obtain ⟨b0, h0⟩ := h.raw0 (by decide)
  obtain ⟨b1, h1⟩ := h.raw1 (by decide)
  obtain ⟨b2, h2⟩ := h.raw2 (by decide)
  obtain ⟨b3, h3⟩ := h.raw3 (by decide)
  refine ⟨comb16le b0 b1, comb16le b2 b3, ?_⟩
  simp only [decodeChannels, h0, h1, h2, h3, withLatch_some]

/-- Reading a code goes on with the code latched: a failed read has drawn its bytes (R181). -/
theorem readCode_eq {res : BusResult} {s : State} (h : ∀ bs, res = .done bs → s.lat.HoldRead 2)
    (k : Bool → State → Out) :
    ∃ ok c t, readCode res s k = k ok t ∧ SameOutside s t ∧ t.lat.code = some c ∧ t.seq = s.seq := by
  cases res with
  | fail => exact ⟨false, _, _, rfl, ⟨rfl, rfl, rfl, rfl, rfl, rfl, rfl, rfl, rfl, rfl, rfl⟩, rfl, rfl⟩
  | done bs =>
    obtain ⟨b0, h0⟩ := (h bs rfl).raw0 (by decide)
    obtain ⟨b1, h1⟩ := (h bs rfl).raw1 (by decide)
    refine ⟨true, comb16be b0 b1, s.setCode (comb16be b0 b1), ?_,
      ⟨rfl, rfl, rfl, rfl, rfl, rfl, rfl, rfl, rfl, rfl, rfl⟩, rfl, rfl⟩
    simp only [readCode, h0, h1, withLatch_some]

/-! ### What follows an answer keeps the invariant, the last request of each pipeline first -/

section OnAnswer
variable {s : State} {res : BusResult}

/-- The first byte of a successful read. -/
theorem State.Answered.raw0 {st : Stage} {bs : List Byte} (h : s.Answered st (.done bs))
    (hr : 1 ≤ (st.request s.kind).r) : ∃ b, s.lat.raw0 = some b :=
  (h.read bs rfl).raw0 hr

theorem rdbAnswer_keepsInv {addr : Byte} (h : s.Answered (.rdb addr) res) : KeepsInv (rdbAnswer res s) := by
  cases res with
  | fail => exact h.sound.keepsInv_raise _
  | done bs =>
    obtain ⟨b, h0⟩ := h.raw0 le_rfl
    simp only [rdbAnswer, h0, withLatch_some]
    exact h.sound.keepsInv_reply _

theorem rdnAnswer_keepsInv (h : s.Sound) : KeepsInv (rdnAnswer res s) := by
  cases res with
  | fail => exact h.keepsInv_raise _
  | done bs => exact h.keepsInv_reply _

theorem wrbAnswer_keepsInv (h : s.Sound) : KeepsInv (wrbAnswer res s) := by
  cases res with
  | fail => exact h.keepsInv_raise _
  | done bs => exact h.keepsInv_reply _

theorem chkndAnswer_keepsInv (h : s.Answered .chknd res) : KeepsInv (chkndAnswer res s) := by
  cases res with
  | fail => exact h.sound.keepsInv_raise _
  | done bs =>
    obtain ⟨b, h0⟩ := h.raw0 le_rfl
    simp only [chkndAnswer, decodeStatus_eq h0, State.setSt_eq, State.setLat_lat, withLatch_some]
    exact (h.sound.setLat _).keepsInv_reply _

theorem getitAnswer_keepsInv (h : s.Answered .getit res) : KeepsInv (getitAnswer res s) := by
  cases res with
  | fail => exact h.sound.keepsInv_raise _
  | done bs =>
    obtain ⟨b, h0⟩ := h.raw0 le_rfl
    simp only [getitAnswer, decodeRate_eq h0, State.setIt_eq, State.setLat_lat, withLatch_some]
    exact ((h.sound.setLat _).setLat _).keepsInv_reply _

theorem getchAnswer_keepsInv (h : s.Answered .getch res) : KeepsInv (getchAnswer res s) := by
  cases res with
  | fail => exact h.sound.keepsInv_raise _
  | done bs =>
    obtain ⟨a, b, e⟩ := (h.read bs rfl).decodeChannels_eq fun s =>
      withLatch s.lat.ch0 fun a => withLatch s.lat.ch1 fun b => reply (.channels a b) s
    simp only [getchAnswer, e, State.setChannels_eq, State.setLat_lat, withLatch_some]
    exact (h.sound.setLat _).keepsInv_reply _

theorem getgnAnswer_keepsInv (h : s.Answered .getgn res) : KeepsInv (getgnAnswer res s) := by
  cases res with
  | fail => exact h.sound.keepsInv_raise _
  | done bs =>
    obtain ⟨b, h0⟩ := h.raw0 le_rfl
    simp only [getgnAnswer, decodeGain_eq h0, State.setG_eq, State.setLat_lat, withLatch_some]
    cases gainTable (gaincode b) with
    | reserved => exact ((h.sound.setLat _).setLat _).keepsInv_raise _
    | valid m => exact ((h.sound.setLat _).setLat _).keepsInv_reply _

theorem getrhAnswer_keepsInv (h : s.Answered .getrh res) : KeepsInv (getrhAnswer res s) := by
  unfold getrhAnswer
  obtain ⟨ok, c, t, e, same, hc, -⟩ := readCode_eq h.read _
  rw [e, hc, withLatch_some]
  exact keepsInv_next ((h.sound.of_sameOutside same).complete _)

theorem gettAnswer_keepsInv (h : s.Answered .gett res) : KeepsInv (gettAnswer res s) := by
  unfold gettAnswer
  obtain ⟨ok, c, t, e, same, hc, -⟩ := readCode_eq h.read _
  rw [e, hc, withLatch_some]
  exact keepsInv_next ((h.sound.of_sameOutside same).complete _)

theorem lightRateAnswer_keepsInv (h : s.Answered .lightRate res) : KeepsInv (lightRateAnswer res s) := by
  cases res with
  | fail => exact h.sound.keepsInv_raise _
  | done bs =>
    obtain ⟨b, h0⟩ := h.raw0 le_rfl
    obtain ⟨-, hk, hch0, hch1, c, m, hm, hg⟩ := h.suspendedAt
    obtain ⟨c0, h0'⟩ := Option.isSome_iff_exists.1 hch0
    obtain ⟨c1, h1'⟩ := Option.isSome_iff_exists.1 hch1
    simp only [lightRateAnswer, decodeRate_eq h0, fetchLightStore, State.setIt_eq, State.setIc_eq, State.setLat_lat,
      hg, h0', h1', withLatch_some]
    exact (State.Sound.writeLux (s := (s.setLat _).setSeq .cached) (h.sound.congr rfl rfl rfl rfl rfl rfl) hk c0 c1 hm
      (intcode b)).keepsInv_reply _

theorem lightGainAnswer_keepsInv (h : s.Answered .lightGain res) : KeepsInv (lightGainAnswer res s) := by
  cases res with
  | fail => exact h.sound.keepsInv_raise _
  | done bs =>
    obtain ⟨b, h0⟩ := h.raw0 le_rfl
    obtain ⟨hseq, hk, hch0, hch1⟩ := h.suspendedAt
    simp only [lightGainAnswer, decodeGain_eq h0, State.setG_eq, State.setLat_lat, withLatch_some]
    cases hm : gainTable (gaincode b) with
    | reserved => exact ((h.sound.setLat _).setLat _).keepsInv_raise _
    | valid m =>
      exact issue_keepsInv (st := .lightRate)
        ⟨(h.sound.setLat _).setLat _, h.busy, hseq, hk, hch0, hch1, gaincode b, m, hm, rfl⟩
        fun _ _ => lightRateAnswer_keepsInv

theorem lightChannelsAnswer_keepsInv (h : s.Answered .lightChannels res) :
    KeepsInv (lightChannelsAnswer res s) := by
  cases res with
  | fail => exact h.sound.keepsInv_raise _
  | done bs =>
    obtain ⟨hseq, hk⟩ := h.suspendedAt
    obtain ⟨a, b, e⟩ := (h.read bs rfl).decodeChannels_eq (issue .lightGain lightGainAnswer)
    simp only [lightChannelsAnswer, e]
    exact issue_keepsInv (st := .lightGain) ⟨h.sound.setLat _, h.busy, hseq, hk, rfl, rfl⟩
      fun _ _ => lightGainAnswer_keepsInv

theorem lightStatusAnswer_keepsInv (h : s.Answered .lightStatus res) : KeepsInv (lightStatusAnswer res s) := by
  cases res with
  | fail => exact h.sound.keepsInv_raise _
  | done bs =>
    obtain ⟨b, h0⟩ := h.raw0 le_rfl
    obtain ⟨-, hk⟩ := h.suspendedAt
    simp only [lightStatusAnswer, decodeStatus_eq h0, State.setSt_eq, State.setLat_lat, withLatch_some]
    split
    · exact issue_keepsInv (st := .lightChannels) ⟨h.sound.congr rfl rfl rfl rfl rfl rfl, h.busy, rfl, hk⟩
        fun _ _ => lightChannelsAnswer_keepsInv
    · exact (h.sound.setLat _).keepsInv_raise _

theorem thsTempAnswer_keepsInv {okH : Bool} {codeH : Half} (h : s.Answered (.thsTemp okH codeH) res) :
    KeepsInv (thsTempAnswer okH codeH res s) := by
  unfold thsTempAnswer
  obtain ⟨ok, c, t, e, same, hc, -⟩ := readCode_eq h.read _
  rw [e, hc, withLatch_some]
  exact keepsInv_next
    (((h.sound.of_sameOutside same).writeThs (same.kind.trans h.suspendedAt.2) codeH c).complete _)

theorem thsHumAnswer_keepsInv (h : s.Answered .thsHum res) : KeepsInv (thsHumAnswer res s) := by
  unfold thsHumAnswer
  obtain ⟨hseq, hk⟩ := h.suspendedAt
  obtain ⟨ok, c, t, e, same, hc, tseq⟩ := readCode_eq h.read _
  rw [e, hc, withLatch_some]
  exact issue_keepsInv (st := .thsTemp ok c)
    ⟨h.sound.of_sameOutside same, same.busy.trans h.busy, tseq.trans hseq, same.kind.trans hk⟩
    fun _ _ => thsTempAnswer_keepsInv

/-- What follows an answer ends in a next state that meets the invariant, at whatever stage. -/
theorem onAnswer_keepsInv {st : Stage} (h : s.Answered st res) : KeepsInv (st.onAnswer res s) := by
  cases st with
  | rdb addr => exact rdbAnswer_keepsInv h
  | rdn addr n => exact rdnAnswer_keepsInv h.sound
  | wrb addr value => exact wrbAnswer_keepsInv h.sound
  | chknd => exact chkndAnswer_keepsInv h
  | getit => exact getitAnswer_keepsInv h
  | getch => exact getchAnswer_keepsInv h
  | getgn => exact getgnAnswer_keepsInv h
  | getrh => exact getrhAnswer_keepsInv h
  | gett => exact gettAnswer_keepsInv h
  | lightStatus => exact lightStatusAnswer_keepsInv h
  | lightChannels => exact lightChannelsAnswer_keepsInv h
  | lightGain => exact lightGainAnswer_keepsInv h
  | lightRate => exact lightRateAnswer_keepsInv h
  | thsHum => exact thsHumAnswer_keepsInv h
  | thsTemp okH codeH => exact thsTempAnswer_keepsInv h

end OnAnswer

/-! ### A command, a step and a run on a block that meets the invariant -/

theorem fetchPlan_light_kind {k : Kind} {sel : Byte} (h : fetchPlan k sel = .light) : k = .als := by
  cases k with
  | als => rfl
  | ths => rw [fetchPlan_ths] at h; split at h <;> cases h

theorem fetchPlan_ths_kind {k : Kind} {sel : Byte} (h : fetchPlan k sel = .ths) : k = .ths := by
  cases k with
  | als => rw [fetchPlan_als] at h; split at h <;> cases h
  | ths => rfl

/-- A command the block has accepted is at its first request (R24, R89, R90). -/
theorem State.Sound.working_start {i : Instr} {s : State} {st : Stage} (h : s.Sound) (hl : i.legalOn s.kind = true)
    (hf : firstStage s.kind i = some st) : (s.start (firstSeq s.kind i)).Working st := by
  refine ⟨h.congr rfl rfl rfl rfl rfl rfl, rfl, ?_⟩
  obtain ⟨hv, hw⟩ := Bool.and_eq_true_iff.1 hl
  cases i with
  | rdb addr => cases hf; rfl
  | rdn addr n => cases hf; exact ⟨rfl, (of_decide_eq_true hw).1⟩
  | wrb addr value => cases hf; rfl
  | chknd => cases hf; exact ⟨rfl, eq_of_beq hv⟩
  | getit => cases hf; exact ⟨rfl, eq_of_beq hv⟩
  | getch => cases hf; exact ⟨rfl, eq_of_beq hv⟩
  | getgn => cases hf; exact ⟨rfl, eq_of_beq hv⟩
  | clux ch0 ch1 gain itime => cases hf
  | getrh => cases hf; exact ⟨rfl, eq_of_beq hv⟩
  | gett => cases hf; exact ⟨rfl, eq_of_beq hv⟩
  | fetch sel =>
    simp only [firstStage] at hf
    cases hp : fetchPlan s.kind sel <;> rw [hp] at hf <;> cases hf
    · exact ⟨by simp [firstSeq, fetchSeq, hp], fetchPlan_light_kind hp⟩
    · exact ⟨by simp [firstSeq, fetchSeq, hp], fetchPlan_ths_kind hp⟩
  | get sel => cases hf

/-- `GET` keeps the invariant, unless the cell it reads holds no value (R242). -/
theorem getBody_of_sound {s : State} (h : s.Sound) (sel : Byte) :
    KeepsInv (getBody sel s) ∨
    (getBody sel s = .fault .uninitialisedRead ∧ ∃ c, getCell s.kind sel = some c ∧ s.written c = false) := by
  unfold getBody
  cases hg : getCell s.kind sel with
  | none => exact .inl (h.keepsInv_raise _)
  | some c =>
    cases hc : s.cell c with
    | none => exact .inr ⟨by simp only [hc], c, rfl, by simp [State.written, hc]⟩
    | some v => exact .inl (by simp only [hc]; exact h.keepsInv_reply _)

/-- A command without a request keeps the invariant, unless it is a `GET` of a cell without a value. -/
theorem bodyOf_none_of_sound {i : Instr} {s : State} (h : s.Sound) (hf : firstStage s.kind i = none) :
    KeepsInv (bodyOf i s) ∨
    (bodyOf i s = .fault .uninitialisedRead ∧
      ∃ sel c, i = .get sel ∧ getCell s.kind sel = some c ∧ s.written c = false) := by
  unfold bodyOf
  rw [hf]
  cases i with
  | clux ch0 ch1 gain itime => exact .inl (h.keepsInv_reply _)
  | get sel =>
    rcases getBody_of_sound h sel with hk | ⟨e, c, hc, hw⟩
    · exact .inl hk
    · exact .inr ⟨e, sel, c, rfl, hc, hw⟩
  | _ => exact .inl (h.keepsInv_raise _)

/-- What a command can do on a block that meets the invariant: keep it, read a cell without a value (R242), or be
refused while another is in progress (R243). -/
theorem exec_of_inv {s : State} (h : s.Inv) (i : Instr) :
    KeepsInv (exec i s) ∨
    (exec i s = .fault .uninitialisedRead ∧ s.busy = false ∧
      ∃ sel c, i = .get sel ∧ getCell s.kind sel = some c ∧ s.written c = false) ∨
    (exec i s = .refused .concurrentCommand ∧ s.busy = true ∧ i.legalOn s.kind = true) := by
  rw [exec_eq_accept]
  cases hl : i.legalOn s.kind with
  | false => rw [accept_illegal hl]; exact .inl (keepsInv_next (h.congr s.host s.transport _ s.drawIndex))
  | true =>
    cases hb : s.busy with
    | true => exact .inr (.inr ⟨accept_busy hl hb, rfl, rfl⟩)
    | false =>
      rw [accept_idle hl hb]
      cases hf : firstStage s.kind i with
      | some st =>
        have hk := issue_keepsInv (h.sound.working_start hl hf) fun _ _ => onAnswer_keepsInv
        exact .inl (bodyOf_some (s := s.start _) hf ▸ hk)
      | none =>
        have sound : (s.start (firstSeq s.kind i)).Sound := h.sound.congr rfl rfl rfl rfl rfl rfl
        rcases bodyOf_none_of_sound sound hf with hk | ⟨e, sel, c, hi, hc, hw⟩
        · exact .inl hk
        · exact .inr (.inl ⟨e, rfl, sel, c, hi, hc, by cases c <;> exact hw⟩)

/-- The sequencer's part of a step keeps the invariant, and never stops. -/
theorem resume_of_inv {s : State} (h : s.Inv) : KeepsInv (resume s) := by
  unfold resume
  split
  · next hb hp => exact settle_keepsInv h hb hp fun _ _ => onAnswer_keepsInv
  · exact keepsInv_next h
  · exact keepsInv_next h

/-- The reset state meets the invariant, whatever requests were made before and whatever is to come. -/
theorem resetOf_inv {k : Kind} (n : Numeric) (d : Nat) {bus : List Request} (hs : List HostAct)
    (ts : List TransportAct) (requests : ∀ r ∈ bus, r.Shape k) :
    State.Inv { State.resetOf k n with drawIndex := d, bus := bus, host := hs, transport := ts } where
  busySeq := rfl
  quiet := fun _ => ⟨rfl, rfl⟩
  suspended := fun hb => by cases hb
  cellsOfKind := ⟨fun _ => ⟨rfl, rfl⟩, fun _ => rfl⟩
  cellsInRange := fun _ => ⟨trivial, trivial, trivial⟩
  intPartsInRange := State.intPartsInRange_of_ranges ⟨trivial, trivial, trivial⟩
  requests := requests

/-- A presented word keeps the invariant, or it stops the block as its command does. -/
theorem present_of_inv {s : State} (h : s.Inv) (w : CmdWord) :
    KeepsInv (present w s) ∨
    (present w s = .fault .uninitialisedRead ∧ s.busy = false ∧
      ∃ sel c, decode w = .ok (.get sel) ∧ getCell s.kind sel = some c ∧ s.written c = false) ∨
    (present w s = .refused .concurrentCommand ∧ s.busy = true ∧ ∃ i, decode w = .ok i ∧ i.legalOn s.kind = true) := by
  unfold present
  cases hd : decode w with
  | error e => exact .inl (keepsInv_next (h.congr s.host s.transport _ s.drawIndex))
  | ok i =>
    rcases exec_of_inv h i with hk | ⟨e, hb, sel, c, rfl, hc, hw⟩ | ⟨e, hb, hl⟩
    · exact .inl hk
    · exact .inr (.inl ⟨e, hb, sel, c, rfl, hc, hw⟩)
    · exact .inr (.inr ⟨e, hb, i, rfl, hl⟩)

/-- What a step can do on a block that meets the invariant: keep it, read a cell without a value (R242), or refuse a
command while another is in progress (R243). -/
theorem step_of_inv {s : State} (h : s.Inv) :
    KeepsInv (step s) ∨
    (step s = .fault .uninitialisedRead ∧ s.busy = false ∧
      ∃ w sel c, s.presented = some w ∧ decode w = .ok (.get sel) ∧ getCell s.kind sel = some c ∧
        s.written c = false) ∨
    (step s = .refused .concurrentCommand ∧ s.busy = true ∧
      ∃ w i, s.presented = some w ∧ decode w = .ok i ∧ i.legalOn s.kind = true) := by
  have hostTaken (hs : List HostAct) : State.Inv { s with host := hs } :=
    h.congr hs s.transport s.response s.drawIndex
  cases hp : s.presented with
  | some w =>
    rw [step_presented hp]
    rcases present_of_inv (hostTaken _) w with hk | ⟨e, hb, sel, c, hd, hc, hw⟩ | ⟨e, hb, i, hd, hl⟩
    · exact .inl hk
    · exact .inr (.inl ⟨e, hb, w, sel, c, rfl, hd, hc, by cases c <;> exact hw⟩)
    · exact .inr (.inr ⟨e, hb, w, i, rfl, hd, hl⟩)
  | none =>
    rcases step_not_presented hp with ⟨-, e⟩ | ⟨-, ⟨-, e⟩ | ⟨hs, e⟩⟩ <;> rw [e]
    · exact .inl (keepsInv_next (resetOf_inv s.num _ _ _ h.requests))
    · exact .inl (keepsInv_next (hostTaken _))
    · exact .inl (resume_of_inv (hostTaken hs))

theorem step_inv {s t : State} (h : s.Inv) (ht : step s = .next t) : t.Inv := by
  rcases step_of_inv h with ⟨u, e, hu⟩ | ⟨e, -⟩ | ⟨e, -⟩ <;> rw [ht] at e <;> cases e
  exact hu

theorem run_succ_next {s t : State} (n : Nat) (h : step s = .next t) :
    Sys2Proof.core.run (n + 1) s = Sys2Proof.core.run n t := by
  have coreStep : Sys2Proof.core.step s = .next t := h
  simp only [Host.Core.run, coreStep]

theorem run_succ_fault {s : State} {f : Fault} (n : Nat) (h : step s = .fault f) :
    Sys2Proof.core.run (n + 1) s = .fault f := by
  have coreStep : Sys2Proof.core.step s = .fault f := h
  simp only [Host.Core.run, coreStep]

theorem run_succ_refused {s : State} {r : Refusal} (n : Nat) (h : step s = .refused r) :
    Sys2Proof.core.run (n + 1) s = .refused r := by
  have coreStep : Sys2Proof.core.step s = .refused r := h
  simp only [Host.Core.run, coreStep]

/-- A run from a state that meets the invariant keeps it, or stops for one of the two reasons the spec names. -/
theorem run_of_inv (n : Nat) {s : State} (h : s.Inv) :
    KeepsInv (Sys2Proof.core.run n s) ∨ Sys2Proof.core.run n s = .fault .uninitialisedRead ∨
    Sys2Proof.core.run n s = .refused .concurrentCommand := by
  induction n generalizing s with
  | zero => exact .inl (keepsInv_next h)
  | succ n ih =>
    rcases step_of_inv h with ⟨t, e, ht⟩ | ⟨e, -⟩ | ⟨e, -⟩
    · rw [run_succ_next n e]; exact ih ht
    · exact .inr (.inl (run_succ_fault n e))
    · exact .inr (.inr (run_succ_refused n e))

/-- Settles O51: no outcome of a step on a block that meets the invariant is a state that does not. -/
theorem stepKeepsTheInvariant : Obligations.StepKeepsTheInvariant := fun _ _ => step_inv

/-- Settles O52, by induction on the length of the run, from the invariant of the reset state. -/
theorem noRunReadsAnUnwrittenLatch : Obligations.NoRunReadsAnUnwrittenLatch := by
  intro k num hs ts n hfault
  have inv := resetOf_inv (k := k) num 0 (bus := []) hs ts (by simp)
  unfold runFrom at hfault
  rcases run_of_inv n inv with ⟨t, e, -⟩ | e | e <;> cases hfault.symm.trans e

/-! ### The parameters, the frame of a command, and the cells -/

/-- A command changes neither the parameters nor the host's list. -/
theorem exec_frame {i : Instr} {s t : State} (h : exec i s = .next t) :
    t.kind = s.kind ∧ t.num = s.num ∧ t.host = s.host := by
  rcases exec_cases h with ⟨-, rfl⟩ | ⟨-, -, -, r, rfl, -⟩ | ⟨-, -, st, -, h⟩
  · exact ⟨rfl, rfl, rfl⟩
  · exact ⟨rfl, rfl, rfl⟩
  · have frame := settle_frame st _ t h
    exact ⟨frame.kind, frame.num, frame.host⟩

/-- The sequencer's part of a step changes neither the parameters nor the host's list. -/
theorem resume_frame {s t : State} (h : resume s = .next t) : t.kind = s.kind ∧ t.num = s.num ∧ t.host = s.host := by
  rcases resume_cases h with rfl | ⟨-, st, -, h⟩
  · exact ⟨rfl, rfl, rfl⟩
  · have frame := settle_frame st s t h
    exact ⟨frame.kind, frame.num, frame.host⟩

/-- Settles O45: none of the things a step can be writes either field. -/
theorem kindNeverChanges : Obligations.KindNeverChanges := by
  intro s t h
  rcases step_cases h with ⟨-, rfl⟩ | ⟨w, -, ⟨e, -, rfl⟩ | ⟨i, -, hi⟩⟩ | ⟨-, -, ⟨-, rfl⟩ | ⟨hs, hr⟩⟩
  · exact ⟨rfl, rfl⟩
  · exact ⟨rfl, rfl⟩
  · obtain ⟨kind, num, -⟩ := exec_frame hi
    exact ⟨kind, num⟩
  · exact ⟨rfl, rfl⟩
  · obtain ⟨kind, num, -⟩ := resume_frame hr
    exact ⟨kind, num⟩

/-- A command whose first request is one of a fetch is a `FETCH`. -/
theorem fetch_of_firstStage {k : Kind} {i : Instr} {st : Stage} (h : firstStage k i = some st)
    (hf : st.ofFetch = true) : ∃ sel, i = .fetch sel := by
  cases i with
  | fetch sel => exact ⟨sel, rfl⟩
  | _ => cases h <;> cases hf

/-- The requests of the register and the light commands: nothing but `ReadCode` draws bytes (R181). -/
def Stage.drawsNothing : Stage → Bool
  | .rdb _ | .rdn _ _ | .wrb _ _ | .chknd | .getit | .getch | .getgn => true
  | .getrh | .gett | .lightStatus | .lightChannels | .lightGain | .lightRate | .thsHum | .thsTemp _ _ => false

/-- The outcome is no next state with a draw counter other than `n`. -/
def KeepsDraw (n : Nat) (o : Out) : Prop := ∀ t, o = .next t → t.drawIndex = n

theorem keepsDraw_complete (s : State) (r : Response) : KeepsDraw s.drawIndex (.next (s.complete r)) := by
  rintro t ⟨⟩; rfl

theorem keepsDraw_withLatch {α : Type} {n : Nat} {o : Option α} {k : α → Out} (h : ∀ v, KeepsDraw n (k v)) :
    KeepsDraw n (withLatch o k) := by
  cases o with
  | none => rintro t ⟨⟩
  | some v => exact h v

theorem onAnswer_keepsDraw {st : Stage} (hd : st.drawsNothing = true) (res : BusResult) (s : State) :
    KeepsDraw s.drawIndex (st.onAnswer res s) := by
  cases res with
  | fail =>
    cases st with
    | rdb _ | rdn _ _ | wrb _ _ | chknd | getit | getch | getgn => exact keepsDraw_complete s _
    | _ => cases hd
  | done bs =>
    cases st with
    | rdb addr => exact keepsDraw_withLatch fun _ => keepsDraw_complete s _
    | rdn _ _ | wrb _ _ => exact keepsDraw_complete s _
    | chknd | getit => exact keepsDraw_withLatch fun _ => keepsDraw_withLatch fun _ => keepsDraw_complete _ _
    | getch =>
      exact keepsDraw_withLatch fun _ => keepsDraw_withLatch fun _ => keepsDraw_withLatch fun _ =>
        keepsDraw_withLatch fun _ => keepsDraw_withLatch fun _ => keepsDraw_withLatch fun _ => keepsDraw_complete _ _
    | getgn =>
      refine keepsDraw_withLatch fun b => keepsDraw_withLatch fun g => ?_
      cases g <;> exact keepsDraw_complete _ _
    | _ => cases hd

theorem settle_keepsDraw {st : Stage} (hd : st.drawsNothing = true) (s : State) :
    KeepsDraw s.drawIndex (settle st st.onAnswer s) := by
  rcases settle_cases st st.onAnswer s with ⟨-, e⟩ | ⟨ts, -, e⟩ | ⟨a, ts, res, -, -, -, e⟩ <;> rw [e]
  · rintro t ⟨⟩; rfl
  · rintro t ⟨⟩; rfl
  · obtain ⟨l, hl⟩ := State.afterAnswer_eq (st.request s.kind).r res (s.answered ts)
    rw [hl]
    exact onAnswer_keepsDraw hd res _

/-- Outside the fetches no request follows another. -/
theorem Stage.rank_of_not_fetch {st : Stage} (h : st.ofFetch = false) : st.rank = 0 := by
  cases st <;> simp [Stage.ofFetch] at h <;> rfl

/-- Settles O42: such a command only answers, or has one request, which no other follows. -/
theorem commandsOtherThanFetchKeepTheCache : Obligations.CommandsOtherThanFetchKeepTheCache := by
  intro i s t notFetch h
  obtain ⟨kind, num, host⟩ := exec_frame h
  rcases exec_cases h with ⟨-, rfl⟩ | ⟨-, -, -, r, rfl, -⟩ | ⟨-, -, st, hf, hst⟩
  · exact ⟨rfl, rfl, rfl, rfl, rfl, rfl, .inl rfl, fun _ _ => rfl⟩
  · exact ⟨rfl, rfl, rfl, rfl, rfl, rfl, .inl rfl, fun _ _ => rfl⟩
  · have other : st.ofFetch = false := by
      by_contra hc
      obtain ⟨sel, e⟩ := fetch_of_firstStage hf (by simpa using hc)
      exact notFetch sel e
    have frame := settle_frame st _ t hst
    obtain ⟨lux, temp, hum⟩ := frame.cellsOutsideFetch other
    obtain ⟨new, hb, hlen, -⟩ := frame.bus
    obtain rfl : new = [] := List.length_eq_zero_iff.1 (by rw [Stage.rank_of_not_fetch other] at hlen; omega)
    refine ⟨lux, temp, hum, kind, num, host, .inr ⟨st, hf, by simpa using hb⟩, fun hrh ht => ?_⟩
    have quiet : st.drawsNothing = true := by
      cases i with
      | getrh => exact absurd rfl hrh
      | gett => exact absurd rfl ht
      | fetch sel => exact absurd rfl (notFetch sel)
      | _ => cases hf <;> rfl
    exact settle_keepsDraw quiet ((s.start _).request st) t hst

/-- If lux changes while a command goes on, the command has ended `Ok` (R164). -/
theorem settle_lux (st : Stage) {s t : State} (h : settle st st.onAnswer s = .next t) :
    t.lux = s.lux ∨ t.response = some { outcome := .ok, payload := .none } := by
  induction hn : st.rank using Nat.strong_induction_on generalizing st s with
  | _ n ih =>
    rcases settle_cases st st.onAnswer s with ⟨-, e⟩ | ⟨ts, -, e⟩ | ⟨a, ts, res, -, -, -, e⟩
    · rw [e] at h; cases h; exact .inl rfl
    · rw [e] at h; cases h; exact .inl rfl
    · obtain ⟨l, hl⟩ := State.afterAnswer_eq (st.request s.kind).r res (s.answered ts)
      rw [e, hl] at h
      rcases onAnswer_cases st res ((s.answered ts).setLat l) with
        e | ⟨st', u, e, same, hlt, -, -⟩ | ⟨u, r, e, same⟩ | ⟨u, v, e, same, -⟩ | ⟨u, hh, v, r, okH, codeH, e, same, -⟩ <;>
        rw [e] at h
      · cases h
      · rcases ih _ (hn ▸ hlt) st' (s := u.request st') h rfl with hlux | hresp
        · exact .inl (hlux.trans same.lux)
        · exact .inr hresp
      · cases h; exact .inl same.lux
      · cases h; exact .inr rfl
      · cases h; exact .inl same.lux

/-- On an ALS block that keeps the invariant only lux can change. -/
theorem lux_changed_of_als {s t : State} (hs : s.Inv) (ht : t.Inv) (kind : t.kind = s.kind) (als : s.kind = .als)
    (changed : t.lux ≠ s.lux ∨ t.temp ≠ s.temp ∨ t.hum ≠ s.hum) : t.lux ≠ s.lux := by
  obtain ⟨stemp, shum⟩ := hs.cellsOfKind.1 als
  obtain ⟨ttemp, thum⟩ := ht.cellsOfKind.1 (kind.trans als)
  simpa [stemp, shum, ttemp, thum] using changed

/-- A command that changes a cell while it goes on is a fetch. -/
theorem ofFetch_of_settle_changed {st : Stage} {s t : State} (h : settle st st.onAnswer s = .next t)
    (changed : t.lux ≠ s.lux ∨ t.temp ≠ s.temp ∨ t.hum ≠ s.hum) : st.ofFetch = true := by
  by_contra hc
  obtain ⟨lux, temp, hum⟩ := (settle_frame st s t h).cellsOutsideFetch (by simpa using hc)
  simp [lux, temp, hum] at changed

/-- Settles O43: of the things a step can be, only a reset and the requests of a fetch change a cell. -/
theorem onlyFetchAndResetChangeTheCache : Obligations.OnlyFetchAndResetChangeTheCache := by
  intro s t inv h changed
  have kind := (kindNeverChanges s t h).1
  have unchanged : ¬ (s.lux ≠ s.lux ∨ s.temp ≠ s.temp ∨ s.hum ≠ s.hum) := by simp
  -- on an ALS block the change is one of lux, and that comes with the response `Ok`
  have ok {st : Stage} {u : State} (hst : settle st st.onAnswer u = .next t) (hlux : u.lux = s.lux) (als : s.kind = .als) :
      t.response = some { outcome := .ok, payload := .none } :=
    (settle_lux st hst).resolve_left (hlux ▸ lux_changed_of_als inv (step_inv inv h) kind als changed)
  rcases step_cases h with ⟨hh, -⟩ | ⟨w, hw, ⟨e, -, rfl⟩ | ⟨i, hd, hi⟩⟩ | ⟨-, -, ⟨-, rfl⟩ | ⟨hs, hr⟩⟩
  · exact .inl hh
  · exact absurd changed unchanged
  · rcases exec_cases hi with ⟨-, rfl⟩ | ⟨-, -, -, r, rfl, -⟩ | ⟨-, -, st, hf, hst⟩
    · exact absurd changed unchanged
    · exact absurd changed unchanged
    · obtain ⟨sel, rfl⟩ := fetch_of_firstStage hf (ofFetch_of_settle_changed hst changed)
      exact .inr ⟨.inl ⟨w, sel, hw, hd⟩, ok hst rfl⟩
  · exact absurd changed unchanged
  · rcases resume_cases hr with rfl | ⟨hb, st, hp, hst⟩
    · exact absurd changed unchanged
    · exact .inr ⟨.inr ⟨hb, st, hp, ofFetch_of_settle_changed hst changed⟩, ok hst rfl⟩

/-! ### The command port -/

/-- Settles O8: acceptance refuses before the command's rule runs. -/
theorem busyBlockRefusesACommand : Obligations.BusyBlockRefusesACommand := by
  intro i s legal busy
  rw [exec_eq_accept]
  exact accept_busy legal busy

theorem present_ok {w : CmdWord} {i : Instr} (h : decode w = .ok i) (s : State) : present w s = exec i s := by
  simp only [present, h]

theorem step_host_cons {s : State} {a : HostAct} {hs : List HostAct} (h : s.host = a :: hs) : step s = act a hs s := by
  simp only [step, h]

/-- The step after presenting a word that decodes runs its command on the block the word is presented to. -/
theorem step_presentNext {w : CmdWord} {i : Instr} (h : decode w = .ok i) (s : State) :
    step (s.presentNext w) = exec i (s.asKind (kindFor w s.kind)) :=
  present_ok h (s.asKind (kindFor w s.kind))

@[simp] theorem tableWord_toNat (w : CmdWord) : tableWord 64 w.toNat = w := by
  simp [tableWord, Nat.mod_eq_of_lt w.isLt]

@[simp] theorem State.asKind_self (s : State) : s.asKind s.kind = s := if_pos rfl

/-- Every opcode is valid on one of the two kinds (R89). -/
theorem op_validOn_als_or_ths (o : Op) : o.validOn .als = true ∨ o.validOn .ths = true := by
  cases o <;> decide

/-- A word is presented to a block its opcode is valid on. -/
theorem validOn_kindFor {w : CmdWord} {i : Instr} (h : decode w = .ok i) (k : Kind) :
    i.op.validOn (kindFor w k) = true := by
  simp only [kindFor, h]
  split_ifs with hk hals
  · exact hk
  · exact hals
  · exact (op_validOn_als_or_ths i.op).resolve_left hals

theorem kindFor_of_validOn {w : CmdWord} {i : Instr} {k : Kind} (h : decode w = .ok i) (hk : i.op.validOn k = true) :
    kindFor w k = k := by
  simp only [kindFor, h, hk, if_true]

/-- Settles O5, one clause for each form of the host's next action. -/
theorem stepRunsThePresentedCommand : Obligations.StepRunsThePresentedCommand := by
  refine ⟨?presented, ?turn, ?nothing, ?fetchWord⟩
  case presented =>
    rintro s w hs i (hh | ⟨ifOk, hh, busy, ok⟩) hd
    · rw [step_host_cons hh]
      exact present_ok hd _
    · have follows : (ifOk && !s.endedOk) = false := by
        cases ifOk with
        | false => rfl
        | true => simp [ok rfl]
      rw [step_host_cons hh]
      simp only [act, busy, follows, Bool.false_eq_true, if_false]
      exact present_ok hd _
  case turn =>
    intro s w ifOk hs hh
    rw [step_host_cons hh]
    refine ⟨fun busy => by simp only [act, busy, if_true], fun busy hok hend => ?_⟩
    simp [act, busy, hok, hend]
  case nothing =>
    intro s hh
    cases e : s.host with
    | nil => simp only [step, e, List.tail_nil]; rw [← e]
    | cons a hs =>
      rw [e] at hh
      obtain rfl : a = .idle := by simpa using hh
      exact step_host_cons e
  case fetchWord =>
    intro s w i hd
    have run : step (s.withFetchWord 64 w.toNat) = exec i (s.asKind (kindFor w s.kind)) := by
      rw [State.withFetchWord, tableWord_toNat, step_presentNext hd]
    exact ⟨fun valid => by rw [run, kindFor_of_validOn hd valid, State.asKind_self],
      kindFor w s.kind, validOn_kindFor hd s.kind, run⟩

end Sys2Proof.Machine

/-! Proofs of the family "memory": a request that is not answered, an answer with a wrong number of bytes, the record
of requests, and late answers. -/

namespace Sys2Proof.Machine

/-! ### The first request of a command -/

/-- A legal command with a request, presented to an idle block, puts it and waits for its answer. -/
theorem exec_firstStage {i : Instr} {s : State} {st : Stage} (legal : i.legalOn s.kind = true) (idle : s.busy = false)
    (first : firstStage s.kind i = some st) :
    exec i s = settle st st.onAnswer ((s.start (firstSeq s.kind i)).request st) := by
  rw [exec_eq_accept, accept_idle legal idle, bodyOf_some (by simpa using first)]

/-- Settles O11: waiting for the first answer ends where it began, or with one action of the transport less. -/
theorem unansweredCommandIsSuspended : Obligations.UnansweredCommandIsSuspended := by
  intro i s st legal idle first
  rw [exec_firstStage legal idle first]
  exact ⟨fun h => settle_nil h, fun ts h => settle_notYet h⟩

/-- An answer of the wrong length and a failure, taken in states that differ in that answer only, have one result. -/
theorem settle_wrongLength_eq_fail {st : Stage} {k : BusResult → State → Out} {s u : State} {bs : List Byte}
    {ts : List TransportAct} (wrong : bs.length ≠ (st.request s.kind).r) (hs : s.transport = .done bs :: ts)
    (hu : u.transport = .fail :: ts) (same : s.answered ts = u.answered ts) : settle st k s = settle st k u := by
  have kind : s.kind = u.kind := by simpa using congrArg State.kind same
  rw [settle_wrongLength hs wrong, settle_fail hu, same, kind]

/-- Settles O12: the two states in which the command waits for its first answer differ in that answer only. -/
theorem wrongLengthAnswerIsAFailure : Obligations.WrongLengthAnswerIsAFailure := by
  intro i s st bs ts legal idle first wrong
  rw [exec_firstStage (s := { s with transport := .done bs :: ts }) legal idle first,
    exec_firstStage (s := { s with transport := .fail :: ts }) legal idle first]
  exact settle_wrongLength_eq_fail wrong rfl rfl rfl

/-! ### The record of requests and the transport's list -/

/-- From `s` to `t` at most four requests were added to the record, and an initial part of the transport's list used. -/
structure OnlyAppends (s t : State) : Prop where
  bus : ∃ new, t.bus = s.bus ++ new ∧ new.length ≤ 4
  transport : ∃ used, s.transport = used ++ t.transport

theorem OnlyAppends.of_eq {s t : State} (bus : t.bus = s.bus) (transport : t.transport = s.transport) :
    OnlyAppends s t :=
  ⟨⟨[], by simp [bus], by simp⟩, ⟨[], by simp [transport]⟩⟩

/-- A command's first request is followed by at most three others (R165). -/
theorem exec_onlyAppends {i : Instr} {s t : State} (h : exec i s = .next t) : OnlyAppends s t := by
  rcases exec_cases h with ⟨-, rfl⟩ | ⟨-, -, -, r, rfl, -⟩ | ⟨-, -, st, -, hst⟩
  · exact .of_eq rfl rfl
  · exact .of_eq rfl rfl
  · have frame := settle_frame st _ t hst
    obtain ⟨new, hbus, hlen, -⟩ := frame.bus
    have := st.rank_le
    exact ⟨⟨st.request s.kind :: new, by simpa using hbus, by simp only [List.length_cons]; omega⟩, frame.transport⟩

theorem resume_onlyAppends {s t : State} (h : resume s = .next t) : OnlyAppends s t := by
  rcases resume_cases h with rfl | ⟨-, st, -, hst⟩
  · exact .of_eq rfl rfl
  · have frame := settle_frame st s t hst
    obtain ⟨new, hbus, hlen, -⟩ := frame.bus
    have := st.rank_le
    exact ⟨⟨new, hbus, by omega⟩, frame.transport⟩

/-- Settles O46: of the things a step can be, only a command that is run or goes on makes requests. -/
theorem requestsAreOnlyAppended : Obligations.RequestsAreOnlyAppended := by
  intro s t h
  suffices appends : OnlyAppends s t from ⟨appends.bus, appends.transport⟩
  rcases step_cases h with ⟨-, rfl⟩ | ⟨w, -, ⟨e, -, rfl⟩ | ⟨i, -, hi⟩⟩ | ⟨-, -, ⟨-, rfl⟩ | ⟨hs, hr⟩⟩
  · exact .of_eq rfl rfl
  · exact .of_eq rfl rfl
  · obtain ⟨bus, transport⟩ := exec_onlyAppends hi
    exact ⟨bus, transport⟩
  · exact .of_eq rfl rfl
  · obtain ⟨bus, transport⟩ := resume_onlyAppends hr
    exact ⟨bus, transport⟩

/-! ### Late answers -/

@[simp] theorem State.prompt_kind (s : State) : s.prompt.kind = s.kind := rfl

@[simp] theorem State.prompt_cell (s : State) (c : CellName) : s.prompt.cell c = s.cell c := by
  cases c <;> rfl

/-- The outcome `o` is the outcome `p` with late answers: if `p` is a next state of an idle block, then from `o` the
sequencer comes to that state, but for answers still to come late. -/
def DelayOf (p o : Out) : Prop :=
  ∀ t, p = .next t → t.busy = false → ∃ n u, waitSteps n o = .next u ∧ u.prompt = t

theorem delayOf_next (u : State) : DelayOf (.next u.prompt) (.next u) := by
  rintro t ⟨⟩ -
  exact ⟨0, u, rfl, rfl⟩

theorem delayOf_complete (s : State) (r : Response) :
    DelayOf (.next (s.prompt.complete r)) (.next (s.complete r)) :=
  delayOf_next (s.complete r)

/-- What both do with a latch they read alike is all that matters. -/
theorem delayOf_withLatch {α : Type} {o : Option α} {j k : α → Out} (h : ∀ v, DelayOf (j v) (k v)) :
    DelayOf (withLatch o j) (withLatch o k) := by
  cases o with
  | none => rintro t ⟨⟩
  | some v => exact h v

/-- One more step of waiting. -/
theorem DelayOf.wait {p : Out} {s : State} (h : DelayOf p (resume s)) : DelayOf p (.next s) := by
  intro t ht idle
  obtain ⟨n, u, hu, e⟩ := h t ht idle
  exact ⟨n + 1, u, hu, e⟩

theorem resume_suspended {s : State} {st : Stage} (busy : s.busy = true) (pending : s.pending = some st) :
    resume s = settle st st.onAnswer s := by
  simp only [resume, busy, pending]

/-- A block suspended at a request, the transport's list being `ts`, is only delayed by the late answers in it. -/
def DelaysFrom (ts : List TransportAct) : Prop :=
  ∀ (st : Stage) (u : State), u.busy = true → u.pending = some st → u.transport = ts →
    DelayOf (settle st st.onAnswer u.prompt) (settle st st.onAnswer u)

theorem DelaysFrom.issue {ts : List TransportAct} (later : DelaysFrom ts) (st : Stage) (u : State)
    (busy : u.busy = true) (transport : u.transport = ts) :
    DelayOf (issue st st.onAnswer u.prompt) (issue st st.onAnswer u) :=
  later st (u.request st) busy rfl transport

/-- The code read and its success do not depend on the transport's list (R181). -/
theorem delayOf_readCode {res : BusResult} {s : State} {k : Bool → State → Out}
    (h : ∀ ok u, u.busy = s.busy → u.transport = s.transport → DelayOf (k ok u.prompt) (k ok u)) :
    DelayOf (readCode res s.prompt k) (readCode res s k) := by
  cases res with
  | done bs =>
    exact delayOf_withLatch fun b0 => delayOf_withLatch fun b1 => h true (s.setCode (comb16be b0 b1)) rfl rfl
  | fail =>
    exact h false (s.drawRaw.setCode (comb16be (Config.draw s.drawIndex) (Config.draw (s.drawIndex + 1)))) rfl rfl

theorem delayOf_getrhAnswer (res : BusResult) (s : State) : DelayOf (getrhAnswer res s.prompt) (getrhAnswer res s) := by
  unfold getrhAnswer
  exact delayOf_readCode fun ok u _ _ => delayOf_withLatch fun code => delayOf_complete u _

theorem delayOf_gettAnswer (res : BusResult) (s : State) : DelayOf (gettAnswer res s.prompt) (gettAnswer res s) := by
  unfold gettAnswer
  exact delayOf_readCode fun ok u _ _ => delayOf_withLatch fun code => delayOf_complete u _

theorem delayOf_thsTempAnswer (okH : Bool) (codeH : Half) (res : BusResult) (s : State) :
    DelayOf (thsTempAnswer okH codeH res s.prompt) (thsTempAnswer okH codeH res s) := by
  unfold thsTempAnswer
  exact delayOf_readCode fun ok u _ _ => delayOf_withLatch fun code =>
    delayOf_complete ((u.writeCell .hum _).writeCell .temp _) _

theorem delayOf_thsHumAnswer {s : State} (busy : s.busy = true) (later : DelaysFrom s.transport) (res : BusResult) :
    DelayOf (thsHumAnswer res s.prompt) (thsHumAnswer res s) := by
  unfold thsHumAnswer
  exact delayOf_readCode fun ok u hb ht => delayOf_withLatch fun code =>
    later.issue (.thsTemp ok code) u (hb.trans busy) ht

/-- What follows an answer looks at the transport's list only for its next request. -/
theorem delayOf_onAnswer {s : State} (busy : s.busy = true) (later : DelaysFrom s.transport) (st : Stage)
    (res : BusResult) : DelayOf (st.onAnswer res s.prompt) (st.onAnswer res s) := by
  cases res with
  | fail =>
    cases st with
    | getrh => exact delayOf_getrhAnswer _ s
    | gett => exact delayOf_gettAnswer _ s
    | thsHum => exact delayOf_thsHumAnswer busy later _
    | thsTemp okH codeH => exact delayOf_thsTempAnswer okH codeH _ s
    | _ => exact delayOf_complete s _
  | done bs =>
    cases st with
    | rdb addr => exact delayOf_withLatch fun b => delayOf_complete s _
    | rdn _ _ | wrb _ _ => exact delayOf_complete s _
    | chknd | getit => exact delayOf_withLatch fun b => delayOf_withLatch fun v => delayOf_complete s _
    | getch =>
      exact delayOf_withLatch fun b0 => delayOf_withLatch fun b1 => delayOf_withLatch fun b2 =>
        delayOf_withLatch fun b3 => delayOf_withLatch fun c0 => delayOf_withLatch fun c1 => delayOf_complete s _
    | getgn =>
      refine delayOf_withLatch fun b => delayOf_withLatch fun g => ?_
      cases g <;> exact delayOf_complete s _
    | getrh => exact delayOf_getrhAnswer _ s
    | gett => exact delayOf_gettAnswer _ s
    | lightStatus =>
      refine delayOf_withLatch fun b => delayOf_withLatch fun status => ?_
      cases statusValid status with
      | false => exact delayOf_complete s _
      | true => exact later.issue .lightChannels ((s.setSt b).setSeq .ready) busy rfl
    | lightChannels =>
      exact delayOf_withLatch fun b0 => delayOf_withLatch fun b1 => delayOf_withLatch fun b2 =>
        delayOf_withLatch fun b3 => later.issue .lightGain (s.setChannels (comb16le b0 b1) (comb16le b2 b3)) busy rfl
    | lightGain =>
      refine delayOf_withLatch fun b => delayOf_withLatch fun g => ?_
      cases g with
      | reserved => exact delayOf_complete s _
      | valid m => exact later.issue .lightRate ((s.setGc (gaincode b)).setG (gainTable (gaincode b))) busy rfl
    | lightRate =>
      refine delayOf_withLatch fun b => delayOf_withLatch fun g => ?_
      cases g with
      | reserved => exact delayOf_complete s _
      | valid m =>
        exact delayOf_withLatch fun c0 => delayOf_withLatch fun c1 => delayOf_withLatch fun t =>
          delayOf_complete (s.writeCell .lux _) _
    | thsHum => exact delayOf_thsHumAnswer busy later _
    | thsTemp okH codeH => exact delayOf_thsTempAnswer okH codeH _ s

/-- Leaving out the late answers and taking an answer can be done in either order. -/
theorem State.prompt_afterAnswer (r : Nat) (res : BusResult) (s : State) :
    (s.afterAnswer r res).prompt = s.prompt.afterAnswer r res := by
  cases res with
  | done bs => rfl
  | fail =>
    simp only [State.afterAnswer]
    split <;> rfl

/-- An answer gives the request in flight a result that depends on the request alone. -/
theorem settle_answer (st : Stage) (k : BusResult → State → Out) (kind : Kind) {a : TransportAct} (ha : a ≠ .notYet) :
    ∃ res, ∀ (s : State) (ts : List TransportAct), s.kind = kind → s.transport = a :: ts →
      settle st k s = k res ((s.answered ts).afterAnswer (st.request kind).r res) := by
  cases a with
  | notYet => exact absurd rfl ha
  | fail => exact ⟨.fail, fun s ts hk h => by rw [settle_fail h, hk]⟩
  | done bs => exact ⟨doneResult (st.request kind).r bs, fun s ts hk h => by simp only [settle, h, hk]⟩

theorem State.prompt_eq_of_notYet {s : State} {ts : List TransportAct} (h : s.transport = .notYet :: ts) :
    s.prompt = ({ s with transport := ts } : State).prompt := by
  simp [State.prompt, h]

theorem State.prompt_transport_of_ne {s : State} {a : TransportAct} {ts : List TransportAct}
    (h : s.transport = a :: ts) (ha : a ≠ .notYet) : s.prompt.transport = a :: ts.filter (fun a => a != .notYet) := by
  simp [State.prompt, h, ha]

/-- By induction on the transport's list: a late answer costs a step, any other is taken at once in both runs. -/
theorem delaysFrom (ts : List TransportAct) : DelaysFrom ts := by
  induction ts with
  | nil =>
    intro st s busy pending transport
    rw [settle_nil transport, settle_nil (by simp [State.prompt, transport])]
    exact delayOf_next s
  | cons a ts ih =>
    intro st s busy pending transport
    by_cases ha : a = .notYet
    · subst ha
      rw [settle_notYet transport, State.prompt_eq_of_notYet transport]
      refine DelayOf.wait ?_
      rw [resume_suspended (s := { s with transport := ts }) busy pending]
      exact ih st { s with transport := ts } busy pending rfl
    · obtain ⟨res, hres⟩ := settle_answer st st.onAnswer s.kind ha
      obtain ⟨l, hl⟩ := State.afterAnswer_eq (st.request s.kind).r res (s.answered ts)
      have e : (s.prompt.answered (ts.filter (fun a => a != .notYet))).afterAnswer (st.request s.kind).r res =
          ((s.answered ts).setLat l).prompt :=
        (State.prompt_afterAnswer (st.request s.kind).r res (s.answered ts)).symm.trans (congrArg State.prompt hl)
      rw [hres s ts rfl transport, hres s.prompt _ rfl (State.prompt_transport_of_ne transport ha), hl, e]
      exact delayOf_onAnswer (s := (s.answered ts).setLat l) busy ih st res

theorem delayOf_getBody (sel : Byte) (s : State) : DelayOf (getBody sel s.prompt) (getBody sel s) := by
  simp only [getBody, State.prompt_kind, State.prompt_cell]
  cases getCell s.kind sel with
  | none => exact delayOf_complete s _
  | some c =>
    dsimp only
    cases s.cell c with
    | none => rintro t ⟨⟩
    | some v => exact delayOf_complete s _

/-- A command without a request does not look at the transport's list. -/
theorem delayOf_bodyOf_none {i : Instr} {s : State} (first : firstStage s.kind i = none) :
    DelayOf (bodyOf i s.prompt) (bodyOf i s) := by
  have first' : firstStage s.prompt.kind i = none := first
  unfold bodyOf
  rw [first, first']
  cases i with
  | get sel => exact delayOf_getBody sel s
  | _ => exact delayOf_complete s _

/-- Settles O56: a command waits for its first answer, or does not look at the transport's list. -/
theorem lateAnswersOnlyDelay : Obligations.LateAnswersOnlyDelay := by
  intro i s t idle h ended
  suffices delay : DelayOf (exec i s.prompt) (exec i s) from delay t h ended
  rw [exec_eq_accept, exec_eq_accept]
  cases legal : i.legalOn s.kind with
  | false =>
    rw [accept_illegal (s := s) legal, accept_illegal (s := s.prompt) legal]
    exact delayOf_next (s.answer _)
  | true =>
    rw [accept_idle (s := s) legal idle, accept_idle (s := s.prompt) legal idle]
    cases first : firstStage s.kind i with
    | none => exact delayOf_bodyOf_none (s := s.start (firstSeq s.kind i)) first
    | some st =>
      rw [bodyOf_some (s := s.start (firstSeq s.kind i)) first, bodyOf_some (s := s.prompt.start _) first]
      exact delaysFrom s.transport st ((s.start (firstSeq s.kind i)).request st) rfl rfl rfl

end Sys2Proof.Machine

/-! Proofs of the family "encoding": the command word and its fields, the opcode map, illegal words and commands, INIT and
the text form. -/

namespace Sys2Proof

/-! ### Fields of a command word -/

/-- The bits of a field, read and put back at their place. -/
theorem place_extract (w : CmdWord) (lo n : Nat) :
    place (w.extractLsb' lo n) lo = w &&& place (BitVec.allOnes n) lo := by
  apply BitVec.eq_of_getLsbD_eq
  intro j hj
  simp only [BitVec.getLsbD_and, place_getLsbD, BitVec.getLsbD_extractLsb', BitVec.getLsbD_allOnes]
  by_cases h : j < lo
  · simp [h]
  · simp [hj, h, Nat.add_sub_of_le (Nat.le_of_not_lt h), Bool.and_comm]

/-- A word with none of the bits of a mask keeps all its bits outside the mask. -/
theorem and_not_of_and_eq_zero {w m : CmdWord} (h : w &&& m = 0) : w &&& ~~~m = w :=
  calc w &&& ~~~m = w &&& m ||| w &&& ~~~m := by simp [h]
    _ = w &&& (m ||| ~~~m) := BitVec.and_or_distrib_left.symm
    _ = w := by rw [BitVec.or_not_self, BitVec.and_allOnes]

@[simp] theorem Op.assemble_op (o : Op) (w : CmdWord) : (o.assemble w).op = o := by
  cases o <;> rfl

/-- R88, R89: the opcode of a command's row stands in bits 63:56 of its word. -/
theorem encode_opcode (i : Instr) : (encode i).extractLsb' 56 8 = i.op.code := by
  cases i with
  | rdb addr => exact Laws.EncodedOpcode.rdb addr
  | rdn addr n => exact Laws.EncodedOpcode.rdn addr n
  | wrb addr value => exact Laws.EncodedOpcode.wrb addr value
  | chknd => exact Laws.EncodedOpcode.chknd
  | getit => exact Laws.EncodedOpcode.getit
  | getch => exact Laws.EncodedOpcode.getch
  | getgn => exact Laws.EncodedOpcode.getgn
  | clux ch0 ch1 gain itime => exact Laws.EncodedOpcode.clux ch0 ch1 gain itime
  | getrh => exact Laws.EncodedOpcode.getrh
  | gett => exact Laws.EncodedOpcode.gett
  | fetch sel => exact Laws.EncodedOpcode.fetch sel
  | get sel => exact Laws.EncodedOpcode.get sel

/-- R90: each operand is read back from its field. -/
theorem assemble_encode (i : Instr) : i.op.assemble (encode i) = i := by
  cases i <;> simp [encode, Instr.op, Op.assemble, BitVec.extractLsb'_or, extract_place_disjoint]

/-- R88: the fields of a format are its bits outside the must-be-zero ones, so the word of the operands read from a word
of opcode `o` is that word without those. -/
theorem encode_assemble {o : Op} {w : CmdWord} (hc : w.extractLsb' 56 8 = o.code) :
    encode (o.assemble w) = w &&& ~~~o.format.zeroBits := by
  cases o <;> simp only [Op.assemble, encode, ← hc, place_extract, ← BitVec.and_or_distrib_left] <;> rfl

/-- R88: the must-be-zero bits of a command's format are zero in its word. -/
theorem encode_zeroBits (i : Instr) : encode i &&& i.op.format.zeroBits = 0 := by
  have outside : encode i = encode i &&& ~~~i.op.format.zeroBits :=
    calc encode i = encode (i.op.assemble (encode i)) := by rw [assemble_encode]
      _ = _ := encode_assemble (encode_opcode i)
  rw [outside, BitVec.and_assoc]
  simp

/-- Settles O1: the word has its row's opcode and no stray bit, and its operands are read back. -/
theorem decodeInvertsEncode : Obligations.DecodeInvertsEncode := by
  intro i
  rw [decode_of_code (encode_opcode i) (encode_zeroBits i), assemble_encode]

/-- Settles O2: encoding drops the must-be-zero bits only, and an accepted word has none. -/
theorem encodeInvertsDecode : Obligations.EncodeInvertsDecode := by
  intro w i h
  obtain ⟨o, opcode, zero, rfl⟩ := decode_ok_cases h
  rw [encode_assemble opcode, and_not_of_and_eq_zero zero]

/-- Settles O3: each word is the word of its command. -/
theorem wordsOfTheSpecDecode : Obligations.WordsOfTheSpecDecode :=
  ⟨decodeInvertsEncode (.rdb 0x8C), decodeInvertsEncode (.rdn 0x88 4), decodeInvertsEncode (.wrb 0x85 0x1B),
    decodeInvertsEncode .chknd, decodeInvertsEncode (.clux 100 30 2 400), decodeInvertsEncode .gett,
    decodeInvertsEncode (.fetch 3), decodeInvertsEncode (.get 1)⟩

/-- A byte that is no row's opcode is looked up in vain. -/
theorem Op.ofCode_eq_none {c : BitVec 8} (h : ∀ o : Op, o.code ≠ c) : Op.ofCode c = none := by
  cases found : Op.ofCode c with
  | none => rfl
  | some o => exact absurd (Op.code_of_ofCode found) (h o)

/-- Settles O4: the rows one by one; a byte outside the opcode column is no row's opcode. -/
theorem opcodeMapIsTheTable : Obligations.OpcodeMapIsTheTable := by
  refine ⟨rfl, fun c hc => Op.ofCode_eq_none fun o ho => hc ?_⟩
  subst ho
  cases o <;> decide

/-! ### The decoding procedure -/

/-- R93 (1): an opcode that is not in the map. -/
theorem decodeFor_unknown {k : Kind} {w : CmdWord} (h : Op.ofCode (w.extractLsb' 56 8) = none) :
    decodeFor k w = .error .unknownOpcode := by
  simp only [decodeFor, decode, h]

/-- R93 (2) to (4): the tests after that of the opcode, in their order. -/
theorem decodeFor_known {k : Kind} {w : CmdWord} {o : Op} (h : Op.ofCode (w.extractLsb' 56 8) = some o) :
    decodeFor k w =
      if w &&& o.format.zeroBits ≠ 0 then .error .mustBeZero
      else if o.validOn k = false then .error .wrongKind
      else if (o.assemble w).wellFormed = false then .error .badOperand
      else .ok (o.assemble w) := by
  simp only [decodeFor, decode, h]
  by_cases zero : w &&& o.format.zeroBits = 0
  · simp only [zero, if_true, ne_eq, not_true_eq_false, if_false, Op.assemble_op]
  · simp only [zero, if_false, ne_eq, not_false_eq_true, if_true]

/-- R93: a word is refused by one of the tests of `decode`, or it is a command the kind does not accept. -/
theorem decodeFor_error_cases {k : Kind} {w : CmdWord} {e : DecodeError} (h : decodeFor k w = .error e) :
    decode w = .error e ∨ ∃ i, decode w = .ok i ∧ i.legalOn k = false := by
  unfold decodeFor at h
  cases hd : decode w with
  | error e' =>
    rw [hd] at h
    exact .inl h
  | ok i =>
    refine .inr ⟨i, rfl, ?_⟩
    simp only [hd] at h
    split_ifs at h with kind operands
    · simp [Instr.legalOn, kind]
    · simp [Instr.legalOn, operands]

end Sys2Proof

namespace Sys2Proof.Machine

/-! ### Illegal words and commands -/

/-- R93, R235: an illegal command changes the response only. -/
theorem exec_illegal {i : Instr} {s : State} (h : i.legalOn s.kind = false) :
    exec i s = .next (s.answer { outcome := .illegalCommand, payload := .none }) := by
  rw [exec_eq_accept, accept_illegal h]

/-- R93, R97: a word that fails a test changes the response only. -/
theorem present_illegal {w : CmdWord} {s : State} {e : DecodeError} (h : decodeFor s.kind w = .error e) :
    present w s = .next (s.answer { outcome := .illegalCommand, payload := .none }) := by
  rcases decodeFor_error_cases h with refused | ⟨i, hd, illegal⟩
  · simp only [present, refused]
  · rw [present_ok hd, exec_illegal illegal]

/-- Settles O6: the tests of `decode` come before the two on the kind and the operands, and no test changes the state. -/
theorem illegalWordIsAnswered : Obligations.IllegalWordIsAnswered := by
  refine fun s w presented => ⟨?tests, fun e illegal => ?answer⟩
  case tests =>
    cases opcode : Op.ofCode (w.extractLsb' 56 8) with
    | none => exact decodeFor_unknown opcode
    | some o => exact decodeFor_known opcode
  case answer =>
    rw [step_presented presented]
    exact present_illegal (s := { s with host := s.host.tail }) illegal

/-- Settles O7: each of these commands fails the test of the kind or that of the operands. -/
theorem illegalCommandChangesNothing : Obligations.IllegalCommandChangesNothing := by
  intro i s h
  suffices illegal : i.legalOn s.kind = false from exec_illegal illegal
  cases i with
  | rdn addr n => subst h; rfl
  | clux ch0 ch1 gain itime =>
    rcases h with kind | rfl | rfl
    · rw [kind]; rfl
    · simp [Instr.legalOn, Instr.wellFormed]
    · simp [Instr.legalOn, Instr.wellFormed]
  | chknd | getit | getch | getgn | getrh | gett => rw [h]; rfl
  | rdb | wrb | fetch | get => exact h.elim

/-! ### Words in their turn (R96, R266) -/

/-- Two runs, one after the other. -/
theorem run_trans {n m : Nat} {s t u : State} (first : Sys2Proof.core.run n s = .next t)
    (second : Sys2Proof.core.run m t = .next u) : Sys2Proof.core.run (n + m) s = .next u := by
  induction n generalizing s with
  | zero =>
    cases first
    rwa [Nat.zero_add]
  | succ n ih =>
    rw [Nat.succ_add]
    cases h : step s with
    | next s' =>
      rw [run_succ_next n h] at first
      rw [run_succ_next _ h]
      exact ih first
    | fault f => rw [run_succ_fault n h] at first; cases first
    | refused r => rw [run_succ_refused n h] at first; cases first

/-- While a command runs, the host does nothing or waits with its next word. -/
def HostWaits (hs : List HostAct) : Prop := hs = [] ∨ ∃ w ifOk hs', hs = .inTurn w ifOk :: hs'

theorem step_suspended {s : State} {st : Stage} (waits : HostWaits s.host) (busy : s.busy = true)
    (pending : s.pending = some st) : step s = settle st st.onAnswer s := by
  rw [← resume_suspended busy pending]
  rcases waits with h | ⟨w, ifOk, hs, h⟩
  · simp only [step, h]
  · exact (stepRunsThePresentedCommand.2.1 s w ifOk hs h).1 busy

/-- A transport that gives the answer `a` after `n` steps, and then does `ts`. -/
def answerLate (n : Nat) (a : TransportAct) (ts : List TransportAct) : List TransportAct :=
  List.replicate n .notYet ++ a :: ts

/-- A command suspended at a request that is answered `n` steps late comes after these to where it comes with the answer
on time. -/
theorem run_suspended {t : State} {st : Stage} {a : TransportAct} {ts : List TransportAct} (n : Nat) {s : State}
    (waits : HostWaits s.host) (busy : s.busy = true) (pending : s.pending = some st)
    (transport : s.transport = answerLate n a ts)
    (onTime : settle st st.onAnswer { s with transport := a :: ts } = .next t) :
    Sys2Proof.core.run (n + 1) s = .next t := by
  induction n generalizing s with
  | zero =>
    have same : ({ s with transport := a :: ts } : State) = s := by rw [← show s.transport = a :: ts from transport]
    rw [same, ← step_suspended waits busy pending] at onTime
    exact run_succ_next 0 onTime
  | succ n ih =>
    rw [run_succ_next _ ((step_suspended waits busy pending).trans (settle_notYet transport))]
    exact ih waits busy pending rfl onTime

/-- With the answer `a` on time, a legal command on an idle block of kind `k` makes the request `q`, and no other, and
ends with the outcome `o` and the payload `p`. -/
structure EndsAfter (k : Kind) (i : Instr) (a : TransportAct) (q : Request) (o : OutcomeName) (p : Payload) : Prop where
  legal : i.legalOn k = true
  first : ∃ st, firstStage k i = some st
  ends : ∀ (s : State) (ts : List TransportAct), s.kind = k → s.busy = false → s.transport = a :: ts →
    exec i s = .next (s.ended [q] ts o p)

theorem endsAfter_done {k : Kind} {i : Instr} {st : Stage} {bs : List Byte} {p : Payload}
    (legal : i.legalOn k = true) (first : firstStage k i = some st) (length : bs.length = (st.request k).r)
    (answer : ∀ s : State, s.lat = Latches.empty.loadRaw bs → st.onAnswer (.done bs) s = reply p s) :
    EndsAfter k i (.done bs) (st.request k) .ok p := by
  refine ⟨legal, ⟨st, first⟩, ?_⟩
  rintro s ts rfl idle h
  rw [exec_firstStage legal idle first, settle_done (s := (s.start _).request st) h length, answer _ rfl]
  rfl

theorem endsAfter_fail {k : Kind} {i : Instr} {st : Stage} (legal : i.legalOn k = true)
    (first : firstStage k i = some st) (answer : ∀ s : State, st.onAnswer .fail s = raise .busError s) :
    EndsAfter k i .fail (st.request k) .busError .none := by
  refine ⟨legal, ⟨st, first⟩, ?_⟩
  rintro s ts rfl idle h
  obtain ⟨l, latches⟩ := State.afterAnswer_eq (st.request s.kind).r .fail
    (((s.start (firstSeq s.kind i)).request st).answered ts)
  rw [exec_firstStage legal idle first, settle_fail (s := (s.start _).request st) h, answer]
  exact congrArg (raise .busError) latches

/-- R111. -/
theorem rdb_endsAfter_done (k : Kind) (addr b : Byte) :
    EndsAfter k (.rdb addr) (.done [b]) (readRequest k addr 1) .ok (.byte b) :=
  endsAfter_done (st := .rdb addr) rfl rfl rfl fun s h => by simp [Stage.onAnswer, rdbAnswer, h]

/-- R111, R114. -/
theorem rdb_endsAfter_fail (k : Kind) (addr : Byte) :
    EndsAfter k (.rdb addr) .fail (readRequest k addr 1) .busError .none :=
  endsAfter_fail (st := .rdb addr) rfl rfl fun _ => rfl

/-- R113. -/
theorem wrb_endsAfter_done (k : Kind) (addr value : Byte) :
    EndsAfter k (.wrb addr value) (.done []) (writeRequest k addr value) .ok .none :=
  endsAfter_done (st := .wrb addr value) rfl rfl rfl fun _ _ => rfl

/-- R113, R114. -/
theorem wrb_endsAfter_fail (k : Kind) (addr value : Byte) :
    EndsAfter k (.wrb addr value) .fail (writeRequest k addr value) .busError .none :=
  endsAfter_fail (st := .wrb addr value) rfl rfl fun _ => rfl

/-- A command whose turn has come ends `n` steps later when its answer is `n` steps late. -/
theorem run_inTurn {s : State} {ifOk : Bool} {hs : List HostAct} {i : Instr} {a : TransportAct} {q : Request}
    {o : OutcomeName} {p : Payload} {ts : List TransportAct} {n : Nat} (c : EndsAfter s.kind i a q o p)
    (idle : s.busy = false) (host : s.host = .inTurn (encode i) ifOk :: hs) (turn : ifOk = true → s.endedOk = true)
    (waits : n = 0 ∨ HostWaits hs) (transport : s.transport = answerLate n a ts) :
    Sys2Proof.core.run (n + 1) s = .next ({ s with host := hs }.ended [q] ts o p) := by
  have run : step s = exec i { s with host := hs } :=
    stepRunsThePresentedCommand.1 s _ hs i (.inr ⟨ifOk, host, idle, turn⟩) (decodeInvertsEncode i)
  cases n with
  | zero => exact run_succ_next 0 (run.trans (c.ends { s with host := hs } ts rfl idle transport))
  | succ n =>
    obtain ⟨st, first⟩ := c.first
    have wait := (exec_firstStage (s := { s with host := hs }) c.legal idle first).trans (settle_notYet transport)
    have onTime := c.ends { s with host := hs, transport := a :: ts } ts rfl idle rfl
    rw [exec_firstStage (s := { s with host := hs, transport := a :: ts }) c.legal idle first] at onTime
    rw [run_succ_next _ (run.trans wait)]
    exact run_suspended n (waits.resolve_left (Nat.succ_ne_zero n)) rfl rfl rfl onTime

/-! ### Commands one after another, while they end `Ok` (R96) -/

/-- The host's actions for commands of which each follows an `Ok`. -/
def thenOk (is : List Instr) : List HostAct := is.map fun i => .inTurn (encode i) true

theorem hostWaits_thenOk_cons (i : Instr) (is : List Instr) (hs : List HostAct) :
    HostWaits (thenOk (i :: is) ++ hs) :=
  .inr ⟨encode i, true, thenOk is ++ hs, rfl⟩

/-- The requests `qs` have been made by commands that have ended, the last with the outcome `o` and the payload `p`; the
commands `is` are to follow, each after an `Ok`. -/
def State.issuing (is : List Instr) (qs : List Request) (ts : List TransportAct) (o : OutcomeName) (p : Payload)
    (s : State) : State :=
  { s with host := thenOk is ++ s.host }.ended qs ts o p

section Issuing
variable {s : State} {i : Instr} {is : List Instr} {a : TransportAct} {q : Request} {qs : List Request}
  {o : OutcomeName} {p p' : Payload} {ts : List TransportAct} {n : Nat}

/-- The first command follows whatever came before. -/
theorem run_issue_first (c : EndsAfter s.kind i a q o p) (idle : s.busy = false)
    (waits : n = 0 ∨ HostWaits (thenOk is ++ s.host)) (transport : s.transport = answerLate n a ts) :
    Sys2Proof.core.run (n + 1) { s with host := whileOk (i :: is) ++ s.host } = .next (s.issuing is [q] ts o p) :=
  run_inTurn (s := { s with host := whileOk (i :: is) ++ s.host }) c idle rfl (fun h => absurd h Bool.false_ne_true)
    waits transport

/-- The next command runs after one that ended `Ok`. -/
theorem run_issue_next (c : EndsAfter s.kind i a q o p) (waits : n = 0 ∨ HostWaits (thenOk is ++ s.host)) :
    Sys2Proof.core.run (n + 1) (s.issuing (i :: is) qs (answerLate n a ts) .ok p') =
      .next (s.issuing is (qs ++ [q]) ts o p) := by
  rw [run_inTurn (s := s.issuing (i :: is) qs (answerLate n a ts) .ok p') (hs := thenOk is ++ s.host) c rfl rfl
    (fun _ => rfl) waits rfl]
  simp only [State.issuing, State.ended, List.append_assoc]

/-- After a command that did not end `Ok` the next is not issued. -/
theorem run_issue_dropped : Sys2Proof.core.run 1 (s.issuing (i :: is) qs ts .busError p) =
    .next (s.issuing is qs ts .busError p) :=
  run_succ_next 0 ((stepRunsThePresentedCommand.2.1 (s.issuing (i :: is) qs ts .busError p) (encode i) true
    (thenOk is ++ s.host) rfl).2 rfl rfl rfl)

end Issuing

/-- Settles O57: three commands one after another, each answered some steps late, up to the first that fails. -/
theorem initSequenceRuns : Obligations.InitSequenceRuns := by
  refine ⟨fun s ths => by simp only [State.withInit, initActs, ths, Option.map_none], ?_⟩
  intro s b ts n m k als idle late q1 q2 q3
  refine ⟨{ s with host := whileOk initSequence ++ s.host }, by rw [State.withInit, als]; rfl, rfl, ?_⟩
  have onAls {i a q o p} (c : EndsAfter .als i a q o p) : EndsAfter s.kind i a q o p := als ▸ c
  have read := onAls (rdb_endsAfter_done .als regManufacId b)
  have readFails := onAls (rdb_endsAfter_fail .als regManufacId)
  have rate := onAls (wrb_endsAfter_done .als regMeasRate initMeasRate)
  have rateFails := onAls (wrb_endsAfter_fail .als regMeasRate initMeasRate)
  have turn {i is} : HostWaits (thenOk (i :: is) ++ s.host) := hostWaits_thenOk_cons i is s.host
  have third {a o} (c : EndsAfter .als (.wrb regContr initContr) a q3 o .none) (last : k = 0 ∨ s.host = [])
      (h : s.transport = late n (.done [b]) (late m (.done []) (late k a ts))) :
      Sys2Proof.core.run (n + m + k + 3) { s with host := whileOk initSequence ++ s.host } =
        .next (s.ended [q1, q2, q3] ts o .none) := by
    rw [show n + m + k + 3 = n + 1 + (m + 1) + (k + 1) by omega]
    exact run_trans (run_trans (run_issue_first read idle (.inr turn) h) (run_issue_next rate (.inr turn)))
      (run_issue_next (onAls c) (last.imp_right .inl))
  refine ⟨fun h => ?_, fun h => ?_, third (wrb_endsAfter_fail .als regContr initContr),
    third (wrb_endsAfter_done .als regContr initContr)⟩
  · rw [show n + 3 = n + 1 + 1 + 1 by omega]
    exact run_trans (run_trans (run_issue_first readFails idle (.inr turn) h) run_issue_dropped) run_issue_dropped
  · rw [show n + m + 3 = n + 1 + (m + 1) + 1 by omega]
    exact run_trans (run_trans (run_issue_first read idle (.inr turn) h) (run_issue_next rateFails (.inr turn)))
      run_issue_dropped

/-! ### The text form -/

/-- Settles O58: the kind matters for `INIT` only. -/
theorem textAssemblesToTheWords : Obligations.TextAssemblesToTheWords := by
  refine ⟨by decide, by decide, fun k => ?_⟩
  cases k <;> decide

end Sys2Proof.Machine


/-! Proofs of the family "register bus": RDB, RDN and WRB from the word to the end of the command. -/

namespace Sys2Proof

/-- A field at bit 0 is its bits. -/
theorem place_zero {n : Nat} (v : BitVec n) : place v 0 = v.setWidth 64 :=
  BitVec.shiftLeft_zero _

/-- R111. -/
theorem encode_rdb (addr : Byte) : encode (.rdb addr) = 0x0100000000000000 ||| addr.setWidth 64 :=
  congrArg (0x0100000000000000 ||| ·) (place_zero addr)

/-- R112. -/
theorem encode_rdn (addr n : Byte) :
    encode (.rdn addr n) = 0x0200000000000000 ||| n.setWidth 64 <<< 8 ||| addr.setWidth 64 :=
  congrArg (0x0200000000000000 ||| n.setWidth 64 <<< 8 ||| ·) (place_zero addr)

/-- R113. -/
theorem encode_wrb (addr value : Byte) :
    encode (.wrb addr value) = 0x0300000000000000 ||| value.setWidth 64 <<< 8 ||| addr.setWidth 64 :=
  congrArg (0x0300000000000000 ||| value.setWidth 64 <<< 8 ||| ·) (place_zero addr)

end Sys2Proof

namespace Sys2Proof.Machine

/-- R90: a byte is at most `MAXN`, so `RDN` is legal from `n = 1` on. -/
theorem rdn_legalOn {n : Byte} (hn : 1 ≤ n.toNat) (k : Kind) (addr : Byte) : (Instr.rdn addr n).legalOn k = true :=
  decide_eq_true ⟨hn, Nat.le_of_lt_succ n.isLt⟩

/-- R112. -/
theorem rdn_endsAfter_done {n : Byte} {bs : List Byte} (hn : 1 ≤ n.toNat) (length : bs.length = n.toNat) (k : Kind)
    (addr : Byte) : EndsAfter k (.rdn addr n) (.done bs) (readRequest k addr n.toNat) .ok (.bytes bs) :=
  endsAfter_done (st := .rdn addr n) (rdn_legalOn hn k addr) rfl length fun _ _ => rfl

/-- R112, R114. -/
theorem rdn_endsAfter_fail {n : Byte} (hn : 1 ≤ n.toNat) (k : Kind) (addr : Byte) :
    EndsAfter k (.rdn addr n) .fail (readRequest k addr n.toNat) .busError .none :=
  endsAfter_fail (st := .rdn addr n) (rdn_legalOn hn k addr) rfl fun _ => rfl

/-- Settles O13: the word is that of the command, whose one request is answered with a byte or fails. -/
theorem rdbReadsOneByte : Obligations.RdbReadsOneByte := by
  refine ⟨fun addr => encode_rdb addr ▸ decodeInvertsEncode (.rdb addr),
    fun s addr ts idle => ⟨fun b h => ?_, fun h => ?_⟩⟩
  · exact (rdb_endsAfter_done s.kind addr b).ends s ts rfl idle h
  · exact (rdb_endsAfter_fail s.kind addr).ends s ts rfl idle h

/-- Settles O14: the word is that of the command, which fails the test of the operands for `n = 0` and otherwise has one
request, answered with `n` bytes or failing. -/
theorem rdnReadsNBytes : Obligations.RdnReadsNBytes := by
  refine ⟨fun addr n => encode_rdn addr n ▸ decodeInvertsEncode (.rdn addr n), fun s addr => exec_illegal rfl,
    fun s addr n ts idle hn => ⟨fun bs length h => ?_, fun h => ?_⟩⟩
  · exact (rdn_endsAfter_done hn length s.kind addr).ends s ts rfl idle h
  · exact (rdn_endsAfter_fail hn s.kind addr).ends s ts rfl idle h

/-- Settles O15: the word is that of the command, whose one write succeeds or fails. -/
theorem wrbWritesOneByte : Obligations.WrbWritesOneByte := by
  refine ⟨fun addr value => encode_wrb addr value ▸ decodeInvertsEncode (.wrb addr value),
    fun s addr value ts idle => ⟨fun h => ?_, fun h => ?_⟩⟩
  · exact (wrb_endsAfter_done s.kind addr value).ends s ts rfl idle h
  · exact (wrb_endsAfter_fail s.kind addr value).ends s ts rfl idle h

end Sys2Proof.Machine


/-! Proofs of the family "decode, combine, tables": the bit fields and the tables, the byte orders, and the status bits
that make no difference. -/

namespace Sys2Proof.Machine

/-! ### Bit fields, tables and combiners -/

/-- `field3` with a mask of three bits reads the three bits from `shift` on (R131). -/
theorem field3_eq_extract (b : Byte) {shift : Nat} (h : shift + 3 ≤ 8) :
    field3 b (7#8 <<< shift) shift = b.extractLsb' shift 3 := by
  apply BitVec.eq_of_getLsbD_eq
  intro i hi
  have seven : (7#8).getLsbD i = true := (by decide : ∀ j < 3, (7#8).getLsbD j = true) i hi
  have inside : shift + i < 8 := by omega
  simp [field3, hi, seven, inside]

/-- R131 as arithmetic. -/
theorem field3_toNat (b : Byte) {shift : Nat} (h : shift + 3 ≤ 8) :
    (field3 b (7#8 <<< shift) shift).toNat = b.toNat / 2 ^ shift % 8 := by
  rw [field3_eq_extract b h, BitVec.extractLsb'_toNat, Nat.shiftRight_eq_div_pow]

/-- R132. -/
theorem gaincode_toNat (b : Byte) : (gaincode b).toNat = b.toNat / 4 % 8 :=
  field3_toNat b (shift := 2) (by decide)

/-- R133. -/
theorem intcode_toNat (b : Byte) : (intcode b).toNat = b.toNat / 8 % 8 :=
  field3_toNat b (shift := 3) (by decide)

/-- R134 as a masked value. -/
theorem statusValid_eq_masked (b : Byte) : statusValid b = decide (b &&& 0x84 = 0x04) := by
  revert b; decide +kernel

/-- R138 as arithmetic: the two bytes have no bit in common. -/
theorem comb16be_toNat (a b : Byte) : (comb16be a b).toNat = 256 * a.toNat + b.toNat := by
  have ha := a.isLt
  have hb := b.isLt
  have shifted : (a.setWidth 16 <<< 8).toNat = a.toNat <<< 8 := by
    rw [BitVec.toNat_shiftLeft, BitVec.toNat_setWidth_of_le (by decide), Nat.shiftLeft_eq]
    omega
  rw [comb16be, BitVec.toNat_or, shifted, BitVec.toNat_setWidth_of_le (by decide), ← Nat.shiftLeft_add_eq_or_of_lt hb,
    Nat.shiftLeft_eq, Nat.mul_comm]

/-- The little-endian combiner is the big-endian one with the bytes exchanged (R135, R138). -/
theorem comb16le_eq_comb16be (a b : Byte) : comb16le a b = comb16be b a := rfl

/-- Settles O16: the fields are three bits from 2 and from 3 on; the valid bytes are counted. -/
theorem bitFieldsAsArithmetic : Obligations.BitFieldsAsArithmetic :=
  ⟨fun b => ⟨gaincode_toNat b, intcode_toNat b, statusValid_eq_masked b⟩, by decide +kernel⟩

/-- Settles O17: the entries of the two tables, one by one. -/
theorem lookupTables : Obligations.LookupTables := by
  constructor <;> decide

/-- Settles O18: the big-endian sum, and the same with the bytes exchanged. -/
theorem combinersAsArithmetic : Obligations.CombinersAsArithmetic := by
  refine fun a b => ⟨?_, comb16be_toNat a b⟩
  rw [comb16le_eq_comb16be, comb16be_toNat, Nat.add_comm]

/-! ### The status bits that make no difference (R134, R152, R164) -/

/-- The block with `raw` in RAW[0] and the status `v` in ST: the two latches that show which status byte was read. -/
def State.withStatus (raw : Option Byte) (v : Byte) (s : State) : State :=
  s.setLat { s.lat with raw0 := raw, st := some v }

/-- Two runs end alike, or are suspended in states that agree outside RAW[0] and ST. -/
def Alike (o p : Out) : Prop :=
  o = p ∨ ∃ t u : State, o = .next t ∧ p = .next u ∧ t.busy = true ∧
    u = { t with lat := { t.lat with raw0 := u.lat.raw0, st := u.lat.st } }

theorem alike_suspended {s : State} (busy : s.busy = true) (raw : Option Byte) (v : Byte) :
    Alike (.next s) (.next (s.withStatus raw v)) :=
  .inr ⟨_, _, rfl, rfl, busy, rfl⟩

theorem alike_withLatch {α : Type} {o : Option α} {j k : α → Out} (h : ∀ x, Alike (j x) (k x)) :
    Alike (withLatch o j) (withLatch o k) := by
  cases o with
  | none => exact .inl rfl
  | some x => exact h x

/-- The answer to a read replaces or clears RAW[0] (R53), so that only ST still shows the status byte. -/
theorem alike_settle {st : Stage} {k : BusResult → State → Out} {s : State} (busy : s.busy = true)
    (read : (st.request s.kind).r ≠ 0) (raw : Option Byte) (v : Byte)
    (rest : ∀ res u, u.busy = true → Alike (k res u) (k res (u.setSt v))) :
    Alike (settle st k s) (settle st k (s.withStatus raw v)) := by
  have onFail : ∀ ts, Alike (k .fail ((s.answered ts).afterAnswer (st.request s.kind).r .fail))
      (k .fail (((s.withStatus raw v).answered ts).afterAnswer (st.request s.kind).r .fail)) := fun ts => by
    simp only [State.afterAnswer, if_neg read]
    exact rest .fail ((s.answered ts).setLat s.lat.clearRaw) busy
  rcases h : s.transport with _ | ⟨a, ts⟩
  · rw [settle_nil h, settle_nil (s := s.withStatus raw v) h]
    exact alike_suspended busy raw v
  · cases a with
    | notYet =>
      rw [settle_notYet h, settle_notYet (s := s.withStatus raw v) h]
      exact alike_suspended (s := { s with transport := ts }) busy raw v
    | fail =>
      rw [settle_fail h, settle_fail (s := s.withStatus raw v) h]
      exact onFail ts
    | done bs =>
      by_cases length : bs.length = (st.request s.kind).r
      · rw [settle_done h length, settle_done (s := s.withStatus raw v) h length]
        cases bs with
        | nil => exact absurd length.symm read
        | cons c cs => exact rest _ ((s.answered ts).setLat (s.lat.loadRaw (c :: cs))) busy
      · rw [settle_wrongLength h length, settle_wrongLength (s := s.withStatus raw v) h length]
        exact onFail ts

theorem alike_issue {st : Stage} {k : BusResult → State → Out} {s : State} (busy : s.busy = true)
    (read : (st.request s.kind).r ≠ 0) (raw : Option Byte) (v : Byte)
    (rest : ∀ res u, u.busy = true → Alike (k res u) (k res (u.setSt v))) :
    Alike (issue st k s) (issue st k (s.withStatus raw v)) :=
  alike_settle (s := s.request st) busy read raw v rest

/-- The last step of a fetch does not read ST, and the end of a command empties the latches. -/
theorem lightRateAnswer_setSt (res : BusResult) (s : State) (v : Byte) :
    lightRateAnswer res (s.setSt v) = lightRateAnswer res s := by
  cases res <;> rfl

/-- The gain step does not read ST. -/
theorem alike_lightGainAnswer {s : State} (busy : s.busy = true) (res : BusResult) (v : Byte) :
    Alike (lightGainAnswer res s) (lightGainAnswer res (s.setSt v)) := by
  cases res with
  | fail => exact .inl rfl
  | done bs =>
    refine alike_withLatch fun b => ?_
    simp only [State.setG_eq, State.setLat_lat, withLatch_some]
    cases gainTable (gaincode b) with
    | reserved => exact .inl rfl
    | valid m =>
      exact alike_issue (st := .lightRate) (s := (s.setGc (gaincode b)).setG (.valid m)) busy Nat.one_ne_zero _ v
        fun res u _ => .inl (lightRateAnswer_setSt res u v).symm

/-- The channel step does not read ST. -/
theorem alike_lightChannelsAnswer {s : State} (busy : s.busy = true) (res : BusResult) (v : Byte) :
    Alike (lightChannelsAnswer res s) (lightChannelsAnswer res (s.setSt v)) := by
  cases res with
  | fail => exact .inl rfl
  | done bs =>
    refine alike_withLatch fun b0 => alike_withLatch fun b1 => alike_withLatch fun b2 => alike_withLatch fun b3 => ?_
    exact alike_issue (st := .lightGain) (s := s.setChannels (comb16le b0 b1) (comb16le b2 b3)) busy Nat.one_ne_zero _ v
      fun res _ busy => alike_lightGainAnswer busy res v

/-- Only bits 2 and 7 decide whether a status is valid (R134). -/
theorem statusValid_congr {a b : Byte} (h : a &&& 0x84 = b &&& 0x84) : statusValid a = statusValid b := by
  rw [statusValid_eq_masked, statusValid_eq_masked, h]

/-- `CHKND` returns the validity alone. -/
theorem chkndAnswer_congr {a b : Byte} (h : statusValid a = statusValid b) (s : State) :
    chkndAnswer (.done [a]) (s.setLat (s.lat.loadRaw [a])) = chkndAnswer (.done [b]) (s.setLat (s.lat.loadRaw [b])) :=
  congrArg (fun valid => reply (.ready valid) s) h

/-- The first step of a fetch goes by the validity alone; the byte itself stays in RAW[0] and ST. -/
theorem alike_lightStatusAnswer {a b : Byte} (h : statusValid a = statusValid b) {s : State} (busy : s.busy = true) :
    Alike (lightStatusAnswer (.done [a]) (s.setLat (s.lat.loadRaw [a])))
      (lightStatusAnswer (.done [b]) (s.setLat (s.lat.loadRaw [b]))) := by
  have status : ∀ c : Byte, lightStatusAnswer (.done [c]) (s.setLat (s.lat.loadRaw [c])) =
      if statusValid c then issue .lightChannels lightChannelsAnswer ((s.setSeq .ready).withStatus (some c) c)
      else raise .retry s := fun _ => rfl
  rw [status, status, h]
  split
  · exact alike_issue (st := .lightChannels) (s := (s.setSeq .ready).withStatus (some a) a) busy (Nat.succ_ne_zero 3)
      (some b) b fun res _ busy => alike_lightChannelsAnswer busy res b
  · exact .inl rfl

/-- A command whose first request is for one byte runs alike on two answers if it goes on alike after them. -/
theorem alike_exec {i : Instr} {s : State} {st : Stage} {a b : Byte} (ts : List TransportAct)
    (legal : i.legalOn s.kind = true) (idle : s.busy = false) (first : firstStage s.kind i = some st)
    (one : (st.request s.kind).r = 1)
    (rest : ∀ u : State, u.busy = true → Alike (st.onAnswer (.done [a]) (u.setLat (u.lat.loadRaw [a])))
      (st.onAnswer (.done [b]) (u.setLat (u.lat.loadRaw [b])))) :
    Alike (exec i { s with transport := .done [a] :: ts }) (exec i { s with transport := .done [b] :: ts }) := by
  have run : ∀ c : Byte, exec i { s with transport := .done [c] :: ts } = st.onAnswer (.done [c])
      ((((s.start (firstSeq s.kind i)).request st).answered ts).setLat (Latches.empty.loadRaw [c])) := fun c => by
    rw [exec_firstStage (s := { s with transport := .done [c] :: ts }) legal idle first]
    exact settle_done (bs := [c]) (ts := ts) rfl one.symm
  rw [run, run]
  exact rest (((s.start (firstSeq s.kind i)).request st).answered ts) rfl

/-- Settles O26: the two answers have one validity, which is all that CHKND and the first step of a fetch take from
them; the later steps do not read ST, and their answers replace RAW[0]. -/
theorem otherStatusBitsAreIgnored : Obligations.OtherStatusBitsAreIgnored := by
  intro s i a b ts als idle command agree
  have valid := statusValid_congr agree
  rcases command with rfl | rfl | rfl
  · exact alike_exec (st := .chknd) ts (by rw [als]; rfl) idle rfl rfl fun u _ => .inl (chkndAnswer_congr valid u)
  · exact alike_exec (st := .lightStatus) ts (by rw [als]; rfl) idle (by rw [als]; rfl) rfl
      fun _ busy => alike_lightStatusAnswer valid busy
  · exact alike_exec (st := .lightStatus) ts (by rw [als]; rfl) idle (by rw [als]; rfl) rfl
      fun _ busy => alike_lightStatusAnswer valid busy

end Sys2Proof.Machine


/-! Proofs of the family "light sensor": the four readings, the lux formula and its bands, the fetch of the light sensor,
and which command writes to the sensor. -/

namespace Sys2Proof.Machine

open Sys2Proof.Config (Q Numerics)

/-! ### The bits of the answers as the statements write them -/

/-- R134 as arithmetic. -/
theorem statusValid_eq (b : Byte) : statusValid b = decide (b.toNat / 4 % 2 = 1 ∧ b.toNat < 128) := by
  revert b; decide +kernel

/-- R135 as arithmetic. -/
theorem comb16le_eq_ofNat (a b : Byte) : comb16le a b = BitVec.ofNat 16 (a.toNat + 256 * b.toNat) := by
  rw [comb16le_eq_comb16be, Nat.add_comm, ← comb16be_toNat, BitVec.ofNat_toNat, BitVec.setWidth_eq]

/-- R136: two of the eight entries are reserved. -/
theorem gainTable_eq (c : Code3) : gainTable c =
    if c.toNat = 4 ∨ c.toNat = 5 then .reserved
    else .valid (BitVec.ofNat 8 ([1, 2, 4, 8, 0, 0, 48, 96].getD c.toNat 0)) := by
  revert c; decide

/-- R132, R136. -/
theorem gainTable_reserved {b : Byte} (h : b.toNat / 4 % 8 = 4 ∨ b.toNat / 4 % 8 = 5) :
    gainTable (gaincode b) = .reserved := by
  rw [gainTable_eq, gaincode_toNat, if_pos h]

/-- R132, R136. -/
theorem gainTable_valid {b : Byte} (h : ¬(b.toNat / 4 % 8 = 4 ∨ b.toNat / 4 % 8 = 5)) :
    gainTable (gaincode b) = .valid (BitVec.ofNat 8 ([1, 2, 4, 8, 0, 0, 48, 96].getD (b.toNat / 4 % 8) 0)) := by
  rw [gainTable_eq, gaincode_toNat, if_neg h]

/-- R133, R137. -/
theorem itimeTable_intcode (b : Byte) : itimeTable (intcode b) =
    BitVec.ofNat 16 ([100, 50, 200, 400, 150, 250, 300, 350].getD (b.toNat / 8 % 8) 0) := by
  have entry : ∀ c : Code3, itimeTable c = BitVec.ofNat 16 ([100, 50, 200, 400, 150, 250, 300, 350].getD c.toNat 0) := by
    decide
  rw [entry, intcode_toNat]

/-! ### The four readings -/

/-- A command that ends, with whatever outcome, on a good answer to its only request. -/
theorem endsAfter_complete {k : Kind} {i : Instr} {st : Stage} {bs : List Byte} {r : Response}
    (legal : i.legalOn k = true) (first : firstStage k i = some st) (length : bs.length = (st.request k).r)
    (answer : ∀ s : State, s.lat = Latches.empty.loadRaw bs → st.onAnswer (.done bs) s = .next (s.complete r)) :
    EndsAfter k i (.done bs) (st.request k) r.outcome r.payload := by
  refine ⟨legal, ⟨st, first⟩, ?_⟩
  rintro s ts rfl idle h
  rw [exec_firstStage legal idle first, settle_done (s := (s.start _).request st) h length, answer _ rfl]
  rfl

/-- R152. -/
theorem chknd_endsAfter_done (b : Byte) :
    EndsAfter .als .chknd (.done [b]) (readRequest .als regStatus 1) .ok (.ready (statusValid b)) :=
  endsAfter_done (st := .chknd) rfl rfl rfl fun s h => by
    rw [Stage.onAnswer, chkndAnswer, decodeStatus_eq (b := b) (by rw [h]; rfl)]
    rfl

/-- R154. -/
theorem getit_endsAfter_done (b : Byte) :
    EndsAfter .als .getit (.done [b]) (readRequest .als regMeasRate 1) .ok (.ms (itimeTable (intcode b))) :=
  endsAfter_done (st := .getit) rfl rfl rfl fun s h => by
    rw [Stage.onAnswer, getitAnswer, decodeRate_eq (b := b) (by rw [h]; rfl)]
    rfl

/-- R156 and R164 step 2, on the four bytes of an answer. -/
theorem decodeChannels_eq {s : State} {b0 b1 b2 b3 : Byte} {l : Latches} (h : s.lat = l.loadRaw [b0, b1, b2, b3])
    (k : State → Out) : decodeChannels s k = k (s.setChannels (comb16le b0 b1) (comb16le b2 b3)) := by
  rw [decodeChannels, h]
  rfl

/-- R156. -/
theorem getch_endsAfter_done (b0 b1 b2 b3 : Byte) :
    EndsAfter .als .getch (.done [b0, b1, b2, b3]) (readRequest .als regDataCh1Lo 4) .ok
      (.channels (comb16le b0 b1) (comb16le b2 b3)) :=
  endsAfter_done (st := .getch) rfl rfl rfl fun s h => by
    rw [Stage.onAnswer, getchAnswer, decodeChannels_eq h]
    rfl

/-- R158: a reserved entry. -/
theorem getgn_endsAfter_reserved {b : Byte} (reserved : gainTable (gaincode b) = .reserved) :
    EndsAfter .als .getgn (.done [b]) (readRequest .als regContr 1) .reservedConfiguration .none :=
  endsAfter_complete (st := .getgn) (r := ⟨.reservedConfiguration, .none⟩) rfl rfl rfl fun s h => by
    rw [Stage.onAnswer, getgnAnswer, decodeGain_eq (b := b) (by rw [h]; rfl), reserved]
    rfl

/-- R158: an entry with a number. -/
theorem getgn_endsAfter_valid {b m : Byte} (valid : gainTable (gaincode b) = .valid m) :
    EndsAfter .als .getgn (.done [b]) (readRequest .als regContr 1) .ok (.gain m) :=
  endsAfter_done (st := .getgn) rfl rfl rfl fun s h => by
    rw [Stage.onAnswer, getgnAnswer, decodeGain_eq (b := b) (by rw [h]; rfl), valid]
    rfl

/-- Settles O19: the word is that of the command, whose one read is answered with a byte or fails. -/
theorem chkndReportsReadiness : Obligations.ChkndReportsReadiness := by
  refine ⟨decodeInvertsEncode .chknd, fun s ts als idle => ⟨fun b h => ?_, fun h => ?_⟩⟩
  · rw [← statusValid_eq]
    exact (chknd_endsAfter_done b).ends s ts als idle h
  · exact (endsAfter_fail (st := .chknd) rfl rfl fun _ => rfl).ends s ts als idle h

/-- Settles O20: the word is that of the command, whose one read is answered with a byte or fails. -/
theorem getitReturnsTheTableEntry : Obligations.GetitReturnsTheTableEntry := by
  refine ⟨decodeInvertsEncode .getit, fun s ts als idle => ⟨fun b h => ?_, fun h => ?_⟩⟩
  · rw [← itimeTable_intcode]
    exact (getit_endsAfter_done b).ends s ts als idle h
  · exact (endsAfter_fail (st := .getit) rfl rfl fun _ => rfl).ends s ts als idle h

/-- Settles O21: the word is that of the command, whose one read is answered with four bytes or fails. -/
theorem getchReturnsTwoLittleEndianPairs : Obligations.GetchReturnsTwoLittleEndianPairs := by
  refine ⟨decodeInvertsEncode .getch, fun s ts als idle => ⟨fun b0 b1 b2 b3 h => ?_, fun h => ?_⟩⟩
  · rw [← comb16le_eq_ofNat, ← comb16le_eq_ofNat]
    exact (getch_endsAfter_done b0 b1 b2 b3).ends s ts als idle h
  · exact (endsAfter_fail (st := .getch) rfl rfl fun _ => rfl).ends s ts als idle h

/-- Settles O22: the word is that of the command, whose one read is answered with a byte of a reserved or of a valid gain
code, or fails. -/
theorem getgnReturnsTheGainOrReserved : Obligations.GetgnReturnsTheGainOrReserved := by
  refine ⟨decodeInvertsEncode .getgn, fun s ts als idle => ⟨fun b h => ?_, fun h => ?_⟩⟩
  · split
    · next reserved => exact (getgn_endsAfter_reserved (gainTable_reserved reserved)).ends s ts als idle h
    · next valid => exact (getgn_endsAfter_valid (gainTable_valid valid)).ends s ts als idle h
  · exact (endsAfter_fail (st := .getgn) rfl rfl fun _ => rfl).ends s ts als idle h

/-! ### CLUX and the bands of the lux formula -/

/-- The sum of the channels is 0 as a word when it is as a number (R139 (c)). -/
theorem channelSum_eq_zero_iff (ch0 ch1 : Half) : channelSum ch0 ch1 = 0 ↔ ch0.toNat + ch1.toNat = 0 := by
  rw [← channelSum_toNat]
  exact ⟨fun h => congrArg BitVec.toNat h, fun h => BitVec.eq_of_toNat_eq h⟩

/-- The bands by integer tests (R160): `ch1 / (ch0 + ch1)` against 0.45, 0.64 and 0.85. -/
def integerBand (a b : Nat) : Band :=
  if 100 * b < 45 * (a + b) then .band1
  else if 100 * b < 64 * (a + b) then .band2
  else if 100 * b < 85 * (a + b) then .band3
  else .band4

/-- Quotients and literals of equal numbers are equal: both are the same rounding of the exact quotient. -/
def EqualQuotients (N : Numerics Q) : Prop :=
  ∀ b s x y : Nat, (b : Q) / s = (x : Q) / y → N.div b s = N.ofDec x y

theorem exact_equalQuotients : EqualQuotients exact := fun _ _ _ _ h => h

theorem binary_equalQuotients (p : Nat) : EqualQuotients (binary p) := fun _ _ _ _ h => congrArg (roundBinary p) h

/-- The comparison of a ratio with an edge is the integer test: away from the edge rounding cannot carry the ratio across
it, and on the edge the ratio and the literal are rounded to the same number (R162). -/
theorem ratio_lt_edge_iff {N : Numerics Q} (A : Accurate N) (E : EqualQuotients N) {b s x y p q : Nat} (hs : 0 < s)
    (hb : b ≤ 65535) (hs' : s ≤ 131070) (e : (x : Q) / y = (p : Q) / q) (hq : 0 < q) (hq' : q ≤ 25) (hp : p ≤ 17) :
    N.div b s < N.ofDec x y ↔ q * b < p * s := by
  obtain ⟨below, above⟩ := ratio_edge A hs hb hs' e hq hq' hp
  constructor
  · intro lt
    refine lt_of_le_of_ne (below lt) fun onEdge => ?_
    have s0 : (s : Q) ≠ 0 := by exact_mod_cast hs.ne'
    have q0 : (q : Q) ≠ 0 := by exact_mod_cast hq.ne'
    have same : (b : Q) / s = (x : Q) / y := by
      rw [e, div_eq_div_iff s0 q0, mul_comm]
      exact_mod_cast onEdge
    exact lt.ne (E b s x y same)
  · intro lt
    by_contra notLt
    exact absurd (above notLt) lt.not_ge

/-- A record of that kind decides the band as the integer tests do (R160, R162). -/
theorem bandWith_eq_integerBand {N : Numerics Q} (A : Accurate N) (E : EqualQuotients N) {ch0 ch1 : Half}
    (sum : channelSum ch0 ch1 ≠ 0) : bandWith N ch0 ch1 = integerBand ch0.toNat ch1.toNat := by
  have ha := Nat.le_of_lt_succ ch0.isLt
  have hb := Nat.le_of_lt_succ ch1.isLt
  have hs : 0 < ch0.toNat + ch1.toNat := Nat.pos_of_ne_zero (mt (channelSum_eq_zero_iff ch0 ch1).2 sum)
  have edge {x p q : Nat} (e : (x : Q) / (100 : Nat) = (p : Q) / q) (hq : 0 < q) (hq' : q ≤ 25) (hp : p ≤ 17) :=
    ratio_lt_edge_iff A E hs hb (by omega) e hq hq' hp
  have edge1 := edge (x := 45) (p := 9) (q := 20) (by norm_num) (by decide) (by decide) (by decide)
  have edge2 := edge (x := 64) (p := 16) (q := 25) (by norm_num) (by decide) (by decide) (by decide)
  have edge3 := edge (x := 85) (p := 17) (q := 20) (by norm_num) (by decide) (by decide) (by decide)
  have test1 : 20 * ch1.toNat < 9 * (ch0.toNat + ch1.toNat) ↔ 100 * ch1.toNat < 45 * (ch0.toNat + ch1.toNat) := by omega
  have test2 : 25 * ch1.toNat < 16 * (ch0.toNat + ch1.toNat) ↔ 100 * ch1.toNat < 64 * (ch0.toNat + ch1.toNat) := by omega
  have test3 : 20 * ch1.toNat < 17 * (ch0.toNat + ch1.toNat) ↔ 100 * ch1.toNat < 85 * (ch0.toNat + ch1.toNat) := by omega
  simp only [bandWith, A.ofNat, A.lt, channelSum_toNat, decide_eq_true_eq, edge1, edge2, edge3, test1, test2, test3,
    integerBand]

/-- Settles O59: each of the three records decides as the integer tests do. -/
theorem bandDoesNotDependOnNum : Obligations.BandDoesNotDependOnNum := by
  intro ch0 ch1 sum
  have exactBand := bandWith_eq_integerBand exact_accurate exact_equalQuotients sum
  have binaryBand {p : Nat} (h : 22 ≤ p) := bandWith_eq_integerBand (binary_accurate h) (binary_equalQuotients p) sum
  exact ⟨(binaryBand (by decide : 22 ≤ 24)).trans exactBand.symm, (binaryBand (by decide : 22 ≤ 53)).trans exactBand.symm⟩

/-- The lux formula of R160 in figures, with `a` and `b` for the channels. -/
theorem lux_exact_eq (ch0 ch1 : Half) (gain : Byte) (itime : Half) :
    lux .exact ch0 ch1 gain itime =
      (let a : Nat := ch0.toNat
       let b : Nat := ch1.toNat
       let denom : Rat := gain.toNat * (itime.toNat / 100)
       if a + b = 0 then 0
       else if 100 * b < 45 * (a + b) then (17743 / 10000 * a + 11059 / 10000 * b) / denom
       else if 100 * b < 64 * (a + b) then (42785 / 10000 * a - 19548 / 10000 * b) / denom
       else if 100 * b < 85 * (a + b) then (5926 / 10000 * a + 1185 / 10000 * b) / denom
       else 0) := by
  have zero := channelSum_eq_zero_iff ch0 ch1
  change luxWith exact ch0 ch1 gain itime = _
  unfold luxWith
  by_cases sum : channelSum ch0 ch1 = 0
  · rw [if_pos sum, if_pos (zero.1 sum)]
    rfl
  · rw [if_neg sum, if_neg (zero.not.1 sum)]
    simp only [bandWith_eq_integerBand exact_accurate exact_equalQuotients sum, integerBand]
    split_ifs <;> rfl

/-- Settles O23: CLUX is accepted and replies at once with the formula, which in exact arithmetic is that of the integer
tests. -/
theorem cluxComputesTheFourBands : Obligations.CluxComputesTheFourBands := by
  refine ⟨numerics_ofNat, fun s ch0 ch1 gain itime als idle hgain hitime => ?_⟩
  have legal : (Instr.clux ch0 ch1 gain itime).legalOn s.kind = true := by
    rw [als]
    exact decide_eq_true ⟨Nat.pos_of_ne_zero fun h => hgain (BitVec.eq_of_toNat_eq h),
      Nat.pos_of_ne_zero fun h => hitime (BitVec.eq_of_toNat_eq h)⟩
  have run : exec (.clux ch0 ch1 gain itime) s =
      .next (s.ended [] s.transport .ok (.lux (lux s.num ch0 ch1 gain itime))) := by
    rw [exec_eq_accept, accept_idle legal idle]
    simp only [State.ended, List.append_nil]
    rfl
  refine ⟨run, fun hexact => ?_⟩
  rw [run, hexact, lux_exact_eq]

/-- Settles O24: sign and limits are those of the laws; the largest value is computed. -/
theorem luxRange : Obligations.LuxRange := by
  refine ⟨fun n ch0 ch1 gain itime named => ((numerics_accurate named).lux ch0 ch1 gain itime).1,
    fun n ch0 ch1 c d m valid => lux_intPart n ch0 ch1 d valid,
    fun ch0 ch1 c d m valid => lux_exact_le ch0 ch1 (gainTable_pos valid) (itimeTable_ge d), ?_⟩
  decide +kernel

/-! ### The fetch of the light sensor, request by request (R164, R165) -/

/-- The block within a command that has made the requests `reqs` and is in the sequencer state `q` with the latches `l`;
no request is in flight. -/
def State.within (q : Seq) (reqs : List Request) (ts : List TransportAct) (l : Latches) (s : State) : State :=
  { s with seq := q, busy := true, lat := l, pending := none, response := none, bus := s.bus ++ reqs, transport := ts }

section Within
variable {s : State} {st : Stage} {k : BusResult → State → Out} {q : Seq} {reqs : List Request} {ts : List TransportAct}
  {l : Latches}

theorem raise_within (o : OutcomeName) : raise o (s.within q reqs ts l) = .next (s.ended reqs ts o .none) := rfl

/-- A request that is answered well goes on with the answer in RAW (R53). -/
theorem issue_within_done {bs : List Byte} (length : bs.length = (st.request s.kind).r) :
    issue st k (s.within q reqs (.done bs :: ts) l) =
      k (.done bs) (s.within q (reqs ++ [st.request s.kind]) ts (l.loadRaw bs)) := by
  rw [issue, settle_done (s := (s.within q reqs (.done bs :: ts) l).request st) rfl length]
  simp only [State.within, State.request, State.answered, State.setLat, List.append_assoc]

/-- A request that fails ends the command, where failure is `BusError` (R165). -/
theorem issue_within_fail (busError : ∀ u, k .fail u = raise .busError u) :
    issue st k (s.within q reqs (.fail :: ts) l) =
      .next (s.ended (reqs ++ [st.request s.kind]) ts .busError .none) := by
  obtain ⟨m, latches⟩ := State.afterAnswer_eq (st.request s.kind).r .fail
    (((s.within q reqs (.fail :: ts) l).request st).answered ts)
  rw [issue, settle_fail (s := (s.within q reqs (.fail :: ts) l).request st) rfl, busError]
  refine (congrArg (raise .busError) latches).trans ?_
  simp only [raise_eq, State.complete, State.setLat, State.within, State.request, State.answered, State.ended,
    List.append_assoc]

/-- Step 1 with a valid status goes on to step 2. -/
theorem lightStatus_valid {b : Byte} (valid : statusValid b = true) :
    issue .lightStatus lightStatusAnswer (s.within q reqs (.done [b] :: ts) l) =
      issue .lightChannels lightChannelsAnswer (s.within .ready (reqs ++ [readRequest s.kind regStatus 1]) ts
        { l.loadRaw [b] with st := some b }) := by
  rw [issue_within_done rfl, lightStatusAnswer, decodeStatus_eq (b := b) rfl]
  exact if_pos valid

/-- Step 1 with a status that is not valid is `Retry`. -/
theorem lightStatus_invalid {b : Byte} (invalid : statusValid b = false) :
    issue .lightStatus lightStatusAnswer (s.within q reqs (.done [b] :: ts) l) =
      .next (s.ended (reqs ++ [readRequest s.kind regStatus 1]) ts .retry .none) := by
  rw [issue_within_done rfl, lightStatusAnswer, decodeStatus_eq (b := b) rfl]
  exact if_neg (ne_true_of_eq_false invalid)

/-- Step 2 latches the channels and goes on to step 3. -/
theorem lightChannels_done {b0 b1 b2 b3 : Byte} :
    issue .lightChannels lightChannelsAnswer (s.within q reqs (.done [b0, b1, b2, b3] :: ts) l) =
      issue .lightGain lightGainAnswer (s.within q (reqs ++ [readRequest s.kind regDataCh1Lo 4]) ts
        { l.loadRaw [b0, b1, b2, b3] with ch0 := some (comb16le b0 b1), ch1 := some (comb16le b2 b3) }) := by
  rw [issue_within_done rfl, lightChannelsAnswer, decodeChannels_eq (l := l) rfl]
  rfl

/-- Step 3 with a reserved gain ends the fetch. -/
theorem lightGain_reserved {c : Byte} (reserved : gainTable (gaincode c) = .reserved) :
    issue .lightGain lightGainAnswer (s.within q reqs (.done [c] :: ts) l) =
      .next (s.ended (reqs ++ [readRequest s.kind regContr 1]) ts .reservedConfiguration .none) := by
  rw [issue_within_done rfl, lightGainAnswer, decodeGain_eq (b := c) rfl, reserved]
  rfl

/-- Step 3 with a valid gain latches it and goes on to step 4. -/
theorem lightGain_valid {c m : Byte} (valid : gainTable (gaincode c) = .valid m) :
    issue .lightGain lightGainAnswer (s.within q reqs (.done [c] :: ts) l) =
      issue .lightRate lightRateAnswer (s.within q (reqs ++ [readRequest s.kind regContr 1]) ts
        { l.loadRaw [c] with gc := some (gaincode c), g := some (.valid m) }) := by
  rw [issue_within_done rfl, lightGainAnswer, decodeGain_eq (b := c) rfl, valid]
  rfl

/-- Step 4, then 5 and 6: `cache.lux` is written with the lux of what the latches hold. -/
theorem lightRate_done {d m : Byte} {ch0 ch1 : Half} (hg : l.g = some (.valid m)) (h0 : l.ch0 = some ch0)
    (h1 : l.ch1 = some ch1) :
    issue .lightRate lightRateAnswer (s.within q reqs (.done [d] :: ts) l) =
      .next { s.ended (reqs ++ [readRequest s.kind regMeasRate 1]) ts .ok .none with
        lux := some (lux s.num ch0 ch1 m (itimeTable (intcode d))) } := by
  rw [issue_within_done rfl, lightRateAnswer, decodeRate_eq (b := d) rfl]
  simp only [fetchLightStore, State.within, State.setIt_eq, State.setIc_eq, State.setLat_setLat, State.setLat_lat,
    Latches.loadRaw_g, Latches.loadRaw_ch0, Latches.loadRaw_ch1, hg, h0, h1, withLatch_some]
  rfl

end Within

/-- FETCH with a selector the light sensor supports begins with step 1 (R24, R201). -/
theorem exec_fetch_light {s : State} {sel : Byte} (plan : fetchPlan s.kind sel = .light) (idle : s.busy = false) :
    exec (.fetch sel) s =
      issue .lightStatus lightStatusAnswer (s.within .notReady [] s.transport Latches.empty) := by
  rw [exec_firstStage (st := .lightStatus) rfl idle (by rw [firstStage, plan]), firstSeq, fetchSeq, plan]
  simp only [State.within, List.append_nil]
  rfl

/-- Settles O25: the steps one after another up to the one that ends the fetch. -/
theorem fetchLightEndsByTheFirstCondition : Obligations.FetchLightEndsByTheFirstCondition := by
  intro s sel ts st b0 b1 b2 b3 c d als idle selector q1 q2 q3 q4 a1 a2 a3 valid code
  have start := exec_fetch_light (s := s) (sel := sel) (by rw [als, fetchPlan_als, if_pos selector]) idle
  have statusBits : statusValid st = decide valid := statusValid_eq st
  have step1 (h : valid) {rest} := lightStatus_valid (s := s) (q := .notReady) (reqs := []) (l := Latches.empty)
    (ts := rest) (statusBits.trans (decide_eq_true h))
  simp only [als] at step1
  refine ⟨fun h => ?_, fun invalid h => ?_, fun v h => ?_, fun v h => ?_, fun v reserved h => ?_, fun v g h => ?_,
    fun v g h => ?_⟩ <;> rw [start, h]
  · rw [issue_within_fail fun _ => rfl, als]
    rfl
  · rw [lightStatus_invalid (statusBits.trans (decide_eq_false invalid)), als]
    rfl
  · rw [step1 v, issue_within_fail fun _ => rfl, als]
    rfl
  · rw [step1 v, lightChannels_done, issue_within_fail fun _ => rfl, als]
    rfl
  · rw [step1 v, lightChannels_done, lightGain_reserved (gainTable_reserved reserved), als]
    rfl
  · rw [step1 v, lightChannels_done, lightGain_valid (gainTable_valid g), issue_within_fail fun _ => rfl, als]
    rfl
  · rw [step1 v, lightChannels_done, lightGain_valid (gainTable_valid g), lightRate_done rfl rfl rfl, als,
      comb16le_eq_ofNat, comb16le_eq_ofNat, itimeTable_intcode]
    rfl

/-! ### Writes to the sensor (R54, R113) -/

/-- The first request of a legal command is a write for `WRB` only. -/
theorem wrb_of_first_write {k : Kind} {i : Instr} {st : Stage} (legal : i.legalOn k = true)
    (first : firstStage k i = some st) (write : (st.request k).r = 0) :
    ∃ addr value, i = .wrb addr value ∧ st = .wrb addr value := by
  cases i with
  | wrb addr value => cases first; exact ⟨addr, value, rfl, rfl⟩
  | rdn addr n =>
    cases first
    have positive : 1 ≤ n.toNat := (of_decide_eq_true (legal : (Instr.rdn addr n).wellFormed = true)).1
    exact absurd write (Nat.ne_of_gt positive)
  | fetch sel => rw [firstStage] at first; split at first <;> cases first <;> cases write
  | rdb | chknd | getit | getch | getgn | getrh | gett => cases first; cases write
  | clux | get => cases first

/-- What a step that makes no request adds to the record. -/
theorem not_mem_of_bus_eq {bus new : List Request} {q : Request} (h : bus = bus ++ new) : q ∉ new := by
  rw [List.self_eq_append_right.1 h]
  exact List.not_mem_nil

/-- A write a command adds to the record is its own, if it is a legal `WRB`: the requests after the first are reads. -/
theorem exec_write {i : Instr} {s t : State} {new : List Request} {q : Request} (h : exec i s = .next t)
    (bus : t.bus = s.bus ++ new) (mem : q ∈ new) (write : q.r = 0) :
    ∃ addr value, i = .wrb addr value ∧ q = writeRequest s.kind addr value := by
  rcases exec_cases h with ⟨-, rfl⟩ | ⟨-, -, -, r, rfl, -⟩ | ⟨legal, -, st, first, hst⟩
  · exact absurd mem (not_mem_of_bus_eq bus)
  · exact absurd mem (not_mem_of_bus_eq bus)
  · obtain ⟨later, hbus, -, reads⟩ := (settle_frame st _ t hst).bus
    have added : new = st.request s.kind :: later :=
      List.append_cancel_left (bus.symm.trans (hbus.trans (List.append_assoc _ _ _)))
    rw [added] at mem
    rcases List.mem_cons.1 mem with rfl | mem
    · obtain ⟨addr, value, rfl, rfl⟩ := wrb_of_first_write legal first write
      exact ⟨addr, value, rfl, rfl⟩
    · exact absurd write (reads q mem)

/-- A command that goes on adds reads only. -/
theorem resume_reads {s t : State} {new : List Request} {q : Request} (h : resume s = .next t)
    (bus : t.bus = s.bus ++ new) (mem : q ∈ new) : q.r ≠ 0 := by
  rcases resume_cases h with rfl | ⟨-, st, -, hst⟩
  · exact absurd mem (not_mem_of_bus_eq bus)
  · obtain ⟨later, hbus, -, reads⟩ := (settle_frame st s t hst).bus
    exact reads q (List.append_cancel_left (bus.symm.trans hbus) ▸ mem)

/-- Settles O47: of the things a step can be, only a presented command can add a write. -/
theorem onlyWrbWritesToTheSensor : Obligations.OnlyWrbWritesToTheSensor := by
  intro s t new q h bus mem write
  rcases step_cases h with ⟨-, rfl⟩ | ⟨w, presented, ⟨e, -, rfl⟩ | ⟨i, hdecode, hi⟩⟩ | ⟨-, -, ⟨-, rfl⟩ | ⟨hs, hr⟩⟩
  · exact absurd mem (not_mem_of_bus_eq bus)
  · exact absurd mem (not_mem_of_bus_eq bus)
  · obtain ⟨addr, value, rfl, rfl⟩ := exec_write (s := { s with host := s.host.tail }) hi bus mem write
    exact ⟨w, addr, value, presented, hdecode, rfl⟩
  · exact absurd mem (not_mem_of_bus_eq bus)
  · exact absurd write (resume_reads (s := { s with host := hs }) hr bus mem)

end Sys2Proof.Machine


/-! Proofs of the family "thermo-hygro sensor": the two formulas in figures, the read of a code with a good and with a
failed answer, the commands and the fetch built on it, and the outcomes a command can end with. -/

namespace Sys2Proof.Machine

open Sys2Proof.Config (Q)

/-! ### The formulas in exact arithmetic -/

/-- R183 with exact numerics. -/
theorem rhPoly_exact (c : Half) : rhPoly .exact c = 125 * (c.toNat : Q) / 65536 - 6 := rfl

/-- R186 with exact numerics. -/
theorem tPoly_exact (c : Half) : tPoly .exact c = 17572 / 100 * (c.toNat : Q) / 65536 - 4685 / 100 := rfl

/-- Settles O27: the formula is linear in the code, so each claim about its values is one about whole numbers. -/
theorem humidityFormula : Obligations.HumidityFormula := by
  have fraction (c : Half) : rhPoly .exact c = (125 * c.toNat - 393216) / 65536 := by
    rw [rhPoly_exact]
    ring
  refine ⟨fraction, fun c d h => ?increasing, ?least, ?greatest, fun c => ?negative, fun c => ?saturated,
    fun _ _ _ => rfl⟩
  case increasing =>
    have h : (c.toNat : Q) < d.toNat := by exact_mod_cast h
    rw [rhPoly_exact, rhPoly_exact]
    linarith
  case least => decide +kernel
  case greatest => decide +kernel
  case negative =>
    rw [fraction, div_lt_iff₀ (by norm_num), zero_mul, sub_neg]
    norm_cast
    omega
  case saturated =>
    rw [fraction, lt_div_iff₀ (by norm_num), lt_sub_iff_add_lt]
    norm_num
    norm_cast
    omega

/-- Settles O28: the formula is linear in the code, so each claim about its values is one about whole numbers. -/
theorem temperatureFormula : Obligations.TemperatureFormula := by
  have fraction (c : Half) : tPoly .exact c = (4393 * c.toNat - 76759040) / 1638400 := by
    rw [tPoly_exact]
    ring
  refine ⟨fraction, fun c d h => ?increasing, ?least, ?greatest, fun c => ?negative, fun _ _ _ => rfl⟩
  case increasing =>
    have h : (c.toNat : Q) < d.toNat := by exact_mod_cast h
    rw [tPoly_exact, tPoly_exact]
    linarith
  case least => decide +kernel
  case greatest => decide +kernel
  case negative =>
    rw [fraction, div_lt_iff₀ (by norm_num), zero_mul, sub_neg]
    norm_cast
    omega

/-! ### The read of a code (R181) -/

/-- R138 as arithmetic. -/
theorem comb16be_eq_ofNat (a b : Byte) : comb16be a b = BitVec.ofNat 16 (256 * a.toNat + b.toNat) := by
  rw [← comb16be_toNat, BitVec.ofNat_toNat, BitVec.setWidth_eq]

/-- R138 as concatenation. -/
theorem comb16be_eq_append (a b : Byte) : comb16be a b = a ++ b :=
  BitVec.eq_of_toNat_eq (by
    rw [comb16be_toNat, BitVec.toNat_append, ← Nat.shiftLeft_add_eq_or_of_lt b.isLt, Nat.shiftLeft_eq, Nat.mul_comm])

/-- What `ReadCode` makes of an answer when `i` bytes have been drawn: whether the read was good, the code, and how many
bytes have been drawn then (R181). -/
inductive ReadsCode : TransportAct → Nat → Bool → Half → Nat → Prop where
  | good (b0 b1 : Byte) (i : Nat) : ReadsCode (.done [b0, b1]) i true (comb16be b0 b1) i
  | failed (i : Nat) : ReadsCode .fail i false (comb16be (Config.draw i) (Config.draw (i + 1))) (i + 2)

section Read
variable {s : State} {st : Stage} {k : BusResult → State → Out} {q : Seq} {reqs : List Request} {a : TransportAct}
  {ts : List TransportAct} {l : Latches} {ok : Bool} {code : Half} {n : Nat}

theorem answered_request_within : ((s.within q reqs (a :: ts) l).request st).answered ts =
    s.within q (reqs ++ [st.request s.kind]) ts l := by
  simp only [State.within, State.request, State.answered, List.append_assoc]

/-- A request for a code goes on, whatever the answer, with the code it gives. -/
theorem issue_within_readsCode {g : Bool → Half → State → Out} (read : ReadsCode a s.drawIndex ok code n)
    (length : (st.request s.kind).r = 2)
    (answer : ∀ res u, k res u = readCode res u fun ok u => withLatch u.lat.code fun code => g ok code u) :
    ∃ m, issue st k (s.within q reqs (a :: ts) l) =
      g ok code (({ s with drawIndex := n } : State).within q (reqs ++ [st.request s.kind]) ts m) := by
  cases read with
  | good b0 b1 =>
    rw [issue_within_done (bs := [b0, b1]) length.symm, answer]
    exact ⟨_, rfl⟩
  | failed =>
    obtain ⟨m, latches⟩ := State.afterAnswer_eq (st.request s.kind).r .fail
      (s.within q (reqs ++ [st.request s.kind]) ts l)
    rw [issue, settle_fail (s := (s.within q reqs (.fail :: ts) l).request st) rfl, answered_request_within, answer]
    exact ⟨_, congrArg (readCode .fail · _) latches⟩

/-- A legal command with a request begins, on an idle block, by putting it. -/
theorem exec_within {i : Instr} (legal : i.legalOn s.kind = true) (idle : s.busy = false)
    (first : firstStage s.kind i = some st) (transport : s.transport = a :: ts) :
    exec i s = issue st st.onAnswer (s.within (firstSeq s.kind i) [] (a :: ts) Latches.empty) := by
  rw [exec_firstStage legal idle first, ← transport]
  simp only [State.within, List.append_nil]
  rfl

/-- A command that converts one code answers the value in either case; a failed read is `BusError` (R182, R185). -/
theorem exec_conversion {i : Instr} {value : Numeric → Half → Q} (legal : i.legalOn s.kind = true)
    (idle : s.busy = false) (first : firstStage s.kind i = some st) (transport : s.transport = a :: ts)
    (length : (st.request s.kind).r = 2) (read : ReadsCode a s.drawIndex ok code n)
    (answer : ∀ res u, st.onAnswer res u = readCode res u fun ok u => withLatch u.lat.code fun code =>
      .next (u.complete { outcome := thsOutcome ok, payload := .value (value u.num code) })) :
    exec i s = .next { s.ended [st.request s.kind] ts (thsOutcome ok) (.value (value s.num code)) with
      drawIndex := n } := by
  obtain ⟨m, run⟩ := issue_within_readsCode (q := firstSeq s.kind i) (reqs := []) (ts := ts) (l := Latches.empty) read
    length answer
  exact (exec_within legal idle first transport).trans run

variable (ths : s.kind = .ths) (idle : s.busy = false)
include ths idle

/-- R182. -/
theorem exec_getrh (transport : s.transport = a :: ts) (read : ReadsCode a s.drawIndex ok code n) :
    exec .getrh s = .next { s.ended [readRequest .ths cmdHumidityMaster 2] ts (thsOutcome ok)
      (.value (rhPoly s.num code)) with drawIndex := n } := by
  rw [← ths]
  exact exec_conversion (st := .getrh) (by rw [ths]; rfl) idle rfl transport rfl read fun _ _ => rfl

/-- R185. -/
theorem exec_gett (transport : s.transport = a :: ts) (read : ReadsCode a s.drawIndex ok code n) :
    exec .gett s = .next { s.ended [readRequest .ths cmdTempMaster 2] ts (thsOutcome ok)
      (.value (tPoly s.num code)) with drawIndex := n } := by
  rw [← ths]
  exact exec_conversion (st := .gett) (by rw [ths]; rfl) idle rfl transport rfl read fun _ _ => rfl

/-- R188, R189: two codes are read and both cells written, whatever the answers. -/
theorem exec_fetch_ths {sel : Byte} {b : TransportAct} {okH okT : Bool} {codeH codeT : Half} {m : Nat}
    (selector : sel = 1 ∨ sel = 2 ∨ sel = 3) (transport : s.transport = a :: b :: ts)
    (readH : ReadsCode a s.drawIndex okH codeH m) (readT : ReadsCode b m okT codeT n) :
    exec (.fetch sel) s = .next { s.ended [readRequest .ths cmdHumidityMaster 2, readRequest .ths cmdTempMaster 2] ts
      (thsOutcome (okH && okT)) .none with
      hum := some (rhPoly s.num codeH), temp := some (tPoly s.num codeT), drawIndex := n } := by
  have plan : fetchPlan s.kind sel = .ths := by rw [ths, fetchPlan_ths, if_pos selector]
  obtain ⟨l, step1⟩ := issue_within_readsCode (st := .thsHum) (k := thsHumAnswer) (q := firstSeq s.kind (.fetch sel))
    (reqs := []) (ts := b :: ts) (l := Latches.empty) readH rfl fun _ _ => rfl
  obtain ⟨l', step2⟩ := issue_within_readsCode (s := { s with drawIndex := m }) (st := .thsTemp okH codeH)
    (k := thsTempAnswer okH codeH) (q := firstSeq s.kind (.fetch sel)) (reqs := [] ++ [Stage.thsHum.request s.kind])
    (ts := ts) (l := l) readT rfl fun _ _ => rfl
  rw [exec_within rfl idle (by rw [firstStage, plan]) transport, ← ths]
  exact step1.trans step2

end Read

/-- Settles O31: the two answers each as a good or a failed read. -/
theorem fetchThsWritesBothCells : Obligations.FetchThsWritesBothCells := by
  intro s sel ts h0 h1 t0 t1 ths idle selector qs i
  simp only [← comb16be_eq_append]
  exact ⟨fun h => exec_fetch_ths ths idle selector h (.good h0 h1 i) (.good t0 t1 i),
    fun h => exec_fetch_ths ths idle selector h (.failed i) (.good t0 t1 _),
    fun h => exec_fetch_ths ths idle selector h (.good h0 h1 i) (.failed i),
    fun h => exec_fetch_ths ths idle selector h (.failed i) (.failed _)⟩

/-- Settles O29: the word is that of the command, whose one read is good or fails; the exact value is the formula's. -/
theorem getrhReturnsTheHumidity : Obligations.GetrhReturnsTheHumidity := by
  refine ⟨decodeInvertsEncode .getrh, fun s ts ths idle => ?_⟩
  simp only [← comb16be_eq_ofNat]
  refine ⟨fun b0 b1 h => exec_getrh ths idle h (.good b0 b1 _), fun h => exec_getrh ths idle h (.failed _),
    fun hexact hi lo => ?_⟩
  rw [hexact, ← comb16be_toNat]
  exact rhPoly_exact _

/-- Settles O30: the word is that of the command, whose one read is good or fails; the exact value is the formula's. -/
theorem gettReturnsTheTemperature : Obligations.GettReturnsTheTemperature := by
  refine ⟨decodeInvertsEncode .gett, fun s ts ths idle => ?_⟩
  simp only [← comb16be_eq_ofNat]
  refine ⟨fun b0 b1 h => exec_gett ths idle h (.good b0 b1 _), fun h => exec_gett ths idle h (.failed _),
    fun hexact hi lo => ?_⟩
  rw [hexact, ← comb16be_toNat]
  exact tPoly_exact _

/-! ### The outcomes a command can end with (R230) -/

/-- The outcomes listed for the command, or the pipeline, that a stage is a request of (R230, R165, R188). -/
def Stage.outcomes : Stage → List OutcomeName
  | .rdb _ | .rdn _ _ | .wrb _ _ | .chknd | .getit | .getch | .getrh | .gett | .thsHum | .thsTemp _ _ =>
    [.ok, .busError]
  | .getgn => [.ok, .busError, .reservedConfiguration]
  | .lightStatus | .lightChannels | .lightGain | .lightRate => [.ok, .retry, .busError, .reservedConfiguration]

/-- A next state is one that waits for the transport, the response being `shown`, or the end of the command with one of
the outcomes `os`. -/
def EndsListed (os : List OutcomeName) (shown : Option Response) (o : Out) : Prop :=
  ∀ t, o = .next t →
    (t.busy = true ∧ t.pending.isSome ∧ t.response = shown) ∨ ∃ u r, t = State.complete r u ∧ r.outcome ∈ os

section EndsListed
variable {os : List OutcomeName} {shown : Option Response} {s : State}

theorem endsListed_complete {o : OutcomeName} {p : Payload} (listed : o ∈ os) :
    EndsListed os shown (.next (s.complete { outcome := o, payload := p })) := by
  rintro t ⟨⟩
  exact .inr ⟨s, _, rfl, listed⟩

/-- Every command with a request can end `Ok`. -/
theorem endsListed_reply {st : Stage} {p : Payload} : EndsListed st.outcomes shown (reply p s) :=
  endsListed_complete (by cases st <;> simp [Stage.outcomes])

/-- Every command with a request can end `BusError`. -/
theorem endsListed_busError {st : Stage} {p : Payload} :
    EndsListed st.outcomes shown (.next (s.complete { outcome := .busError, payload := p })) :=
  endsListed_complete (by cases st <;> simp [Stage.outcomes])

theorem endsListed_thsOutcome {st : Stage} {ok : Bool} {p : Payload} :
    EndsListed st.outcomes shown (.next (s.complete { outcome := thsOutcome ok, payload := p })) := by
  cases ok with
  | true => exact endsListed_reply
  | false => exact endsListed_busError

theorem endsListed_withLatch {α : Type} {o : Option α} {k : α → Out} (h : ∀ v, EndsListed os shown (k v)) :
    EndsListed os shown (withLatch o k) := by
  cases o with
  | none => rintro t ⟨⟩
  | some v => exact h v

theorem endsListed_readCode {res : BusResult} {k : Bool → State → Out}
    (h : ∀ ok u, u.busy = s.busy → u.response = s.response → EndsListed os shown (k ok u)) :
    EndsListed os shown (readCode res s k) := by
  cases res with
  | done bs => exact endsListed_withLatch fun b0 => endsListed_withLatch fun b1 => h true _ rfl rfl
  | fail => exact h false _ rfl rfl

/-- A request in flight stays unanswered, or the command goes on with its answer. -/
theorem endsListed_settle {st : Stage} {k : BusResult → State → Out} (busy : s.busy = true) (pending : s.pending.isSome)
    (answer : ∀ res u, u.busy = true → u.response = s.response → EndsListed os s.response (k res u)) :
    EndsListed os s.response (settle st k s) := by
  rcases settle_cases st k s with ⟨-, e⟩ | ⟨ts, -, e⟩ | ⟨a, ts, res, -, -, -, e⟩ <;> rw [e]
  · rintro t ⟨⟩
    exact .inl ⟨busy, pending, rfl⟩
  · rintro t ⟨⟩
    exact .inl ⟨busy, pending, rfl⟩
  · obtain ⟨l, hl⟩ := State.afterAnswer_eq (st.request s.kind).r res (s.answered ts)
    rw [hl]
    exact answer res _ busy rfl

theorem endsListed_issue {st : Stage} {k : BusResult → State → Out} (busy : s.busy = true)
    (answer : ∀ res u, u.busy = true → u.response = s.response → EndsListed os s.response (k res u)) :
    EndsListed os s.response (issue st k s) :=
  endsListed_settle (s := s.request st) busy rfl answer

/-! ### What follows an answer, the last request of each pipeline first -/

theorem endsListed_lightRateAnswer (res : BusResult) :
    EndsListed Stage.lightRate.outcomes shown (lightRateAnswer res s) := by
  cases res with
  | fail => exact endsListed_busError
  | done bs =>
    refine endsListed_withLatch fun b => endsListed_withLatch fun g => ?_
    cases g with
    | reserved => exact endsListed_complete (by decide)
    | valid m =>
      exact endsListed_withLatch fun a => endsListed_withLatch fun b => endsListed_withLatch fun t =>
        endsListed_reply

theorem endsListed_lightGainAnswer (busy : s.busy = true) (res : BusResult) :
    EndsListed Stage.lightGain.outcomes s.response (lightGainAnswer res s) := by
  cases res with
  | fail => exact endsListed_busError
  | done bs =>
    refine endsListed_withLatch fun b => endsListed_withLatch fun g => ?_
    cases g with
    | reserved => exact endsListed_complete (by decide)
    | valid m => exact endsListed_issue busy fun res u _ _ => endsListed_lightRateAnswer res

theorem endsListed_lightChannelsAnswer (busy : s.busy = true) (res : BusResult) :
    EndsListed Stage.lightChannels.outcomes s.response (lightChannelsAnswer res s) := by
  cases res with
  | fail => exact endsListed_busError
  | done bs =>
    exact endsListed_withLatch fun b0 => endsListed_withLatch fun b1 => endsListed_withLatch fun b2 =>
      endsListed_withLatch fun b3 => endsListed_issue busy fun res u hb hr => hr ▸ endsListed_lightGainAnswer hb res

theorem endsListed_lightStatusAnswer (busy : s.busy = true) (res : BusResult) :
    EndsListed Stage.lightStatus.outcomes s.response (lightStatusAnswer res s) := by
  cases res with
  | fail => exact endsListed_busError
  | done bs =>
    refine endsListed_withLatch fun b => endsListed_withLatch fun st => ?_
    split
    · exact endsListed_issue busy fun res u hb hr => hr ▸ endsListed_lightChannelsAnswer hb res
    · exact endsListed_complete (by decide)

theorem endsListed_getrhAnswer (res : BusResult) : EndsListed Stage.getrh.outcomes shown (getrhAnswer res s) :=
  endsListed_readCode fun _ _ _ _ => endsListed_withLatch fun _ => endsListed_thsOutcome

theorem endsListed_gettAnswer (res : BusResult) : EndsListed Stage.gett.outcomes shown (gettAnswer res s) :=
  endsListed_readCode fun _ _ _ _ => endsListed_withLatch fun _ => endsListed_thsOutcome

theorem endsListed_thsTempAnswer (okH : Bool) (codeH : Half) (res : BusResult) :
    EndsListed Stage.thsHum.outcomes shown (thsTempAnswer okH codeH res s) :=
  endsListed_readCode fun _ _ _ _ => endsListed_withLatch fun _ => endsListed_thsOutcome

theorem endsListed_thsHumAnswer (busy : s.busy = true) (res : BusResult) :
    EndsListed Stage.thsHum.outcomes s.response (thsHumAnswer res s) :=
  endsListed_readCode fun ok _ hb hr => endsListed_withLatch fun code =>
    hr ▸ endsListed_issue (hb.trans busy) fun res _ _ _ => endsListed_thsTempAnswer ok code res

/-- From the answer to a request on, a command waits at its next request or ends with a listed outcome. -/
theorem endsListed_onAnswer (busy : s.busy = true) (st : Stage) (res : BusResult) :
    EndsListed st.outcomes s.response (st.onAnswer res s) := by
  cases st with
  | rdb addr =>
    cases res with
    | fail => exact endsListed_busError
    | done bs => exact endsListed_withLatch fun b => endsListed_reply
  | rdn _ _ | wrb _ _ =>
    cases res with
    | fail => exact endsListed_busError
    | done bs => exact endsListed_reply
  | chknd | getit =>
    cases res with
    | fail => exact endsListed_busError
    | done bs => exact endsListed_withLatch fun b => endsListed_withLatch fun v => endsListed_reply
  | getch =>
    cases res with
    | fail => exact endsListed_busError
    | done bs =>
      exact endsListed_withLatch fun b0 => endsListed_withLatch fun b1 => endsListed_withLatch fun b2 =>
        endsListed_withLatch fun b3 => endsListed_withLatch fun c0 => endsListed_withLatch fun c1 => endsListed_reply
  | getgn =>
    cases res with
    | fail => exact endsListed_busError
    | done bs =>
      refine endsListed_withLatch fun b => endsListed_withLatch fun g => ?_
      cases g with
      | reserved => exact endsListed_complete (by decide)
      | valid m => exact endsListed_reply
  | getrh => exact endsListed_getrhAnswer res
  | gett => exact endsListed_gettAnswer res
  | lightStatus => exact endsListed_lightStatusAnswer busy res
  | lightChannels => exact endsListed_lightChannelsAnswer busy res
  | lightGain => exact endsListed_lightGainAnswer busy res
  | lightRate => exact endsListed_lightRateAnswer res
  | thsHum => exact endsListed_thsHumAnswer busy res
  | thsTemp okH codeH => exact endsListed_thsTempAnswer okH codeH res

/-- A command that has put a request waits or ends with a listed outcome. -/
theorem endsListed_request {st : Stage} (busy : s.busy = true) (pending : s.pending.isSome) :
    EndsListed st.outcomes s.response (settle st st.onAnswer s) :=
  endsListed_settle busy pending fun res _ hb hr => hr ▸ endsListed_onAnswer hb st res

/-- A command that makes no request ends at once, `Ok` or `Unsupported` (R160, R205, R209). -/
theorem endsListed_bodyOf_none {i : Instr} (first : firstStage s.kind i = none) :
    EndsListed [.ok, .unsupported] shown (bodyOf i s) := by
  unfold bodyOf
  rw [first]
  cases i with
  | clux ch0 ch1 gain itime => exact endsListed_complete (o := .ok) (by decide)
  | get sel =>
    show EndsListed _ _ (getBody sel s)
    unfold getBody
    split
    · exact endsListed_complete (by decide)
    · split
      · rintro t ⟨⟩
      · exact endsListed_complete (by decide)
  | _ => exact endsListed_complete (by decide)

/-- A response shown after a command is the one shown before or has a listed outcome. -/
theorem EndsListed.response {o : Out} {t : State} {r : Response} (h : EndsListed os shown o) (ht : o = .next t)
    (hr : t.response = some r) : shown = some r ∨ r.outcome ∈ os := by
  rcases h t ht with ⟨-, -, e⟩ | ⟨u, r', rfl, listed⟩
  · exact .inl (e ▸ hr)
  · cases hr
    exact .inr listed

end EndsListed

/-! ### The outcomes on a THS block (R180) -/

/-- The outcomes of R230 that are not those of a light command. -/
def thsOutcomes : List OutcomeName := [.ok, .unsupported, .busError, .illegalCommand]

/-- The requests of a THS block are not those of a light command. -/
theorem outcomes_subset_thsOutcomes {s : State} {st : Stage} (h : s.SuspendedAt st) (ths : s.kind = .ths) :
    st.outcomes ⊆ thsOutcomes := by
  have notAls : s.kind ≠ .als := by rw [ths]; decide
  have failable : [.ok, .busError] ⊆ thsOutcomes := by decide
  cases st with
  | chknd | getit | getch | getgn | lightStatus | lightChannels => exact absurd h.2 notAls
  | lightGain | lightRate => exact absurd h.2.1 notAls
  | rdb | rdn | wrb | getrh | gett | thsHum | thsTemp => exact failable

/-- The response to a command presented to a THS block. -/
theorem exec_ths_response {i : Instr} {s t : State} {r : Response} (sound : s.Sound) (ths : s.kind = .ths)
    (h : exec i s = .next t) (hr : t.response = some r) : r.outcome ∈ thsOutcomes := by
  rcases exec_cases h with ⟨-, rfl⟩ | ⟨-, -, first, -, -, body⟩ | ⟨legal, -, st, first, settled⟩
  · cases hr
    decide
  · have ends := endsListed_bodyOf_none (s := s.start (firstSeq s.kind i)) (shown := none) first
    have listed := (ends.response body hr).resolve_left nofun
    exact (by decide : [.ok, .unsupported] ⊆ thsOutcomes) listed
  · have ends := endsListed_request (s := (s.start (firstSeq s.kind i)).request st) (st := st) rfl rfl
    have listed := (ends.response settled hr).resolve_left nofun
    exact outcomes_subset_thsOutcomes (sound.working_start legal first).suspendedAt ths listed

/-- The response of a THS block whose sequencer goes on. -/
theorem resume_ths_response {s t : State} {r : Response} (inv : s.Inv) (ths : s.kind = .ths)
    (h : resume s = .next t) (hr : t.response = some r) : s.response = some r ∨ r.outcome ∈ thsOutcomes := by
  rcases resume_cases h with rfl | ⟨busy, st, pending, settled⟩
  · exact .inl hr
  · have ends := endsListed_request (st := st) busy (by rw [pending]; rfl)
    exact (ends.response settled hr).imp_right
      fun listed => outcomes_subset_thsOutcomes (inv.working busy pending).suspendedAt ths listed

/-- Settles O32: of the things a step can be, only a presented command, one that goes on and an illegal word give a new
response, and theirs is one of a THS block. -/
theorem thsBlockNeverRetries : Obligations.ThsBlockNeverRetries := by
  intro s t r inv ths h hr light
  have notThs : r.outcome ∉ thsOutcomes := by
    rcases light with e | e <;> rw [e] <;> decide
  rcases step_cases h with ⟨-, rfl⟩ | ⟨w, -, ⟨e, -, rfl⟩ | ⟨i, -, run⟩⟩ | ⟨-, -, ⟨-, rfl⟩ | ⟨hs, run⟩⟩
  · cases hr
  · cases hr
    exact absurd (by decide) notThs
  · have sound : State.Sound { s with host := s.host.tail } := inv.sound.congr rfl rfl rfl rfl rfl rfl
    exact absurd (exec_ths_response sound ths run hr) notThs
  · exact hr
  · have inv' : State.Inv { s with host := hs } := inv.congr hs s.transport s.response s.drawIndex
    exact (resume_ths_response inv' ths run hr).resolve_right notThs

end Sys2Proof.Machine


/-! Proofs of the family "facade": rounding toward zero as floor, ceiling and magnitude, the pair of `decomp`, and the
answers of FETCH and GET by the table of selectors. -/

namespace Sys2Proof.Machine

open Sys2Proof.Config (Q)

/-! ### Rounding toward zero (R11) -/

theorem truncQ_of_nonneg {v : Q} (h : 0 ≤ v) : truncQ v = ⌊v⌋ := by
  rw [truncQ, Int.tdiv_eq_ediv_of_nonneg (Rat.num_nonneg.2 h), Rat.floor_def']

theorem truncQ_neg (v : Q) : truncQ (-v) = -truncQ v := by
  rw [truncQ, truncQ, Rat.num_neg_eq_neg_num, Rat.den_neg_eq_den, Int.neg_tdiv]

theorem truncQ_of_nonpos {v : Q} (h : v ≤ 0) : truncQ v = ⌈v⌉ := by
  rw [← neg_neg v, truncQ_neg, truncQ_of_nonneg (neg_nonneg.2 h), Int.ceil_neg]

/-- Toward zero is down for a value that is not negative and up for one that is. -/
theorem truncQ_eq_ite (v : Q) : truncQ v = if 0 ≤ v then ⌊v⌋ else ⌈v⌉ := by
  split
  next h => exact truncQ_of_nonneg h
  next h => exact truncQ_of_nonpos (le_of_not_ge h)

/-- The magnitude of the truncated value is the floor of the value's magnitude. -/
theorem natAbs_truncQ (v : Q) : (truncQ v).natAbs = ⌊|v|⌋₊ := by
  have nonneg {w : Q} (h : 0 ≤ w) : (truncQ w).natAbs = ⌊w⌋₊ := by
    rw [truncQ_of_nonneg h, ← Int.natCast_floor_eq_floor h, Int.natAbs_natCast]
  rcases le_total 0 v with h | h
  · rw [abs_of_nonneg h, nonneg h]
  · rw [abs_of_nonpos h, ← nonneg (neg_nonneg.2 h), truncQ_neg, Int.natAbs_neg]

/-! ### The decomposition (R207) -/

theorem microsWith_lt {α : Type} (N : Config.Numerics α) (v : α) : microsWith N v < 1000000 :=
  Nat.mod_lt _ (by decide)

theorem intPartWith_exact (v : Q) : intPartWith exact v = truncQ v := rfl

theorem microsWith_exact (v : Q) : microsWith exact v = (truncQ (v * 1000000)).natAbs % 1000000 := rfl

/-- The two parts are quotient and remainder of one number, the magnitude in whole millionths. -/
theorem decomposition_eq_millionths (v : Q) :
    ((intPartWith exact v).natAbs : Q) + (microsWith exact v : Q) / 1000000 = (⌊|v| * 1000000⌋₊ : Q) / 1000000 := by
  have magnitude : |v * 1000000| = |v| * 1000000 := by rw [abs_mul, abs_of_pos (by norm_num : (0 : Q) < 1000000)]
  have quotient : (intPartWith exact v).natAbs = ⌊|v| * 1000000⌋₊ / 1000000 := by
    rw [intPartWith_exact, natAbs_truncQ, ← Nat.floor_div_ofNat, mul_div_cancel_right₀ _ (by norm_num)]
  have remainder : microsWith exact v = ⌊|v| * 1000000⌋₊ % 1000000 := by
    rw [microsWith_exact, natAbs_truncQ, magnitude]
  have sum := Nat.div_add_mod ⌊|v| * 1000000⌋₊ 1000000
  rw [← quotient, ← remainder] at sum
  rw [← sum]
  push_cast
  ring

/-- Settles O36: both parts are truncations, and truncation commutes with negation. -/
theorem decompositionTruncatesTowardZero : Obligations.DecompositionTruncatesTowardZero := by
  intro v
  refine ⟨truncQ_eq_ite v, ?micros, microsWith_lt exact v, truncQ_neg v, ?negated⟩
  case micros =>
    have sign : 0 ≤ v * 1000000 ↔ 0 ≤ v := mul_nonneg_iff_of_pos_right (by norm_num)
    simp only [microsWith_exact, truncQ_eq_ite, sign]
  case negated => rw [microsWith_exact, microsWith_exact, neg_mul, truncQ_neg, Int.natAbs_neg]

/-- Settles O37: the pair is the magnitude in whole millionths, rounded down. -/
theorem decompositionIsCloseToTheValue : Obligations.DecompositionIsCloseToTheValue := by
  intro v
  have below : (⌊|v| * 1000000⌋₊ : Q) ≤ |v| * 1000000 := Nat.floor_le (by positivity)
  have above : |v| * 1000000 < ⌊|v| * 1000000⌋₊ + 1 := Nat.lt_floor_add_one _
  rw [decomposition_eq_millionths]
  constructor <;> linarith

/-! ### The pair as machine words -/

theorem intPart32_toInt (n : Numeric) {v : Q} (lo : -2147483648 ≤ truncQ v) (hi : truncQ v ≤ 2147483647) :
    (intPart32 n v).toInt = truncQ v := by
  have trunc : intPartWith (numerics n) v = truncQ v := numerics_trunc n v
  have fits : fitsI32 (truncQ v) = true := decide_eq_true ⟨lo, hi⟩
  simp only [intPart32, trunc, fits, if_true]
  exact BitVec.toInt_ofInt_eq_self (by decide) (by simpa using lo) (by omega)

theorem micros32_toNat_lt (n : Numeric) (v : Q) : (micros32 n v).toNat < 1000000 :=
  (Nat.mod_le _ _).trans_lt (microsWith_lt (numerics n) v)

/-- A value in a cell of a block that meets the invariant is within the limit of R139 (f). -/
theorem State.IntPartsInRange.natAbs_le {s : State} {v : Q} (range : s.IntPartsInRange)
    (cell : s.lux = some v ∨ s.temp = some v ∨ s.hum = some v) : (truncQ v).natAbs ≤ 351152 := by
  obtain ⟨⟨lux, temp, hum⟩, -⟩ := range
  have bound {c : Option Q} (h : truncInRange (-351152) 351152 c) (e : c = some v) : (truncQ v).natAbs ≤ 351152 := by
    rw [e] at h
    obtain ⟨lo, hi⟩ := h
    omega
  rcases cell with e | e | e
  · exact bound lux e
  · exact bound temp e
  · exact bound hum e

/-- Settles O38: the invariant bounds the integer part, which therefore fits `i32`. -/
theorem cachedIntegerPartsAreInRange : Obligations.CachedIntegerPartsAreInRange := by
  refine ⟨fun s v inv cell => ?_, micros32_toNat_lt⟩
  have limit := inv.intPartsInRange.natAbs_le cell
  rw [intPart32_toInt s.num (by omega) (by omega)]
  refine ⟨rfl, limit, fun named => ?_⟩
  obtain ⟨lux, temp, hum⟩ := inv.intPartsInRange.2 named
  exact ⟨fun e => by rwa [e] at lux, fun e => by rwa [e] at hum, fun e => by rwa [e] at temp⟩

/-! ### FETCH and GET by the table of selectors (R201) -/

/-- A command that makes no request leaves the bus and the transport as they are. -/
theorem State.complete_eq_ended (o : OutcomeName) (p : Payload) (s : State) :
    s.complete { outcome := o, payload := p } = s.ended [] s.transport o p := by
  simp only [State.complete, State.ended, List.append_nil]

@[simp] theorem State.start_cell (q : Seq) (s : State) (c : CellName) : (s.start q).cell c = s.cell c := by
  cases c <;> rfl

section Selectors
variable {s : State} {sel : Byte} (idle : s.busy = false)
include idle

theorem exec_fetch_idle : exec (.fetch sel) s = fetchBody sel (s.start (fetchSeq s.kind sel)) :=
  accept_idle (i := .fetch sel) rfl idle

theorem exec_get_idle : exec (.get sel) s = getBody sel (s.start .run) :=
  accept_idle (i := .get sel) rfl idle

/-- R202 for a selector the table marks `Unsupported`. -/
theorem exec_fetch_unsupported (plan : fetchPlan s.kind sel = .unsupported) :
    exec (.fetch sel) s = .next (s.ended [] s.transport .unsupported .none) := by
  rw [exec_fetch_idle idle, fetchBody, State.start_kind, plan, ← State.complete_eq_ended]
  rfl

/-- R205 for a selector the table marks `Unsupported`. -/
theorem exec_get_unsupported (column : getCell s.kind sel = none) :
    exec (.get sel) s = .next (s.ended [] s.transport .unsupported .none) := by
  rw [exec_get_idle idle, getBody, State.start_kind, column, ← State.complete_eq_ended]
  rfl

/-- R205 for a selector whose cell holds a value. -/
theorem exec_get_written {c : CellName} {v : Q} (column : getCell s.kind sel = some c) (cell : s.cell c = some v) :
    exec (.get sel) s = .next (s.ended [] s.transport .ok (.pair (intPart32 s.num v) (micros32 s.num v))) := by
  rw [exec_get_idle idle, getBody, State.start_kind, column, ← State.complete_eq_ended]
  simp only [State.start_cell, cell]
  rfl

end Selectors

/-- Settles O34: the selector names a cell that holds `v`. -/
theorem getReturnsTheDecomposedCell : Obligations.GetReturnsTheDecomposedCell := by
  intro s sel v idle written
  obtain ⟨c, column, cell⟩ : ∃ c, getCell s.kind sel = some c ∧ s.cell c = some v := by
    cases kind : s.kind with
    | als =>
      rw [kind] at written
      obtain ⟨rfl, h⟩ := written
      exact ⟨.lux, rfl, h⟩
    | ths =>
      rw [kind] at written
      rcases written with ⟨rfl, h⟩ | ⟨rfl, h⟩
      · exact ⟨.temp, rfl, h⟩
      · exact ⟨.hum, rfl, h⟩
  exact ⟨intPart32 s.num v, exec_get_written idle column cell, intPart32_toInt s.num⟩

/-- Settles O33: the two columns of the table, for either kind. -/
theorem unsupportedSelectorIsAnswered : Obligations.UnsupportedSelectorIsAnswered := by
  intro s sel idle
  cases kind : s.kind with
  | als =>
    refine ⟨fun h => exec_fetch_unsupported idle ?_, fun h => exec_get_unsupported idle ?_⟩
    · rw [kind, fetchPlan_als, if_neg (by simpa only [not_or] using h)]
    · rw [kind, getCell_als, if_neg h]
  | ths =>
    refine ⟨fun h => exec_fetch_unsupported idle ?_, fun ⟨h1, h2⟩ => exec_get_unsupported idle ?_⟩
    · rw [kind, fetchPlan_ths, if_neg (by simpa only [not_or] using h)]
    · rw [kind, getCell_ths, if_neg h1, if_neg h2]

end Sys2Proof.Machine


/-! Proofs of the family "exceptions": the outcomes a command ends with, the commands that have a next state, the two
reasons a step stops, and a request that is never answered. -/

namespace Sys2Proof.Machine

/-! ### The outcomes listed for a command (R230) -/

theorem EndsListed.mono {os os' : List OutcomeName} {shown : Option Response} {o : Out} (h : EndsListed os shown o)
    (listed : os ⊆ os') : EndsListed os' shown o :=
  fun t ht => (h t ht).imp_right fun ⟨u, r, e, mem⟩ => ⟨u, r, e, listed mem⟩

/-- The outcomes of a command's requests are listed for the command. -/
theorem outcomes_subset_outcomesOf {k : Kind} {i : Instr} {st : Stage} (first : firstStage k i = some st) :
    st.outcomes ⊆ outcomesOf k i := by
  cases i with
  | fetch sel =>
    simp only [firstStage] at first
    cases plan : fetchPlan k sel with
    | light =>
      obtain rfl := fetchPlan_light_kind plan
      rw [plan] at first
      cases first
      simp only [Stage.outcomes, outcomesOf]
      decide
    | ths =>
      obtain rfl := fetchPlan_ths_kind plan
      rw [plan] at first
      cases first
      simp only [Stage.outcomes, outcomesOf]
      decide
    | unsupported => rw [plan] at first; cases first
  | clux | get => cases first
  | rdb | rdn | wrb | chknd | getit | getch | getgn | getrh | gett => cases first; exact List.Subset.refl _

/-- A command that makes no request ends with an outcome listed for it. -/
theorem endsListed_outcomesOf_of_none {i : Instr} {s : State} {shown : Option Response}
    (first : firstStage s.kind i = none) : EndsListed (outcomesOf s.kind i) shown (bodyOf i s) := by
  cases i with
  | clux ch0 ch1 gain itime => exact endsListed_complete (o := .ok) (List.mem_singleton_self _)
  | fetch sel =>
    refine (endsListed_bodyOf_none first).mono ?_
    simp only [outcomesOf]
    cases s.kind <;> decide
  | get sel => exact endsListed_bodyOf_none first
  | _ => cases first

/-- R230: a legal command on an idle block waits, with no response shown, or ends with an outcome listed for it. -/
theorem endsListed_exec {i : Instr} {s : State} (legal : i.legalOn s.kind = true) (idle : s.busy = false) :
    EndsListed (outcomesOf s.kind i) none (exec i s) := by
  cases first : firstStage s.kind i with
  | none =>
    rw [exec_eq_accept, accept_idle legal idle]
    exact endsListed_outcomesOf_of_none (s := s.start (firstSeq s.kind i)) first
  | some st =>
    rw [exec_firstStage legal idle first]
    exact (endsListed_request (s := (s.start (firstSeq s.kind i)).request st) rfl rfl).mono
      (outcomes_subset_outcomesOf first)

/-- Settles O9: what ends a command also makes the block idle. -/
theorem commandEndsWithAListedOutcome : Obligations.CommandEndsWithAListedOutcome := by
  intro i s t legal idle h
  rcases endsListed_exec legal idle t h with ⟨busy, pending, response⟩ | ⟨u, r, rfl, listed⟩
  · exact .inl ⟨busy, response, pending⟩
  · exact .inr ⟨rfl, rfl, rfl, rfl, r, rfl, listed⟩

/-! ### A command finds in the latches what it reads (R22) -/

/-- The outcome is a next state. -/
def Runs (o : Out) : Prop := ∃ t, o = .next t

theorem runs_next (t : State) : Runs (.next t) := ⟨t, rfl⟩

theorem runs_withLatch {α : Type} {o : Option α} {k : α → Out} (held : ∃ v, o = some v) (rest : ∀ v, Runs (k v)) :
    Runs (withLatch o k) := by
  obtain ⟨v, rfl⟩ := held
  exact rest v

/-- A read of a code that fails draws its bytes, so it stops no command (R181). -/
theorem runs_readCode {res : BusResult} {s : State} {k : Half → Bool → State → Out}
    (read : ∀ bs, res = .done bs → s.lat.HoldRead 2) (rest : ∀ code ok u, Runs (k code ok u)) :
    Runs (readCode res s fun ok u => withLatch u.lat.code fun code => k code ok u) := by
  obtain ⟨ok, code, t, e, -, held, -⟩ := readCode_eq read _
  rw [e]
  exact runs_withLatch ⟨code, held⟩ fun code => rest code ok t

/-- The latches, other than RAW, that are read after the answer to a stage's request and written before it (R164). -/
def Latches.HoldEarlier (l : Latches) : Stage → Prop
  | .lightGain => (∃ a, l.ch0 = some a) ∧ ∃ b, l.ch1 = some b
  | .lightRate => (∃ a, l.ch0 = some a) ∧ (∃ b, l.ch1 = some b) ∧ ∃ g, l.g = some g
  | .rdb _ | .rdn _ _ | .wrb _ _ | .chknd | .getit | .getch | .getgn | .getrh | .gett | .lightStatus | .lightChannels
  | .thsHum | .thsTemp _ _ => True

theorem Latches.HoldEarlier.congr {l m : Latches} {st : Stage} (h : l.HoldEarlier st) (ch0 : m.ch0 = l.ch0)
    (ch1 : m.ch1 = l.ch1) (g : m.g = l.g) : m.HoldEarlier st := by
  cases st with
  | lightGain | lightRate => simpa only [Latches.HoldEarlier, ch0, ch1, g] using h
  | _ => trivial

/-- A command's first request follows no other. -/
theorem holdEarlier_of_first {k : Kind} {i : Instr} {st : Stage} (first : firstStage k i = some st) (l : Latches) :
    l.HoldEarlier st := by
  cases i with
  | fetch sel =>
    rw [firstStage] at first
    split at first <;> cases first <;> trivial
  | _ => cases first <;> trivial

/-- The latches hold all that is read after the answer `res` to the request of a stage. -/
structure State.HoldsFor (s : State) (st : Stage) (res : BusResult) : Prop where
  earlier : s.lat.HoldEarlier st
  read : ∀ bs, res = .done bs → s.lat.HoldRead (st.request s.kind).r

/-- An answer fills RAW and leaves the other latches (R53). -/
theorem holdsFor_afterAnswer {s : State} {st : Stage} {res : BusResult} (earlier : s.lat.HoldEarlier st)
    (length : ∀ bs, res = .done bs → bs.length = (st.request s.kind).r) :
    (s.afterAnswer (st.request s.kind).r res).HoldsFor st res := by
  obtain ⟨ch0, ch1, g⟩ := State.afterAnswer_latches (st.request s.kind).r res s
  refine ⟨earlier.congr ch0 ch1 g, ?_⟩
  rintro bs rfl
  have loaded := Latches.loadRaw_holdRead bs s.lat
  rwa [length bs rfl] at loaded

theorem runs_settle {s : State} {st : Stage} (earlier : s.lat.HoldEarlier st)
    (answer : ∀ res u, State.HoldsFor u st res → Runs (st.onAnswer res u)) : Runs (settle st st.onAnswer s) := by
  rcases settle_cases st st.onAnswer s with ⟨-, e⟩ | ⟨ts, -, e⟩ | ⟨a, ts, res, -, -, length, e⟩ <;> rw [e]
  · exact runs_next s
  · exact runs_next _
  · exact answer _ _ (holdsFor_afterAnswer (s := s.answered ts) earlier length)

theorem runs_issue {s : State} {st : Stage} (earlier : s.lat.HoldEarlier st)
    (answer : ∀ res u, State.HoldsFor u st res → Runs (st.onAnswer res u)) : Runs (issue st st.onAnswer s) :=
  runs_settle (s := s.request st) earlier answer

section Runs
variable {s : State} {res : BusResult}

theorem runs_decodeChannels {k : State → Out} (raw : s.lat.HoldRead 4) (rest : ∀ a b, Runs (k (s.setChannels a b))) :
    Runs (decodeChannels s k) :=
  runs_withLatch (raw.raw0 (by decide)) fun b0 => runs_withLatch (raw.raw1 (by decide)) fun b1 =>
    runs_withLatch (raw.raw2 (by decide)) fun b2 => runs_withLatch (raw.raw3 (by decide)) fun b3 =>
      rest (comb16le b0 b1) (comb16le b2 b3)

theorem runs_getchAnswer (h : s.HoldsFor .getch res) : Runs (getchAnswer res s) := by
  cases res with
  | fail => exact runs_next _
  | done bs =>
    rw [getchAnswer]
    exact runs_decodeChannels (h.read bs rfl) fun a b =>
      runs_withLatch ⟨a, rfl⟩ fun _ => runs_withLatch ⟨b, rfl⟩ fun _ => runs_next _

theorem runs_getrhAnswer (h : s.HoldsFor .getrh res) : Runs (getrhAnswer res s) :=
  runs_readCode h.read fun _ _ _ => runs_next _

theorem runs_gettAnswer (h : s.HoldsFor .gett res) : Runs (gettAnswer res s) :=
  runs_readCode h.read fun _ _ _ => runs_next _

theorem runs_lightRateAnswer (h : s.HoldsFor .lightRate res) : Runs (lightRateAnswer res s) := by
  cases res with
  | fail => exact runs_next _
  | done bs =>
    obtain ⟨ch0, ch1, g⟩ := h.earlier
    refine runs_withLatch ((h.read bs rfl).raw0 le_rfl) fun b => runs_withLatch g fun g => ?_
    cases g with
    | reserved => exact runs_next _
    | valid m =>
      exact runs_withLatch ch0 fun _ => runs_withLatch ch1 fun _ => runs_withLatch ⟨_, rfl⟩ fun _ => runs_next _

theorem runs_lightGainAnswer (h : s.HoldsFor .lightGain res) : Runs (lightGainAnswer res s) := by
  cases res with
  | fail => exact runs_next _
  | done bs =>
    obtain ⟨ch0, ch1⟩ := h.earlier
    refine runs_withLatch ((h.read bs rfl).raw0 le_rfl) fun b => runs_withLatch ⟨_, rfl⟩ fun g => ?_
    cases g with
    | reserved => exact runs_next _
    | valid m => exact runs_issue (st := .lightRate) ⟨ch0, ch1, _, rfl⟩ fun _ _ => runs_lightRateAnswer

theorem runs_lightChannelsAnswer (h : s.HoldsFor .lightChannels res) : Runs (lightChannelsAnswer res s) := by
  cases res with
  | fail => exact runs_next _
  | done bs =>
    exact runs_decodeChannels (h.read bs rfl) fun a b =>
      runs_issue (st := .lightGain) ⟨⟨a, rfl⟩, b, rfl⟩ fun _ _ => runs_lightGainAnswer

theorem runs_lightStatusAnswer (h : s.HoldsFor .lightStatus res) : Runs (lightStatusAnswer res s) := by
  cases res with
  | fail => exact runs_next _
  | done bs =>
    refine runs_withLatch ((h.read bs rfl).raw0 le_rfl) fun b => runs_withLatch ⟨b, rfl⟩ fun status => ?_
    split
    · exact runs_issue (st := .lightChannels) trivial fun _ _ => runs_lightChannelsAnswer
    · exact runs_next _

theorem runs_thsTempAnswer {okH : Bool} {codeH : Half} (h : s.HoldsFor (.thsTemp okH codeH) res) :
    Runs (thsTempAnswer okH codeH res s) :=
  runs_readCode h.read fun _ _ _ => runs_next _

theorem runs_thsHumAnswer (h : s.HoldsFor .thsHum res) : Runs (thsHumAnswer res s) :=
  runs_readCode h.read fun code ok _ => runs_issue (st := .thsTemp ok code) trivial fun _ _ => runs_thsTempAnswer

/-- From the answer to a request on, a command has a next state. -/
theorem runs_onAnswer {st : Stage} (h : s.HoldsFor st res) : Runs (st.onAnswer res s) := by
  cases st with
  | rdb addr =>
    cases res with
    | fail => exact runs_next _
    | done bs => exact runs_withLatch ((h.read bs rfl).raw0 le_rfl) fun _ => runs_next _
  | rdn _ _ | wrb _ _ => cases res <;> exact runs_next _
  | chknd | getit =>
    cases res with
    | fail => exact runs_next _
    | done bs =>
      exact runs_withLatch ((h.read bs rfl).raw0 le_rfl) fun _ => runs_withLatch ⟨_, rfl⟩ fun _ => runs_next _
  | getch => exact runs_getchAnswer h
  | getgn =>
    cases res with
    | fail => exact runs_next _
    | done bs =>
      refine runs_withLatch ((h.read bs rfl).raw0 le_rfl) fun _ => runs_withLatch ⟨_, rfl⟩ fun g => ?_
      cases g <;> exact runs_next _
  | getrh => exact runs_getrhAnswer h
  | gett => exact runs_gettAnswer h
  | lightStatus => exact runs_lightStatusAnswer h
  | lightChannels => exact runs_lightChannelsAnswer h
  | lightGain => exact runs_lightGainAnswer h
  | lightRate => exact runs_lightRateAnswer h
  | thsHum => exact runs_thsHumAnswer h
  | thsTemp okH codeH => exact runs_thsTempAnswer h

end Runs

/-! ### GET and the written flag (R242) -/

/-- R242: there is no value to return. -/
theorem exec_get_unwritten {s : State} {sel : Byte} {c : CellName} (idle : s.busy = false)
    (column : getCell s.kind sel = some c) (unwritten : s.written c = false) :
    exec (.get sel) s = .fault .uninitialisedRead := by
  have cell : s.cell c = none := Option.not_isSome_iff_eq_none.1 (ne_true_of_eq_false unwritten)
  rw [exec_get_idle idle, getBody, State.start_kind, column]
  simp only [State.start_cell, cell]

/-- Settles O35: the selector names a cell without a value. -/
theorem getOfAnUnwrittenCellFaults : Obligations.GetOfAnUnwrittenCellFaults := by
  intro s sel idle unwritten
  cases kind : s.kind with
  | als =>
    rw [kind] at unwritten
    obtain ⟨rfl, h⟩ := unwritten
    exact exec_get_unwritten idle (by rw [kind]; rfl) h
  | ths =>
    rw [kind] at unwritten
    rcases unwritten with ⟨rfl, h⟩ | ⟨rfl, h⟩
    · exact exec_get_unwritten idle (by rw [kind]; rfl) h
    · exact exec_get_unwritten idle (by rw [kind]; rfl) h

theorem runs_get {s : State} {sel : Byte} (idle : s.busy = false)
    (written : ∀ c, getCell s.kind sel = some c → s.written c = true) : Runs (exec (.get sel) s) := by
  cases column : getCell s.kind sel with
  | none => exact ⟨_, exec_get_unsupported idle column⟩
  | some c =>
    obtain ⟨v, cell⟩ := Option.isSome_iff_exists.1 (written c column)
    exact ⟨_, exec_get_written idle column cell⟩

/-- Settles O10: a command with a request runs on empty latches, and of those without one only `GET` reads a cell. -/
theorem legalCommandOnIdleBlockRuns : Obligations.LegalCommandOnIdleBlockRuns := by
  intro i s legal idle written
  cases first : firstStage s.kind i with
  | some st =>
    rw [exec_firstStage legal idle first]
    exact runs_settle (holdEarlier_of_first first _) fun _ _ => runs_onAnswer
  | none =>
    cases i with
    | get sel => exact runs_get idle fun c => written sel c rfl
    | clux ch0 ch1 gain itime => exact ⟨_, accept_idle legal idle⟩
    | fetch sel =>
      cases plan : fetchPlan s.kind sel with
      | unsupported => exact ⟨_, exec_fetch_unsupported idle plan⟩
      | light | ths => simp only [firstStage, plan, reduceCtorEq] at first
    | _ => cases first

/-! ### Stops and hangs (R242, R243, R244) -/

/-- Settles O53: a step that keeps the invariant has a next state. -/
theorem stepStopsOnlyAsTheSpecSays : Obligations.StepStopsOnlyAsTheSpecSays :=
  fun _ inv => (step_of_inv inv).imp_left fun ⟨t, e, _⟩ => ⟨t, e⟩

/-- Without an answer the sequencer does not move. -/
theorem resume_unanswered {s : State} (transport : s.transport = []) : resume s = .next s := by
  unfold resume
  split
  · exact settle_nil transport
  · rfl
  · rfl

/-- Settles O54, by induction on the number of steps. -/
theorem unansweredCommandHangs : Obligations.UnansweredCommandHangs := by
  intro s n host transport
  have stays : step s = .next s := by
    simp only [step, host]
    exact resume_unanswered transport
  induction n with
  | zero => rfl
  | succ n ih => rw [run_succ_next n stays, ih]

end Sys2Proof.Machine


/-! Proofs of the family "reset and hazards": the reset state and the reset input, the written flags, what a `FETCH` that
has ended leaves for `GET`, the end of a command whose answers are all there, and the pair of a value between -1 and 0. -/

namespace Sys2Proof.Machine

open Sys2Proof.Config (Q)

/-! ### Reset (R260, R261) -/

/-- A state that a step leaves as it is stays for any number of steps. -/
theorem run_of_step_self {s : State} (stays : step s = .next s) (n : Nat) : Sys2Proof.core.run n s = .next s := by
  induction n with
  | zero => rfl
  | succ n ih => rw [run_succ_next n stays, ih]

/-- Settles O48: the fields are those of the table, and an idle block with nothing presented is left as it is. -/
theorem resetStateIsTheTable : Obligations.ResetStateIsTheTable :=
  fun _ _ => ⟨rfl, rfl, rfl, rfl, rfl, rfl, rfl, rfl, rfl, rfl, rfl, fun _ n => run_of_step_self rfl n⟩

/-- Settles O49: reset is the host's next action, so the step is `State.applyReset`. -/
theorem resetInputResetsTheBlock : Obligations.ResetInputResetsTheBlock := by
  intro s hs host
  exact ⟨_, step_host_cons host, rfl, rfl, rfl, rfl, rfl, rfl, rfl, rfl, rfl, rfl, rfl⟩

/-- Settles O50: after reset no cell holds a value and no request has been made. -/
theorem resetMeetsTheInvariant : Obligations.ResetMeetsTheInvariant :=
  fun _ num hs ts => resetOf_inv num 0 (bus := []) hs ts (List.forall_mem_nil _)

/-! ### The written flags (R262) -/

/-- From one state to the next no written flag is lost. -/
def KeepsWritten (s t : State) : Prop := ∀ c, s.written c = true → t.written c = true

/-- A change outside the cells loses no flag. -/
theorem keepsWritten_of_cells {s t : State} (cells : t.lux = s.lux ∧ t.temp = s.temp ∧ t.hum = s.hum) :
    KeepsWritten s t :=
  fun c written => (written_of_cells cells c).trans written

theorem exec_keepsWritten {i : Instr} {s t : State} (h : exec i s = .next t) : KeepsWritten s t := by
  rcases exec_cases h with ⟨-, rfl⟩ | ⟨-, -, -, r, rfl, -⟩ | ⟨-, -, st, -, settled⟩
  · exact keepsWritten_of_cells ⟨rfl, rfl, rfl⟩
  · exact keepsWritten_of_cells ⟨rfl, rfl, rfl⟩
  · have started : KeepsWritten s ((s.start (firstSeq s.kind i)).request st) := keepsWritten_of_cells ⟨rfl, rfl, rfl⟩
    exact fun c written => (settle_frame st _ t settled).written c (started c written)

theorem resume_keepsWritten {s t : State} (h : resume s = .next t) : KeepsWritten s t := by
  rcases resume_cases h with rfl | ⟨-, st, -, settled⟩
  · exact keepsWritten_of_cells ⟨rfl, rfl, rfl⟩
  · exact (settle_frame st s t settled).written

/-- Settles O44: of the things a step can be, only a reset empties a cell. -/
theorem writtenFlagStaysUntilReset : Obligations.WrittenFlagStaysUntilReset := by
  intro s t c h notReset
  suffices keeps : KeepsWritten s t from keeps c
  -- taking the host's action changes no cell
  have taken (hs : List HostAct) : KeepsWritten s { s with host := hs } := keepsWritten_of_cells ⟨rfl, rfl, rfl⟩
  rcases step_cases h with ⟨reset, -⟩ | ⟨w, -, ⟨e, -, rfl⟩ | ⟨i, -, run⟩⟩ | ⟨-, -, ⟨-, rfl⟩ | ⟨hs, run⟩⟩
  · exact absurd reset notReset
  · exact keepsWritten_of_cells ⟨rfl, rfl, rfl⟩
  · exact fun d written => exec_keepsWritten run d (taken _ d written)
  · exact taken _
  · exact fun d written => resume_keepsWritten run d (taken hs d written)

/-! ### The end of a command whose answers are all there (R244, R276) -/

/-- A command at a request ends if the transport has an answer for it and for each request that can follow. -/
theorem settle_ends {st : Stage} {s t : State} (enough : st.rank < s.transport.length)
    (prompt : .notYet ∉ s.transport) (h : settle st st.onAnswer s = .next t) : t.busy = false := by
  induction hn : st.rank using Nat.strong_induction_on generalizing st s with
  | _ n ih =>
    rcases settle_cases st st.onAnswer s with ⟨transport, -⟩ | ⟨ts, transport, -⟩ | ⟨a, ts, res, transport, -, -, e⟩ <;>
      rw [transport] at enough prompt
    · exact absurd enough (Nat.not_lt_zero _)
    · exact absurd List.mem_cons_self prompt
    · obtain ⟨l, hl⟩ := State.afterAnswer_eq (st.request s.kind).r res (s.answered ts)
      rw [e, hl] at h
      rcases onAnswer_cases st res ((s.answered ts).setLat l) with
        e | ⟨st', u, e, same, later, -, -⟩ | ⟨u, r, e, -⟩ | ⟨u, v, e, -, -⟩ | ⟨u, hh, v, r, okH, codeH, e, -, -⟩ <;>
        rw [e] at h
      · cases h
      · have left : (u.request st').transport = ts := same.transport
        have enough' : st'.rank < ts.length := by
          rw [List.length_cons] at enough
          omega
        exact ih _ (hn ▸ later) (left ▸ enough') (left ▸ fun late => prompt (List.mem_cons_of_mem a late)) h rfl
      · cases h; rfl
      · cases h; rfl
      · cases h; rfl

/-- Settles O55: a command that makes requests makes at most four. -/
theorem answeredCommandEnds : Obligations.AnsweredCommandEnds := by
  intro i s t legal idle enough prompt h
  rcases exec_cases h with ⟨illegal, -⟩ | ⟨-, -, -, r, rfl, -⟩ | ⟨-, -, st, -, settled⟩
  · exact absurd legal (ne_true_of_eq_false illegal)
  · rfl
  · have := st.rank_le
    exact settle_ends (s := (s.start _).request st) (by rw [State.request_transport, State.start_transport]; omega)
      prompt settled

/-! ### What a `FETCH` that has ended leaves for `GET` (R265, R271) -/

/-- A command that shows a response has ended. -/
theorem exec_idle_of_response {i : Instr} {s t : State} {r : Response} (legal : i.legalOn s.kind = true)
    (idle : s.busy = false) (h : exec i s = .next t) (response : t.response = some r) : t.busy = false := by
  rcases commandEndsWithAListedOutcome i s t legal idle h with ⟨-, silent, -⟩ | ⟨ended, -⟩
  · cases silent.symm.trans response
  · exact ended

/-- A `FETCH` that has ended otherwise than `Ok` has left lux as it was (R164). -/
theorem exec_fetch_lux_of_not_ok {s t : State} {sel : Byte} {r : Response} (h : exec (.fetch sel) s = .next t)
    (response : t.response = some r) (notOk : r.outcome ≠ .ok) : t.lux = s.lux := by
  rcases exec_cases h with ⟨illegal, -⟩ | ⟨-, -, -, r', rfl, -⟩ | ⟨-, -, st, -, settled⟩
  · cases illegal
  · rfl
  · rcases settle_lux st settled with lux | ok
    · exact lux
    · cases response.symm.trans ok
      exact absurd rfl notOk

/-- `GET` looks at the parameters and the selected cell only. -/
theorem exec_get_response_congr {s t u : State} {sel : Byte} (idleS : s.busy = false) (idleT : t.busy = false)
    (kind : t.kind = s.kind) (num : t.num = s.num) (cell : ∀ c, getCell s.kind sel = some c → t.cell c = s.cell c)
    (h : exec (.get sel) s = .next u) : ∃ w, exec (.get sel) t = .next w ∧ w.response = u.response := by
  cases column : getCell s.kind sel with
  | none =>
    rw [exec_get_unsupported idleS column] at h
    cases h
    exact ⟨_, exec_get_unsupported idleT (kind ▸ column), rfl⟩
  | some c =>
    cases value : s.cell c with
    | none =>
      rw [exec_get_unwritten idleS column (by rw [State.written, value]; rfl)] at h
      cases h
    | some v =>
      rw [exec_get_written idleS column value] at h
      cases h
      refine ⟨_, exec_get_written idleT (kind ▸ column) ((cell c column).trans value), ?_⟩
      rw [num]
      rfl

/-- The only cell of an ALS block is lux (R27). -/
theorem getCell_als_eq_lux {sel : Byte} {c : CellName} (h : getCell .als sel = some c) : c = .lux := by
  rcases getCell_kind h with ⟨rfl, -⟩ | ⟨-, e⟩ | ⟨-, e⟩
  · rfl
  · cases e
  · cases e

/-- Settles O40: a fetch that did not end `Ok` has not written lux, the one cell `GET` reads on ALS. -/
theorem staleReadingSurvivesAFailedFetch : Obligations.StaleReadingSurvivesAFailedFetch := by
  intro s t sel gsel r als idle h response notOk
  have lux := exec_fetch_lux_of_not_ok h response notOk
  obtain ⟨kind, num, -⟩ := exec_frame h
  refine ⟨lux, fun u => exec_get_response_congr idle (exec_idle_of_response rfl idle h response) kind num ?_⟩
  intro c column
  obtain rfl := getCell_als_eq_lux (als ▸ column)
  exact lux

/-- A next state shows no response yet, or both cells of a THS block hold values (R188 step 3). -/
def EndsWithThsCells (o : Out) : Prop :=
  ∀ t, o = .next t → t.response = none ∨ ((∃ v, t.temp = some v) ∧ ∃ v, t.hum = some v)

/-- Waiting for an answer shows no response. -/
theorem endsWithThsCells_settle {st : Stage} {k : BusResult → State → Out} {s : State} (waiting : s.response = none)
    (answer : ∀ res u, u.response = none → EndsWithThsCells (k res u)) : EndsWithThsCells (settle st k s) := by
  rcases settle_cases st k s with ⟨-, e⟩ | ⟨ts, -, e⟩ | ⟨a, ts, res, -, -, -, e⟩ <;> rw [e]
  · rintro t ⟨⟩
    exact .inl waiting
  · rintro t ⟨⟩
    exact .inl waiting
  · obtain ⟨l, hl⟩ := State.afterAnswer_eq (st.request s.kind).r res (s.answered ts)
    rw [hl]
    exact answer res _ waiting

theorem endsWithThsCells_readCode {res : BusResult} {s : State} {k : Half → Bool → State → Out}
    (waiting : s.response = none) (rest : ∀ code ok u, u.response = none → EndsWithThsCells (k code ok u)) :
    EndsWithThsCells (readCode res s fun ok u => withLatch u.lat.code fun code => k code ok u) := by
  rcases readCode_cases res s fun ok u => withLatch u.lat.code fun code => k code ok u with
    e | ⟨ok, code, u, e, same, held, -⟩
  · rw [e]
    rintro t ⟨⟩
  · rw [e, held]
    exact rest code ok u (same.response.trans waiting)

/-- The last step writes both cells, whatever the answers were. -/
theorem endsWithThsCells_thsTempAnswer {okH : Bool} {codeH : Half} {res : BusResult} {s : State}
    (waiting : s.response = none) : EndsWithThsCells (thsTempAnswer okH codeH res s) :=
  endsWithThsCells_readCode waiting fun _ _ _ _ => by
    rintro t ⟨⟩
    exact .inr ⟨⟨_, rfl⟩, _, rfl⟩

/-- The first step goes on to the last, whatever its answer was. -/
theorem endsWithThsCells_thsHumAnswer {res : BusResult} {s : State} (waiting : s.response = none) :
    EndsWithThsCells (thsHumAnswer res s) :=
  endsWithThsCells_readCode waiting fun code ok u waiting =>
    endsWithThsCells_settle (s := u.request (.thsTemp ok code)) waiting fun _ _ => endsWithThsCells_thsTempAnswer

/-- `FetchTHS` begins at its first request and has written both cells when it ends. -/
theorem endsWithThsCells_exec {s : State} {sel : Byte} (idle : s.busy = false) (plan : fetchPlan s.kind sel = .ths) :
    EndsWithThsCells (exec (.fetch sel) s) := by
  rw [exec_firstStage (st := .thsHum) rfl idle (by rw [firstStage, plan])]
  exact endsWithThsCells_settle (s := (s.start _).request .thsHum) rfl fun _ _ => endsWithThsCells_thsHumAnswer

/-- Settles O41: a fetch of a THS block that has ended, `Ok` or not, has written both cells. -/
theorem fetchedThsCellsAreReadable : Obligations.FetchedThsCellsAreReadable := by
  intro s t sel gsel r ths idle selector h response cell
  have ended := exec_idle_of_response rfl idle h response
  have kind : t.kind = .ths := (exec_frame h).1.trans ths
  have plan : fetchPlan s.kind sel = .ths := by rw [ths, fetchPlan_ths, if_pos selector]
  obtain ⟨⟨v, temp⟩, ⟨w, hum⟩⟩ := (endsWithThsCells_exec idle plan t h).resolve_left (by rw [response]; nofun)
  rcases cell with rfl | rfl
  · exact ⟨_, _, _, exec_get_written (c := .temp) ended (by rw [kind]; rfl) temp, rfl⟩
  · exact ⟨_, _, _, exec_get_written (c := .hum) ended (by rw [kind]; rfl) hum, rfl⟩

/-! ### The pair of a value (R269, R274) -/

/-- What `GET` answers for the literal 23.456789 of a block's numerics (R274). -/
def literalPair (n : Numeric) : Payload :=
  let v := (numerics n).ofDec 23456789 1000000
  .pair (intPart32 n v) (micros32 n v)

theorem literalPair_exact : literalPair .exact = .pair 23 456789 := by decide +kernel

theorem literalPair_binary64 : literalPair .binary64 = .pair 23 456789 := by decide +kernel

/-- Above `2^24` a number of 24 bits is even, so that the product with a million is rounded to 23456790. -/
theorem literalPair_binary32 : literalPair .binary32 = .pair 23 456790 := by decide +kernel

/-- Settles O60: `GET` answers the pair of the cell, which is computed for each of the three formats. -/
theorem decompositionDependsOnNum : Obligations.DecompositionDependsOnNum := by
  intro s als idle cell
  have answer : exec (.get 0) s = .next (s.ended [] s.transport .ok (literalPair s.num)) :=
    exec_get_written (c := .lux) idle (by rw [als]; rfl) cell
  rw [answer]
  refine ⟨?_, fun num => by rw [num, literalPair_binary32]⟩
  rintro (num | num)
  · rw [num, literalPair_exact]
  · rw [num, literalPair_binary64]

/-- A value strictly between -1 and 0 has the integer part 0. -/
theorem truncQ_eq_zero_of_between {v : Q} (above : -1 < v) (below : v < 0) : truncQ v = 0 := by
  rw [truncQ_of_nonpos below.le, Int.ceil_eq_zero_iff]
  exact ⟨above, below.le⟩

/-- When a linear conversion of a code lies strictly between -1 and 0, in integers. -/
theorem linear_between_iff {x : Q} {a b d n : Nat} (hd : 0 < d) (hx : x = ((a : Q) * n - b) / d) :
    (-1 < x ∧ x < 0) ↔ b < a * n + d ∧ a * n < b := by
  have hd : (0 : Q) < d := by exact_mod_cast hd
  rw [hx, lt_div_iff₀ hd, div_lt_iff₀ hd, ← Nat.cast_lt (α := Q), ← Nat.cast_lt (α := Q)]
  push_cast
  exact and_congr ⟨fun h => by linarith, fun h => by linarith⟩ (by rw [zero_mul, sub_neg])

/-- Settles O39: truncation toward zero loses the sign, and the codes are those of a linear conversion. -/
theorem signIsLostBelowOne : Obligations.SignIsLostBelowOne := by
  refine ⟨fun v above below => ?pair, fun c => ?temperature, fun c => ?humidity⟩
  case pair =>
    obtain ⟨-, -, -, negated, micros⟩ := decompositionTruncatesTowardZero v
    have zero : intPartWith exact v = 0 := truncQ_eq_zero_of_between above below
    exact ⟨zero, by rw [negated, zero, neg_zero], micros⟩
  case temperature =>
    rw [linear_between_iff (a := 17572) (b := 4685 * 65536) (d := 100 * 65536) (n := c.toNat) (by decide)
      (by rw [tPoly_exact]; push_cast; ring)]
    omega
  case humidity =>
    rw [linear_between_iff (a := 125) (b := 6 * 65536) (d := 65536) (n := c.toNat) (by decide)
      (by rw [rhPoly_exact]; push_cast; ring)]
    omega

end Sys2Proof.Machine
